-- ==== Sys2Proof/Word.lean ====
section
/-! DEFINITION. The word types of the NEMUC block (00_scope.md R6 R7): every quantity the spec
treats as bits is a bit vector of its own width. -/

namespace Sys2Proof

/-- A byte, R7. -/
abbrev Byte := BitVec 8
/-- A 32-bit word: the data of one host transaction and of every single register, R50. -/
abbrev Word := BitVec 32
/-- A 64-bit register (`RESULT`, `PT_ARG`, `PT_BBITS`), R34 R36 R37. -/
abbrev DWord := BitVec 64
/-- Sixteen bytes (`KEY`, `AKEY`, `AIV`, an AES block): byte `i` is bits `8i+7 .. 8i`
(DESIGN CHOICE, log 10). -/
abbrev Bytes16 := BitVec 128
/-- A 1024-bit integer register of the modexp unit, R24 R25. -/
abbrev Wide := BitVec 1024

end Sys2Proof
end

