-- ==== Sys2Proof/Syntax.lean ====
section
/-! DEFINITION. The instruction set: the thirteen commands of 30_encoding.md R84, one constructor
for each row of the opcode table. Every operand is implicit but the `g` bit of ENCRYPT (R83). -/

namespace Sys2Proof

/-- A command of the NEMUC block, R84. -/
inductive Instr where
  /-- MODPOW, R103 -/
  | modpow
  /-- ENCKEY, R106 -/
  | enckey
  /-- AESCBC, R136 -/
  | aescbc
  /-- DBLENC, R138 -/
  | dblenc
  /-- KEYGEN, R151 -/
  | keygen
  /-- ENCRYPT, R152; `g` is bit 8 of the word: true draws the key, false takes it from `KEY` -/
  | encrypt (g : Bool)
  /-- PTINIT, R161 -/
  | ptinit
  /-- PTALLOC, R165 -/
  | ptalloc
  /-- PTTEST, R166 (the pseudo-command PTCONTAINS is the same word, R89) -/
  | pttest
  /-- PTSET, R167 -/
  | ptset
  /-- PTTAS, R168 -/
  | pttas
  /-- PTDUMP, R183 -/
  | ptdump
  /-- PTLOAD, R184 -/
  | ptload
  deriving DecidableEq, Repr

end Sys2Proof
end

