-- ==== Sys2Proof/WellFormed.lean ====
section
/-! DEFINITION. What a well-formed command and a legal command word are. A command has no operand
that could be out of range (30_encoding.md R83), so every term of `Instr` is well formed; the checks
that can fail are on the word (R81 R82 R87). -/

namespace Sys2Proof

/-- Every command is well formed: its only field, `g` of ENCRYPT, is one bit and both values are
legal, R82 R83. -/
def Instr.wf : Instr → Bool
  | .modpow | .enckey | .aescbc | .dblenc | .keygen => true
  | .encrypt _ => true
  | .ptinit | .ptalloc | .pttest | .ptset | .pttas | .ptdump | .ptload => true

/-- Bits 31:9 of a command word must be 0, R81. -/
def reservedClear (w : Word) : Bool := w.extractLsb' 9 23 == 0

/-- Bits 7:0 must be one of the thirteen opcodes, R84. -/
def opcodeKnown (w : Word) : Bool :=
  [0x01, 0x02, 0x10, 0x11, 0x20, 0x21, 0x30, 0x31, 0x32, 0x33, 0x34, 0x35, 0x36].contains
    (w.extractLsb' 0 8)

/-- Bit 8 must be 0 unless the opcode is ENCRYPT's, R81. -/
def generateAllowed (w : Word) : Bool := !w.getLsbD 8 || w.extractLsb' 0 8 == 0x21

/-- A legal command word, R87. -/
def legalWord (w : Word) : Bool := reservedClear w && opcodeKnown w && generateAllowed w

/-- One row of the opcode table as the spec prints it: a word belongs to the row when
`word &&& mask = pattern`, R82 R84. -/
structure OpcodeRow where
  mnemonic : String
  pattern : Word
  mask : Word
  deriving DecidableEq, Repr

/-- A word matches a row, R82. -/
def OpcodeRow.matches (r : OpcodeRow) (w : Word) : Bool := w &&& r.mask == r.pattern

/-- The opcode map of R84, row by row. -/
def opcodeTable : List OpcodeRow :=
  [⟨"MODPOW", 0x00000001, 0xFFFFFFFF⟩, ⟨"ENCKEY", 0x00000002, 0xFFFFFFFF⟩,
   ⟨"AESCBC", 0x00000010, 0xFFFFFFFF⟩, ⟨"DBLENC", 0x00000011, 0xFFFFFFFF⟩,
   ⟨"KEYGEN", 0x00000020, 0xFFFFFFFF⟩, ⟨"ENCRYPT", 0x00000021, 0xFFFFFEFF⟩,
   ⟨"PTINIT", 0x00000030, 0xFFFFFFFF⟩, ⟨"PTALLOC", 0x00000031, 0xFFFFFFFF⟩,
   ⟨"PTTEST", 0x00000032, 0xFFFFFFFF⟩, ⟨"PTSET", 0x00000033, 0xFFFFFFFF⟩,
   ⟨"PTTAS", 0x00000034, 0xFFFFFFFF⟩, ⟨"PTDUMP", 0x00000035, 0xFFFFFFFF⟩,
   ⟨"PTLOAD", 0x00000036, 0xFFFFFFFF⟩]

end Sys2Proof
end

