-- ==== Sys2Proof/Decode.lean ====
section
/-! DEFINITION. Decoding, total on 32-bit words and rejecting by name, in the order of
30_encoding.md R87, and the encoder written from the formats of R82 and the opcodes of R84. -/

namespace Sys2Proof

/-- Why a command word is illegal, R87. Each reason is the command error `ILLCMD` of R85. -/
inductive DecodeError where
  /-- bits 31:9 are not all 0 -/
  | reservedBits
  /-- bits 7:0 are no opcode of R84 -/
  | unknownOpcode
  /-- bit 8 is set on a command other than ENCRYPT -/
  | strayGenerate
  deriving DecidableEq, Repr

/-- The command of an opcode, with `g` for ENCRYPT, R84. -/
def commandOf (op : Byte) (g : Bool) : Option Instr :=
  match op.toNat with
  | 0x01 => some .modpow
  | 0x02 => some .enckey
  | 0x10 => some .aescbc
  | 0x11 => some .dblenc
  | 0x20 => some .keygen
  | 0x21 => some (.encrypt g)
  | 0x30 => some .ptinit
  | 0x31 => some .ptalloc
  | 0x32 => some .pttest
  | 0x33 => some .ptset
  | 0x34 => some .pttas
  | 0x35 => some .ptdump
  | 0x36 => some .ptload
  | _ => none

/-- Decoding of a command word, in the order of R87: reserved bits, opcode, stray `g`. -/
def decode (w : Word) : Except DecodeError Instr :=
  let op : Byte := w.extractLsb' 0 8
  let g := w.getLsbD 8
  if w.extractLsb' 9 23 ≠ 0 then .error .reservedBits
  else match commandOf op g with
    | none => .error .unknownOpcode
    | some i => if op ≠ 0x21 ∧ g = true then .error .strayGenerate else .ok i

/-- The opcode of a command, R84. -/
def Instr.opcode : Instr → Word
  | .modpow => 0x01
  | .enckey => 0x02
  | .aescbc => 0x10
  | .dblenc => 0x11
  | .keygen => 0x20
  | .encrypt _ => 0x21
  | .ptinit => 0x30
  | .ptalloc => 0x31
  | .pttest => 0x32
  | .ptset => 0x33
  | .pttas => 0x34
  | .ptdump => 0x35
  | .ptload => 0x36

/-- The word of a command: format G is `op + 256 * g`, format N is `op`, R82. -/
def encode (i : Instr) : Word :=
  match i with
  | .encrypt true => i.opcode + 256
  | .encrypt false => i.opcode
  | .modpow | .enckey | .aescbc | .dblenc | .keygen => i.opcode
  | .ptinit | .ptalloc | .pttest | .ptset | .pttas | .ptdump | .ptload => i.opcode

/-- The command the decoder reads from a table word of `nbits` bits: a command word is the 32-bit
data of one `MemWrite` (R80), bits above `nbits` are 0, and a wider word is no command word. -/
def decodeTableWord (nbits w : Nat) : Option Instr :=
  let v := w % 2 ^ nbits
  if v < 2 ^ 32 then (decode (BitVec.ofNat 32 v)).toOption else none

end Sys2Proof
end

