-- ==== Sys2Proof/Machine/Bytes.lean ====
section
/-! DEFINITION. Byte and bit orders (00_scope.md R7, 20_memory.md R55 to R60) and the fixed
constants of the block (00_scope.md R5, 10_state.md R25 R26, 41_symmetric.md R134). -/

namespace Sys2Proof.Machine

/-- `be_int(s)`, R7: the first byte is most significant. -/
def beInt (s : List Byte) : Nat := s.foldl (fun n b => n * 256 + b.toNat) 0

/-- `le_int(s)`, R7: the first byte is least significant. -/
def leInt : List Byte → Nat
  | [] => 0
  | b :: bs => b.toNat + 256 * leInt bs

/-- `le_bytes_k(v)`, R7. -/
def leBytes : Nat → Nat → List Byte
  | 0, _ => []
  | k + 1, v => BitVec.ofNat 8 v :: leBytes k (v / 256)

/-- `be_bytes_k(v)`, R7. -/
def beBytes (k v : Nat) : List Byte := (leBytes k v).reverse

/-- Byte `i` of a register seen as a little-endian byte array, R55 R58. -/
def byteOf {w : Nat} (x : BitVec w) (i : Nat) : Byte := x.extractLsb' (8 * i) 8

/-- Word `k` of an integer register, `R[32k+31 : 32k]`, R56. -/
def wordOf {w : Nat} (x : BitVec w) (k : Nat) : Word := x.extractLsb' (32 * k) 32

/-- `R[32k+31 : 32k] <- v`, the other bits unchanged, R56. -/
def setWord {w : Nat} (x : BitVec w) (k : Nat) (v : Word) : BitVec w :=
  (x &&& ~~~((BitVec.allOnes 32).setWidth w <<< (32 * k))) ||| (v.setWidth w <<< (32 * k))

/-- The 32-bit word whose lanes are the bytes `f a`, `f (a+1)`, `f (a+2)`, `f (a+3)`, the first in
bits 7:0, R55 R58. -/
def lanes (f : Nat → Byte) (a : Nat) : Word := f (a + 3) ++ f (a + 2) ++ f (a + 1) ++ f a

/-- The bytes of a 32-bit word in lane order, R55 R59. -/
def laneBytes (v : Word) : List Byte := [byteOf v 0, byteOf v 1, byteOf v 2, byteOf v 3]

/-- The byte sequence `X[0 .. 16)` of a 16-byte register, R58 (DESIGN CHOICE, log 10). -/
def bytes16 (x : Bytes16) : List Byte := (List.range 16).map (byteOf x)

/-- The 16-byte register that holds a byte sequence, R58 (DESIGN CHOICE, log 10). -/
def ofBytes16 (s : List Byte) : Bytes16 := BitVec.ofNat 128 (leInt s)

/-- The public exponent `E_PUB`, R5 R26. -/
def ePub : Nat := 65537

/-- The constant `NONCE`, `ascii("0CoJUm6Qyw8W8jud")`, R5 R26. -/
def nonce : Bytes16 :=
  ofBytes16 [0x30, 0x43, 0x6f, 0x4a, 0x55, 0x6d, 0x36, 0x51,
    0x79, 0x77, 0x38, 0x57, 0x38, 0x6a, 0x75, 0x64]

/-- The constant `IV`, `ascii("0102030405060708")`, R5 R26. -/
def fixedIv : Bytes16 :=
  ofBytes16 [0x30, 0x31, 0x30, 0x32, 0x30, 0x33, 0x30, 0x34,
    0x30, 0x35, 0x30, 0x36, 0x30, 0x37, 0x30, 0x38]

/-- The digits, upper-case and lower-case letters of `ALNUM`, R5 R150. -/
def isAlnum (b : Byte) : Bool :=
  (0x30 ≤ b.toNat && b.toNat ≤ 0x39) || (0x41 ≤ b.toNat && b.toNat ≤ 0x5a) ||
    (0x61 ≤ b.toNat && b.toNat ≤ 0x7a)

/-- The symbols of `ALNUM` in a fixed order, R150 (no rule needs an order). -/
def alnumByte (i : Fin 62) : Byte :=
  if i.val < 10 then BitVec.ofNat 8 (0x30 + i.val)
  else if i.val < 36 then BitVec.ofNat 8 (0x41 + (i.val - 10))
  else BitVec.ofNat 8 (0x61 + (i.val - 36))

/-- `HEXDIGIT`, lowercase, R25. -/
def hexDigit (d : Nat) : Byte :=
  if d < 10 then BitVec.ofNat 8 (0x30 + d) else BitVec.ofNat 8 (0x61 + (d - 10))

/-- `ESKHEX[i]` as a function of `ESK`, R25 R105: digit 0 is the most significant. -/
def hexByte (v : Wide) (i : Nat) : Byte := hexDigit (v.toNat / 16 ^ (255 - i) % 16)

/-- `hex256(v)`, R105. -/
def hex256 (v : Wide) : List Byte := (List.range 256).map (hexByte v)

/-- `B64ALPHA`, R134. -/
def b64Char (d : Nat) : Byte :=
  if d < 26 then BitVec.ofNat 8 (0x41 + d)
  else if d < 52 then BitVec.ofNat 8 (0x61 + (d - 26))
  else if d < 62 then BitVec.ofNat 8 (0x30 + (d - 52))
  else if d = 62 then 0x2b
  else 0x2f

end Sys2Proof.Machine
end

