-- ==== Sys2Proof/Config.lean ====
section
/-! DEFINITION. The OPEN parameters of the block (00_scope.md R5, 92_eei_decisions.md section 6) as
one record whose every value is legal by construction, and the free values of the model. -/

namespace Sys2Proof

/-- The build parameters of one device, R5. Each field ranges over exactly the legal values, so
that no claim needs a hypothesis on them; no step changes them (DESIGN CHOICE, log 3). -/
structure Config where
  /-- The low 1023 bits of `N_MODULUS`, whose bit 1023 is 1 because it is a 1024-bit number. -/
  modulusLow : BitVec 1023
  /-- `IBUF_CAP` is `4 * (ibufIdx + 1)`: the multiples of 4 from 4 to 65536. -/
  ibufIdx : Fin 16384
  /-- `OBUF_CAP` is `44 + 4 * obufIdx`: the multiples of 4 from 44 to 65536. -/
  obufIdx : Fin 16374
  /-- `PT_MAX_ALLOC`; `none` is "no limit". -/
  ptMaxAlloc : Option Nat
  deriving DecidableEq, Repr

namespace Config

/-- `N_MODULUS`, R5 R26. -/
def nModulus (c : Config) : Nat := 2 ^ 1023 + c.modulusLow.toNat

/-- `IBUF_CAP` in bytes, R5 R30. -/
def ibufCap (c : Config) : Nat := 4 * (c.ibufIdx.val + 1)

/-- `OBUF_CAP` in bytes, R5 R31. -/
def obufCap (c : Config) : Nat := 44 + 4 * c.obufIdx.val

/-- FREE CONSTANT: the low bits of the modulus the spec never prints (91_not_in_source.md N1).
It has no body, so a claim that holds of it holds of every 1024-bit modulus (DESIGN CHOICE, log 3). -/
opaque modulusFree : BitVec 1023

/-- FREE VALUE: what the byte at a bus address of `IBUF` or `OBUF` holds between a reset and the
first write to it, 10_state.md R44; the first argument counts reset events (DESIGN CHOICE, log 4). -/
opaque unwrittenByte : Nat → Nat → Byte

/-- FREE VALUE: which of the 62 symbols of `ALNUM` the entropy input answers at each draw,
00_scope.md R9, 42_request.md R150; the argument counts draws (DESIGN CHOICE, log 5). -/
opaque drawIndex : Nat → Fin 62

/-- The device `State.reset` stands for: the defaults of R5 (`IBUF_CAP` 4096, `OBUF_CAP` 8192, no
limit on blocks) and a free modulus (DESIGN CHOICE, log 3). -/
def default : Config :=
  { modulusLow := modulusFree, ibufIdx := 1023, obufIdx := 2037, ptMaxAlloc := none }

end Config

end Sys2Proof
end

