-- ==== Sys2Proof/Machine/State.lean ====
section
/-! DEFINITION. The state of the device as plain data (10_state.md R20), the host's actions and the
answers it gets (00_scope.md R10 R12), the reset state (R42), and the reasons a step can stop. -/

namespace Sys2Proof.Machine

/-- The bytes of `IBUF` and `OBUF` that something has written, by bus address (20_memory.md R51):
addresses strictly rising; an address not listed has not been written since reset (R44). -/
abbrev Memory := List Host.Cell

/-- The buffer of one allocated block (10_state.md R38): the bytes that are not 0, by byte index,
strictly rising; an index not listed reads 0. -/
abbrev Block := List Host.Cell

/-- The block store: the allocated slots by block index, strictly rising; an index not listed is
unallocated. The sparse map 10_state.md R38 allows (DESIGN CHOICE, log 8). -/
abbrev BlockStore := List (Nat × Block)

/-- What the host can do (20_memory.md R50 R66 R67, 70_reset_and_hazards.md R220). -/
inductive HostAction where
  /-- `MemRead(addr, 4)` -/
  | memRead (addr : Word)
  /-- `MemWrite(addr, 4, v)`; to `CMD` it issues a command -/
  | memWrite (addr v : Word)
  /-- `SrcSupply(s)` -/
  | srcSupply (bytes : List Byte)
  /-- `SnkTake()` -/
  | snkTake
  /-- the external reset event -/
  | reset
  deriving DecidableEq, Repr

/-- What the host is told (00_scope.md R12). -/
inductive Response where
  /-- the data of an accepted `MemRead` -/
  | data (v : Word)
  /-- an accepted `MemWrite` -/
  | accepted
  /-- a transaction the port refused, 20_memory.md R53 -/
  | busError
  /-- the bytes `SnkTake()` returned -/
  | taken (bytes : List Byte)
  deriving DecidableEq, Repr

/-- The state of the machine. The fields down to `snk` are the spec's; the last five are the
model's own. -/
structure State where
  /-- `ERR`, R32 -/
  err : Word
  /-- `EINFO0`, R33 -/
  einfo0 : Word
  /-- `EINFO1`, R33 -/
  einfo1 : Word
  /-- `EINFO2`, R33 -/
  einfo2 : Word
  /-- `EINFO3`, R33 -/
  einfo3 : Word
  /-- `EINFO4`, R33 -/
  einfo4 : Word
  /-- `RESULT`, R34 -/
  result : DWord
  /-- `ILEN`, R29 -/
  ilen : Word
  /-- `OLEN`, R29 -/
  olen : Word
  /-- `MP_BASE`, R24 -/
  mpBase : Wide
  /-- `MP_EXP`, R24 -/
  mpExp : Wide
  /-- `MP_MOD`, R24 -/
  mpMod : Wide
  /-- `MP_RES`, R24 -/
  mpRes : Wide
  /-- `ESK`, R25 -/
  esk : Wide
  /-- `KEY`, R27 -/
  key : Bytes16
  /-- `AKEY`, R28 -/
  akey : Bytes16
  /-- `AIV`, R28 -/
  aiv : Bytes16
  /-- `IBUF` and `OBUF`, R30 R31 -/
  mem : Memory
  /-- `STATUS.PTRDY`, R23 -/
  ptrdy : Bool
  /-- `PT_LENGTH`, R35 -/
  ptLength : Word
  /-- `PT_SPREFIX`, R35 -/
  ptSprefix : Word
  /-- `PT_ARG`, R36 -/
  ptArg : DWord
  /-- `PT_BCOUNT`, R37 -/
  ptBcount : Word
  /-- `PT_BBYTES`, R37 -/
  ptBbytes : Word
  /-- `PT_BBITS`, R37 -/
  ptBbits : DWord
  /-- `SLOT[..]`, R38 -/
  slots : BlockStore
  /-- `SRC`, R39 -/
  src : List Byte
  /-- `SNK`, R39 -/
  snk : List Byte
  /-- the build parameters of 00_scope.md R5 (DESIGN CHOICE, log 3) -/
  cfg : Config
  /-- how many reset events there have been (DESIGN CHOICE, log 4) -/
  epoch : Nat
  /-- how many entropy draws there have been (DESIGN CHOICE, log 5) -/
  draws : Nat
  /-- the host actions still to come, oldest first (DESIGN CHOICE, log 1) -/
  pending : List HostAction
  /-- the answers the host has received, newest first (DESIGN CHOICE, log 1) -/
  trace : List Response
  deriving DecidableEq, Repr

/-- The model stops with a fault: NEVER. A bus error changes nothing and the device goes on
(20_memory.md R54), a command error is reported in registers (60_exceptions.md R203), and every
command terminates (70_reset_and_hazards.md R234); so there is no constructor (DEDUCED, log 2). -/
inductive Fault where
  deriving DecidableEq, Repr

/-- The model has no meaning for something. -/
inductive Refusal where
  /-- Raised by `exec` for an instruction that has no meaning yet; no arm does. Safe: nothing can be
  proved of what the instruction does. -/
  | notModelled (mnemonic : String)
  deriving DecidableEq, Repr

/-- The reset state of R42, R44, for a device with parameters `cfg`: every element of the spec at
its reset value, no byte of `IBUF` or `OBUF` written. The model's own fields are arguments. -/
def State.atReset (cfg : Config) (epoch draws : Nat) (pending : List HostAction)
    (trace : List Response) : State where
  err := 0
  einfo0 := 0
  einfo1 := 0
  einfo2 := 0
  einfo3 := 0
  einfo4 := 0
  result := 0
  ilen := 0
  olen := 0
  mpBase := 0
  mpExp := 0
  mpMod := 0
  mpRes := 0
  esk := 0
  key := 0
  akey := 0
  aiv := 0
  mem := []
  ptrdy := false
  ptLength := 0
  ptSprefix := 0
  ptArg := 0
  ptBcount := 0
  ptBbytes := 0
  ptBbits := 0
  slots := []
  src := []
  snk := []
  cfg := cfg
  epoch := epoch
  draws := draws
  pending := pending
  trace := trace

/-- The machine right after reset, R42; the device is the one of `Config.default`, and the host has
not acted yet (logs 1, 3, 4, 5). -/
def State.reset : State := State.atReset Config.default 0 0 [] []

end Sys2Proof.Machine
end

