-- ==== Sys2Proof/Machine/Ops.lean ====
section
/-! DEFINITION. The named operations over State: sparse maps in canonical form, the buffers, the
block store, the streams, the entropy input, and the two endings of a command (60_exceptions.md
R203): `State.raise`, which takes a command error, and `State.succeed`. There is no return from an
error, because nothing is entered (R203 R206). -/

namespace Sys2Proof.Machine

/-! ### Sparse maps -/

/-- The value listed for a key. -/
def assocGet {α : Type} : List (Nat × α) → Nat → Option α
  | [], _ => none
  | (k, x) :: r, a => if a = k then some x else assocGet r a

/-- List a value for a key, keeping the keys rising. -/
def assocPut {α : Type} : List (Nat × α) → Nat → α → List (Nat × α)
  | [], a, x => [(a, x)]
  | (k, y) :: r, a, x =>
    if a < k then (a, x) :: (k, y) :: r
    else if a = k then (a, x) :: r
    else (k, y) :: assocPut r a x

/-- Unlist a key. -/
def assocErase {α : Type} (l : List (Nat × α)) (a : Nat) : List (Nat × α) :=
  l.filter fun p => p.1 != a

/-- The canonical form: keys strictly rising. -/
abbrev assocWf {α : Type} (l : List (Nat × α)) : Prop := l.Pairwise fun p q => p.1 < q.1

/-! ### The buffers IBUF and OBUF -/

/-- The bus address of `IBUF[0]`, 20_memory.md R51. -/
def ibufBase : Nat := 0x10000
/-- The bus address of `OBUF[0]`, 20_memory.md R51. -/
def obufBase : Nat := 0x20000

/-- A bus address that lies in `IBUF` or `OBUF`, R51. -/
abbrev inBuffers (c : Config) (a : Nat) : Prop :=
  (ibufBase ≤ a ∧ a < ibufBase + c.ibufCap) ∨ (obufBase ≤ a ∧ a < obufBase + c.obufCap)

/-- What has been written at an address; `none` where nothing has been since reset, R44. -/
def Memory.read (m : Memory) (a : Nat) : Option Byte := assocGet m a

/-- Write one byte. -/
def Memory.write (m : Memory) (a : Nat) (b : Byte) : Memory := assocPut m a b

/-- Write a byte sequence from an address up. -/
def Memory.writeBytes (m : Memory) (a : Nat) : List Byte → Memory
  | [] => m
  | b :: bs => Memory.writeBytes (m.write a b) (a + 1) bs

/-- The canonical form of the memory: addresses strictly rising. An unlisted address reads as "not
written", so no listed entry can equal it. -/
abbrev Memory.wf (m : Memory) : Prop := assocWf m

/-- The byte a buffer address holds: what was written there, else a free value drawn once at
reset, 10_state.md R44 (DESIGN CHOICE, log 4). -/
def State.bufByte (s : State) (a : Nat) : Byte :=
  (s.mem.read a).getD (Config.unwrittenByte s.epoch a)

/-- `IBUF[0..n)`, R30. -/
def State.input (s : State) (n : Nat) : List Byte :=
  (List.range n).map fun i => s.bufByte (ibufBase + i)

/-- `OBUF[0..len(t)) <- t; OLEN <- n`, R31. -/
def State.putOutput (s : State) (t : List Byte) (n : Nat) : State :=
  { s with mem := s.mem.writeBytes obufBase t, olen := BitVec.ofNat 32 n }

/-! ### Block buffers and the block store -/

/-- `buf[i]` of an allocated block, R38: an unlisted byte is 0. -/
def Block.read (b : Block) (i : Nat) : Byte := (assocGet b i).getD 0

/-- `buf[i] <- v`; writing 0 removes the entry. -/
def Block.write (b : Block) (i : Nat) (v : Byte) : Block :=
  if v = 0 then assocErase b i else assocPut b i v

/-- A buffer from the bytes of a stream, wholesale, R184; the first byte goes to index `i`. -/
def Block.ofBytesFrom (i : Nat) : List Byte → Block
  | [] => []
  | x :: xs => if x = 0 then Block.ofBytesFrom (i + 1) xs else (i, x) :: Block.ofBytesFrom (i + 1) xs

/-- A buffer from the bytes of a stream, R184. -/
def Block.ofBytes (d : List Byte) : Block := Block.ofBytesFrom 0 d

/-- The `n` bytes of a buffer in buffer order, R182. -/
def Block.toBytes (b : Block) (n : Nat) : List Byte := (List.range n).map b.read

/-- The canonical form of a block buffer of `n` bytes. -/
abbrev Block.wf (n : Nat) (b : Block) : Prop :=
  assocWf b ∧ ∀ p ∈ b, p.2 ≠ 0 ∧ p.1 < n

/-- `SLOT[blk]`: `none` when unallocated, R38. -/
def State.slot (s : State) (blk : Nat) : Option Block := assocGet s.slots blk

/-- `SLOT[blk] <- b`, R163 R184. -/
def State.setSlot (s : State) (blk : Nat) (b : Block) : State :=
  { s with slots := assocPut s.slots blk b }

/-- `SLOT[blk] <- unallocated`, R184 (conflict C1). -/
def State.clearSlot (s : State) (blk : Nat) : State :=
  { s with slots := assocErase s.slots blk }

/-- The canonical form of the block store of `count` slots of `n` bytes. -/
abbrev BlockStore.wf (count n : Nat) (st : BlockStore) : Prop :=
  assocWf st ∧ ∀ p ∈ st, p.1 < count ∧ Block.wf n p.2

/-- `PT_NALLOC`, a view of the slots, R37. -/
def State.nalloc (s : State) : Nat := s.slots.length

/-- Whether one more block may be allocated: not `PT_NALLOC >= PT_MAX_ALLOC`, R163. -/
def State.roomForBlock (s : State) : Bool :=
  match s.cfg.ptMaxAlloc with
  | none => true
  | some m => decide (s.nalloc < m)

/-! ### Command errors -/

/-- A command error with the information its `raise` carries, 60_exceptions.md R201 R202 R210. -/
inductive CmdError where
  /-- `ILLCMD`: the word written to `CMD` -/
  | illcmd (w : Word)
  /-- `MODZERO` -/
  | modzero
  /-- `LEN(n, r)` -/
  | len (n r : Nat)
  /-- `STATE` -/
  | state
  /-- `SHAPE` -/
  | shape
  /-- `RANGE` -/
  | range
  /-- `SER`, SHAPE: the pair read from the stream -/
  | serShape (bc bb : Nat)
  /-- `SER`, TRUNC -/
  | serTrunc (blk expected received phase : Nat)
  /-- `SER`, BADFLAG -/
  | serBadflag (blk : Nat) (flag : Byte)
  /-- `NOMEM` -/
  | nomem (blk : Nat)
  deriving DecidableEq, Repr

/-- The code `ERR` holds, R201. -/
def CmdError.code : CmdError → Word
  | .illcmd _ => 1
  | .modzero => 2
  | .len _ _ => 3
  | .state => 4
  | .shape => 5
  | .range => 6
  | .serShape _ _ => 7
  | .serTrunc _ _ _ _ => 7
  | .serBadflag _ _ => 7
  | .nomem _ => 8

/-- The row of R202 for an error met in a state: `EINFO0`, `EINFO1`, …; a register beyond the end
of the row is 0. -/
def CmdError.info (s : State) : CmdError → List Word
  | .illcmd w => [w]
  | .modzero => []
  | .len n r =>
    [BitVec.ofNat 32 n, BitVec.ofNat 32 r, BitVec.ofNat 32 s.cfg.ibufCap,
      BitVec.ofNat 32 s.cfg.obufCap]
  | .state => [if s.ptrdy then 1 else 0]
  | .shape => [s.ptLength, s.ptSprefix]
  | .range => [wordOf s.ptArg 0, wordOf s.ptArg 1]
  | .serShape bc bb => [1, s.ptBcount, s.ptBbytes, BitVec.ofNat 32 bc, BitVec.ofNat 32 bb]
  | .serTrunc blk expected received phase =>
    [2, BitVec.ofNat 32 blk, BitVec.ofNat 32 expected, BitVec.ofNat 32 received,
      BitVec.ofNat 32 phase]
  | .serBadflag blk flag => [3, BitVec.ofNat 32 blk, flag.setWidth 32]
  | .nomem blk => [0, BitVec.ofNat 32 blk]

/-- `ERR` and `EINFO0..4` all at once. -/
def State.setReport (s : State) (code : Word) (info : List Word) : State :=
  { s with
    err := code
    einfo0 := info.getD 0 0
    einfo1 := info.getD 1 0
    einfo2 := info.getD 2 0
    einfo3 := info.getD 3 0
    einfo4 := info.getD 4 0 }

/-- `raise E(info)`, R203: taking a command error. State written before stays written (R204). -/
def State.raise (s : State) (e : CmdError) : State := s.setReport e.code (e.info s)

/-- The success ending of R203. -/
def State.succeed (s : State) : State := s.setReport 0 []

/-! ### Allocation -/

/-- `allocate(blk)`, R163: an allocated slot is left exactly as it is; a new buffer is all 0. -/
def State.allocate (s : State) (blk : Nat) : Except CmdError State :=
  match s.slot blk with
  | some _ => .ok s
  | none => if s.roomForBlock then .ok (s.setSlot blk []) else .error (.nomem blk)

/-! ### Streams and entropy -/

/-- `SrcRead(n)`, R8 R66: up to `n` bytes from the front. -/
def State.srcRead (s : State) (n : Nat) : List Byte × State :=
  (s.src.take n, { s with src := s.src.drop n })

/-- `SnkWrite(t)`, R8 R67. -/
def State.snkWrite (s : State) (t : List Byte) : State := { s with snk := s.snk ++ t }

/-- One `Draw(ALNUM)`, R9 R68: a free symbol of `ALNUM` (DESIGN CHOICE, log 5). -/
def drawByte (n : Nat) : Byte := alnumByte (Config.drawIndex n)

/-- `genKey()`, R150: sixteen draws, from the `n`th on. -/
def genKey (n : Nat) : Bytes16 := ofBytes16 ((List.range 16).map fun j => drawByte (n + j))

/-- `KEY[0..16) <- genKey()`, R150 R151: sixteen fresh draws. -/
def State.drawKey (s : State) : State :=
  { s with key := genKey s.draws, draws := s.draws + 16 }

/-- Tell the host the answer to its action, 00_scope.md R12. -/
def State.respond (s : State) (r : Response) : State := { s with trace := r :: s.trace }

/-- The reset event, 70_reset_and_hazards.md R220: the whole state becomes that of R42. The
parameters stay (they are not state, R41), the unwritten buffer bytes are drawn anew, the entropy
input does not repeat itself, and the host keeps its own actions and answers (logs 4, 5, 6). -/
def State.resetEvent (s : State) : State :=
  State.atReset s.cfg (s.epoch + 1) s.draws s.pending s.trace

end Sys2Proof.Machine
end

