-- ==== Sys2Proof/Machine/Flags.lean ====
section
/-! DEFINITION. The flags of the block and the word they are read in (10_state.md R23): `PTRDY` is
stored, `ERRF` is a view of `ERR` (R43, log 9). The allocated flag of a slot is `State.slot` (R38). -/

namespace Sys2Proof.Machine

/-- `STATUS.ERRF`: the most recent command ended with an error, always `ERR != 0`, R23. -/
def State.errf (s : State) : Bool := s.err != 0

/-- `STATUS`: bit 0 `PTRDY`, bit 1 `ERRF`, bits 31:2 read as 0, R23. -/
def State.statusWord (s : State) : Word :=
  (if s.ptrdy then 1 else 0) + (if s.errf then 2 else 0)

/-- Whether `SLOT[blk]` is allocated, R38. -/
def State.allocated (s : State) (blk : Nat) : Bool := (s.slot blk).isSome

/-- One bit of the block store as an id's lookup sees it: bit `mask` of byte `by` of block `blk`,
absent when the block is unallocated, 43_presence.md R162 R166. -/
def State.slotBit (s : State) (blk by_ : Nat) (mask : Byte) : Bool :=
  match s.slot blk with
  | none => false
  | some b => b.read by_ &&& mask != 0

end Sys2Proof.Machine
end

