-- ==== Sys2Proof/Machine/Presence.lean ====
section
/-! DEFINITION. The presence-table unit, part 1: PTINIT, PTALLOC, PTTEST, PTSET, PTTAS
(43_presence.md). -/

namespace Sys2Proof.Machine

/-- `legalShape(L, S)`, R160. -/
def legalShape (L S : Nat) : Bool := decide (S ≤ 4 ∧ S ≤ L ∧ L - S ≤ 10)

/-- `blockCount`, R160. -/
def blockCount (S : Nat) : Nat := 10 ^ S

/-- `blockEffectiveBits`, R160. -/
def blockBits (L S : Nat) : Nat := 10 ^ (L - S)

/-- `blockByteSize`, R160. -/
def blockByteSize (L S : Nat) : Nat := (10 ^ (L - S) + 7) / 8

/-- PTINIT, R161. -/
def execPtinit (s : State) : Host.Outcome State Fault Refusal :=
  let L := s.ptLength.toNat
  let S := s.ptSprefix.toNat
  .next <|
    if s.ptrdy then s.raise .state
    else if legalShape L S then
      State.succeed
        { s with
          ptBcount := BitVec.ofNat 32 (blockCount S)
          ptBbits := BitVec.ofNat 64 (blockBits L S)
          ptBbytes := BitVec.ofNat 32 (blockByteSize L S)
          slots := []
          ptrdy := true }
    else s.raise .shape

/-- Where an id's bit stands: block, byte and mask, R162. -/
structure BitPlace where
  blk : Nat
  byteIdx : Nat
  mask : Byte
  deriving DecidableEq, Repr

/-- `locate(id)` in a table with `bbits` bits a block, R162. -/
def locate (bbits id : Nat) : BitPlace where
  blk := id / bbits
  byteIdx := id % bbits / 8
  mask := BitVec.ofNat 8 (2 ^ (7 - id % bbits % 8))

/-- `locate(PT_ARG)` in this table, R162. -/
def State.place (s : State) : BitPlace := locate s.ptBbits.toNat s.ptArg.toNat

/-- An id below `PT_BCOUNT * PT_BBITS`, R166. -/
def State.idInRange (s : State) : Bool :=
  decide (s.ptArg.toNat < s.ptBcount.toNat * s.ptBbits.toNat)

/-- The tested bit of an id, absent in an unallocated block, R162 R166. -/
def State.present (s : State) (p : BitPlace) : Bool := s.slotBit p.blk p.byteIdx p.mask

/-- `setbit(SLOT[blk], by, mask)`, R162; the slot has been allocated before. -/
def State.setBit (s : State) (p : BitPlace) : State :=
  match s.slot p.blk with
  | none => s
  | some b => s.setSlot p.blk (Block.write b p.byteIdx (b.read p.byteIdx ||| p.mask))

/-- `allocate(blk)` and then `setbit`, R167 R168. -/
def State.allocateAndSet (s : State) (p : BitPlace) : Except CmdError State :=
  match s.allocate p.blk with
  | .error e => .error e
  | .ok t => .ok (t.setBit p)

/-- `RESULT <- 0` or `1`, R34. -/
def State.putBool (s : State) (b : Bool) : State := { s with result := if b then 1 else 0 }

/-- The checks every id command makes before it runs, in the order of R205: the table exists, the
id is in range. -/
def State.idCheck (s : State) : Option CmdError :=
  if !s.ptrdy then some .state
  else if !s.idInRange then some .range
  else none

/-- PTALLOC, R165. -/
def execPtalloc (s : State) : Host.Outcome State Fault Refusal :=
  .next <|
    if !s.ptrdy then s.raise .state
    else if s.ptBcount.toNat ≤ s.ptArg.toNat then s.raise .range
    else
      match s.allocate s.ptArg.toNat with
      | .error e => s.raise e
      | .ok t => t.succeed

/-- PTTEST, R166. -/
def execPttest (s : State) : Host.Outcome State Fault Refusal :=
  .next <|
    match s.idCheck with
    | some e => s.raise e
    | none => (s.putBool (s.present s.place)).succeed

/-- PTSET, R167. -/
def execPtset (s : State) : Host.Outcome State Fault Refusal :=
  .next <|
    match s.idCheck with
    | some e => s.raise e
    | none =>
      match s.allocateAndSet s.place with
      | .error e => s.raise e
      | .ok t => t.succeed

/-- PTTAS, R168: the prior bit is read first; the block is always allocated. -/
def execPttas (s : State) : Host.Outcome State Fault Refusal :=
  .next <|
    match s.idCheck with
    | some e => s.raise e
    | none =>
      match s.allocateAndSet s.place with
      | .error e => s.raise e
      | .ok t => (t.putBool (s.present s.place)).succeed

end Sys2Proof.Machine
end

