-- ==== Sys2Proof/Machine/Modexp.lean ====
section
/-! DEFINITION. The modexp unit: MODPOW and ENCKEY (40_modexp.md). -/

namespace Sys2Proof.Machine

/-- The loop that collects an exponent's bits, least significant first, R100 step 1; the first
argument bounds the number of turns. -/
def bitsUpTo : Nat → Nat → List Bool
  | 0, _ => []
  | n + 1, t => if t = 0 then [] else (t % 2 == 1) :: bitsUpTo n (t / 2)

/-- The significant bits of an exponent, least significant first, R100 step 1. -/
def expBits (e : Nat) : List Bool := bitsUpTo (e.log2 + 1) e

/-- One turn of the second loop: square, then multiply when the bit is 1, R100 step 2. -/
def squareMultiply (b m acc : Nat) (bit : Bool) : Nat :=
  if bit then acc * acc % m * b % m else acc * acc % m

/-- `modPow(b, e, m)`: left-to-right binary exponentiation, R100. -/
def modPow (b e m : Nat) : Nat := (expBits e).reverse.foldl (squareMultiply b m) 1 % m

/-- `encryptKey(k)`: reverse the key, read it big-endian, raise it to the public exponent, R104. -/
def encryptKey (c : Config) (k : Bytes16) : Nat :=
  modPow (beInt (bytes16 k).reverse) ePub c.nModulus

/-- MODPOW, R103. -/
def execModpow (s : State) : Host.Outcome State Fault Refusal :=
  .next <|
    if s.mpMod = 0 then s.raise .modzero
    else
      State.succeed
        { s with mpRes := BitVec.ofNat 1024 (modPow s.mpBase.toNat s.mpExp.toNat s.mpMod.toNat) }

/-- `ESK <- encryptKey(KEY[0..16))`, R106 R152. -/
def State.encodeKey (s : State) : State :=
  { s with esk := BitVec.ofNat 1024 (encryptKey s.cfg s.key) }

/-- ENCKEY, R106. -/
def execEnckey (s : State) : Host.Outcome State Fault Refusal := .next s.encodeKey.succeed

end Sys2Proof.Machine
end

