-- ==== Sys2Proof/Machine/Aes.lean ====
section
/-! DEFINITION. AES-128, encryption only (41_symmetric.md R121 to R131). A block is sixteen bytes,
byte `i` at row `i mod 4`, column `i div 4` (R124). -/

namespace Sys2Proof.Machine

/-- Multiplication by x in GF(2^8), R122. -/
def xtime (a : Byte) : Byte :=
  if 0x80 ≤ a.toNat then BitVec.ofNat 8 ((2 * a.toNat) ^^^ 0x11B) else BitVec.ofNat 8 (2 * a.toNat)

/-- `mul2`, R122. -/
def mul2 (a : Byte) : Byte := xtime a

/-- `mul3`, R122. -/
def mul3 (a : Byte) : Byte := xtime a ^^^ a

/-- The S-box table, row = high hex digit, column = low hex digit, R123. -/
def sboxRows : List (List Nat) :=
  [[0x63, 0x7c, 0x77, 0x7b, 0xf2, 0x6b, 0x6f, 0xc5,
    0x30, 0x01, 0x67, 0x2b, 0xfe, 0xd7, 0xab, 0x76],
   [0xca, 0x82, 0xc9, 0x7d, 0xfa, 0x59, 0x47, 0xf0,
    0xad, 0xd4, 0xa2, 0xaf, 0x9c, 0xa4, 0x72, 0xc0],
   [0xb7, 0xfd, 0x93, 0x26, 0x36, 0x3f, 0xf7, 0xcc,
    0x34, 0xa5, 0xe5, 0xf1, 0x71, 0xd8, 0x31, 0x15],
   [0x04, 0xc7, 0x23, 0xc3, 0x18, 0x96, 0x05, 0x9a,
    0x07, 0x12, 0x80, 0xe2, 0xeb, 0x27, 0xb2, 0x75],
   [0x09, 0x83, 0x2c, 0x1a, 0x1b, 0x6e, 0x5a, 0xa0,
    0x52, 0x3b, 0xd6, 0xb3, 0x29, 0xe3, 0x2f, 0x84],
   [0x53, 0xd1, 0x00, 0xed, 0x20, 0xfc, 0xb1, 0x5b,
    0x6a, 0xcb, 0xbe, 0x39, 0x4a, 0x4c, 0x58, 0xcf],
   [0xd0, 0xef, 0xaa, 0xfb, 0x43, 0x4d, 0x33, 0x85,
    0x45, 0xf9, 0x02, 0x7f, 0x50, 0x3c, 0x9f, 0xa8],
   [0x51, 0xa3, 0x40, 0x8f, 0x92, 0x9d, 0x38, 0xf5,
    0xbc, 0xb6, 0xda, 0x21, 0x10, 0xff, 0xf3, 0xd2],
   [0xcd, 0x0c, 0x13, 0xec, 0x5f, 0x97, 0x44, 0x17,
    0xc4, 0xa7, 0x7e, 0x3d, 0x64, 0x5d, 0x19, 0x73],
   [0x60, 0x81, 0x4f, 0xdc, 0x22, 0x2a, 0x90, 0x88,
    0x46, 0xee, 0xb8, 0x14, 0xde, 0x5e, 0x0b, 0xdb],
   [0xe0, 0x32, 0x3a, 0x0a, 0x49, 0x06, 0x24, 0x5c,
    0xc2, 0xd3, 0xac, 0x62, 0x91, 0x95, 0xe4, 0x79],
   [0xe7, 0xc8, 0x37, 0x6d, 0x8d, 0xd5, 0x4e, 0xa9,
    0x6c, 0x56, 0xf4, 0xea, 0x65, 0x7a, 0xae, 0x08],
   [0xba, 0x78, 0x25, 0x2e, 0x1c, 0xa6, 0xb4, 0xc6,
    0xe8, 0xdd, 0x74, 0x1f, 0x4b, 0xbd, 0x8b, 0x8a],
   [0x70, 0x3e, 0xb5, 0x66, 0x48, 0x03, 0xf6, 0x0e,
    0x61, 0x35, 0x57, 0xb9, 0x86, 0xc1, 0x1d, 0x9e],
   [0xe1, 0xf8, 0x98, 0x11, 0x69, 0xd9, 0x8e, 0x94,
    0x9b, 0x1e, 0x87, 0xe9, 0xce, 0x55, 0x28, 0xdf],
   [0x8c, 0xa1, 0x89, 0x0d, 0xbf, 0xe6, 0x42, 0x68,
    0x41, 0x99, 0x2d, 0x0f, 0xb0, 0x54, 0xbb, 0x16]]

/-- `SBOX[a]`, R123. -/
def sbox (a : Byte) : Byte :=
  BitVec.ofNat 8 ((sboxRows.getD (a.toNat / 16) []).getD (a.toNat % 16) 0)

/-- The product of two bytes in GF(2^8), bit by bit of the second from bit 7 down, R122. -/
def gfMul (a b : Byte) : Byte :=
  [7, 6, 5, 4, 3, 2, 1, 0].foldl
    (fun acc i => if b.getLsbD i then xtime acc ^^^ a else xtime acc) 0

/-- The multiplicative inverse in GF(2^8), 0 for 0, R123: as the 254th power,
`254 = 2 + 4 + 8 + 16 + 32 + 64 + 128`, by repeated squaring. -/
def gfInv (a : Byte) : Byte :=
  let a2 := gfMul a a
  ((List.range 6).foldl
    (fun (p : Byte × Byte) _ => (gfMul p.1 (gfMul p.2 p.2), gfMul p.2 p.2)) (a2, a2)).1

/-- The S-box by its construction, R123: the table must agree with it. -/
def sboxByRule (a : Byte) : Byte :=
  let b := gfInv a
  b ^^^ b.rotateLeft 1 ^^^ b.rotateLeft 2 ^^^ b.rotateLeft 3 ^^^ b.rotateLeft 4 ^^^ 0x63

/-- A block from its bytes `f 0` to `f 15`, R124. -/
def blockOf (f : Nat → Byte) : Bytes16 := ofBytes16 ((List.range 16).map f)

/-- SubBytes, R125. -/
def subBytes (s : Bytes16) : Bytes16 := blockOf fun i => sbox (byteOf s i)

/-- ShiftRows, R126: `s'[r + 4c] = s[r + 4*((c + r) mod 4)]`. -/
def shiftRows (s : Bytes16) : Bytes16 :=
  blockOf fun i => byteOf s (i % 4 + 4 * ((i / 4 + i % 4) % 4))

/-- Row `r` of a mixed column `a0 a1 a2 a3`, R127. -/
def mixRow (a0 a1 a2 a3 : Byte) : Nat → Byte
  | 0 => mul2 a0 ^^^ mul3 a1 ^^^ a2 ^^^ a3
  | 1 => a0 ^^^ mul2 a1 ^^^ mul3 a2 ^^^ a3
  | 2 => a0 ^^^ a1 ^^^ mul2 a2 ^^^ mul3 a3
  | _ => mul3 a0 ^^^ a1 ^^^ a2 ^^^ mul2 a3

/-- MixColumns, R127. -/
def mixColumns (s : Bytes16) : Bytes16 :=
  blockOf fun i =>
    let c := 4 * (i / 4)
    mixRow (byteOf s c) (byteOf s (c + 1)) (byteOf s (c + 2)) (byteOf s (c + 3)) (i % 4)

/-- AddRoundKey, R128. -/
def addRoundKey (s rk : Bytes16) : Bytes16 := s ^^^ rk

/-- `RCON[1..10]`, R129. -/
def rcon (i : Nat) : Byte :=
  [0x00, 0x01, 0x02, 0x04, 0x08, 0x10, 0x20, 0x40, 0x80, 0x1b, 0x36].getD i 0

/-- The key schedule's core on one word: rotate left by one byte, substitute, xor the round constant
into the first byte, R129. A word's byte 0 is its bits 7:0. -/
def scheduleCore (t : Word) (i : Nat) : Word :=
  lanes (fun j => if j = 0 then sbox (byteOf t 1) ^^^ rcon i else sbox (byteOf t ((j + 1) % 4))) 0

/-- One turn of the loop of R129: the words made so far, newest first, and one more in front. -/
def expandStep (ws : List Word) : List Word :=
  let i := ws.length
  let t := ws.getD 0 0
  let t' := if i % 4 = 0 then scheduleCore t (i / 4) else t
  (ws.getD 3 0 ^^^ t') :: ws

/-- The words `w[0..43]` of a key, R129. -/
def keyWords (k : Bytes16) : List Word :=
  ((List.range 40).foldl (fun ws _ => expandStep ws)
    [wordOf k 3, wordOf k 2, wordOf k 1, wordOf k 0]).reverse

/-- Round key `r` out of the words: `w[4r] ++ w[4r+1] ++ w[4r+2] ++ w[4r+3]`, R129. -/
def roundKey (ws : List Word) (r : Nat) : Bytes16 :=
  ws.getD (4 * r + 3) 0 ++ ws.getD (4 * r + 2) 0 ++ ws.getD (4 * r + 1) 0 ++ ws.getD (4 * r) 0

/-- A round before the last, R130. -/
def aesRound (ws : List Word) (s : Bytes16) (r : Nat) : Bytes16 :=
  addRoundKey (mixColumns (shiftRows (subBytes s))) (roundKey ws r)

/-- `Aes128(k, x)`, R130: the last round has no MixColumns. -/
def aes128 (k x : Bytes16) : Bytes16 :=
  let ws := keyWords k
  let s := [1, 2, 3, 4, 5, 6, 7, 8, 9].foldl (aesRound ws) (addRoundKey x (roundKey ws 0))
  addRoundKey (shiftRows (subBytes s)) (roundKey ws 10)

end Sys2Proof.Machine
end

