-- ==== Sys2Proof/Machine/Symmetric.lean ====
section
/-! DEFINITION. The symmetric unit: padding, CBC, base64, the LEN check, AESCBC and DBLENC
(41_symmetric.md R120, R132 to R138). -/

namespace Sys2Proof.Machine

/-- `pad(d)`, R120. -/
def pad (d : List Byte) : List Byte :=
  let padLen := 16 - d.length % 16
  d ++ List.replicate padLen (BitVec.ofNat 8 padLen)

/-- The blocks `P[i] = p[16i .. 16i+16)` of a sequence, R132. -/
def toBlocks (p : List Byte) : List Bytes16 :=
  (List.range (p.length / 16)).map fun i => ofBytes16 ((p.drop (16 * i)).take 16)

/-- The chain `C[i] <- Aes128(k, P[i] xor C[i-1])`, R132; the second argument is `C[i-1]`. -/
def cbcChain (k : Bytes16) : Bytes16 → List Bytes16 → List Bytes16
  | _, [] => []
  | c, p :: ps => aes128 k (p ^^^ c) :: cbcChain k (aes128 k (p ^^^ c)) ps

/-- `CbcEncrypt(k, v, p)`, R132. -/
def cbcEncrypt (k v : Bytes16) (p : List Byte) : List Byte :=
  (cbcChain k v (toBlocks p)).flatMap bytes16

/-- `aesCbcEncrypt(d, k, v)`, R133. -/
def aesCbcEncrypt (d : List Byte) (k v : Bytes16) : List Byte := cbcEncrypt k v (pad d)

/-- The four characters of a 24-bit group, R134. -/
def b64Quad (v : Nat) : List Byte :=
  [b64Char (v / 2 ^ 18 % 64), b64Char (v / 2 ^ 12 % 64), b64Char (v / 2 ^ 6 % 64), b64Char (v % 64)]

/-- `b64(d)`, R134: groups of three bytes, the last one filled up with `=` (hex 3d). -/
def b64 : List Byte → List Byte
  | [] => []
  | [a] => (b64Quad (beInt [a, 0, 0])).take 2 ++ [0x3d, 0x3d]
  | [a, b] => (b64Quad (beInt [a, b, 0])).take 3 ++ [0x3d]
  | a :: b :: c :: rest => b64Quad (beInt [a, b, c]) ++ b64 rest

/-- `doubleEncrypt(p, k)`, R137: the fixed key first, then the session key, base64 after each. -/
def doubleEncrypt (p : List Byte) (k : Bytes16) : List Byte :=
  b64 (aesCbcEncrypt (b64 (aesCbcEncrypt p nonce fixedIv)) k fixedIv)

/-- `clen(n)`, R135. -/
def clen (n : Nat) : Nat := 16 * (n / 16 + 1)

/-- `blen(n)`, R134 R135. -/
def blen (n : Nat) : Nat := 4 * ((n + 2) / 3)

/-- `dlen(n)`, R135. -/
def dlen (n : Nat) : Nat := blen (clen (blen (clen n)))

/-- The LEN check of a command whose output length for an input of `n` bytes is `L n`, R135: the
input's own capacity first (R205). -/
def State.lenCheck (s : State) (L : Nat → Nat) : Option CmdError :=
  let n := s.ilen.toNat
  if s.cfg.ibufCap < n then some (.len n 0)
  else if s.cfg.obufCap < L n then some (.len n (L n))
  else none

/-- AESCBC, R136. -/
def execAescbc (s : State) : Host.Outcome State Fault Refusal :=
  let n := s.ilen.toNat
  .next <|
    match s.lenCheck clen with
    | some e => s.raise e
    | none => (s.putOutput (aesCbcEncrypt (s.input n) s.akey s.aiv) (clen n)).succeed

/-- `OBUF, OLEN <- doubleEncrypt(IBUF[0..n), KEY[0..16))`, R138 R152. -/
def State.encryptInput (s : State) (n : Nat) : State :=
  s.putOutput (doubleEncrypt (s.input n) s.key) (dlen n)

/-- DBLENC, R138. -/
def execDblenc (s : State) : Host.Outcome State Fault Refusal :=
  .next <|
    match s.lenCheck dlen with
    | some e => s.raise e
    | none => (s.encryptInput s.ilen.toNat).succeed

end Sys2Proof.Machine
end

