-- ==== Sys2Proof/Machine/Request.lean ====
section
/-! DEFINITION. The request sequencer: KEYGEN and ENCRYPT (42_request.md). -/

namespace Sys2Proof.Machine

/-- KEYGEN, R151. -/
def execKeygen (s : State) : Host.Outcome State Fault Refusal := .next s.drawKey.succeed

/-- ENCRYPT, R152: the LEN check stands before the draw, so a failing command draws no key. -/
def execEncrypt (g : Bool) (s : State) : Host.Outcome State Fault Refusal :=
  .next <|
    match s.lenCheck dlen with
    | some e => s.raise e
    | none =>
      let t := if g then s.drawKey else s
      ((t.encryptInput s.ilen.toNat).encodeKey).succeed

end Sys2Proof.Machine
end

