-- ==== Sys2Proof/Machine/Serial.lean ====
section
/-! DEFINITION. The presence-table unit, part 2, the binary image: PTDUMP and PTLOAD
(44_presence_serial.md). -/

namespace Sys2Proof.Machine

/-- The 6-byte header, R181. -/
def imageHeader (bcount bbytes : Nat) : List Byte := beBytes 2 bcount ++ beBytes 4 bbytes

/-- A block record: the flag byte, and the buffer of an allocated block, R182. -/
def blockRecord (bbytes : Nat) : Option Block → List Byte
  | none => [0x00]
  | some b => 0x01 :: b.toBytes bbytes

/-- The image of the table, R180. -/
def State.image (s : State) : List Byte :=
  imageHeader s.ptBcount.toNat s.ptBbytes.toNat ++
    (List.range s.ptBcount.toNat).flatMap fun i => blockRecord s.ptBbytes.toNat (s.slot i)

/-- The count of block-content bytes of the image, R183. -/
def State.imageContent (s : State) : Nat :=
  (((List.range s.ptBcount.toNat).filter s.allocated).length) * s.ptBbytes.toNat

/-- `RESULT <- count`, R34 R183 R184. -/
def State.putCount (s : State) (count : Nat) : State := { s with result := BitVec.ofNat 64 count }

/-- PTDUMP, R183. -/
def execPtdump (s : State) : Host.Outcome State Fault Refusal :=
  .next <|
    if !s.ptrdy then s.raise .state
    else ((s.snkWrite s.image).putCount s.imageContent).succeed

/-- Reading the record of block `i`, R184: the state with the slot assigned and the bytes consumed,
and how many content bytes there were; or the error, and the state it leaves (R185). -/
def State.loadRecord (s : State) (i : Nat) : Except (State × CmdError) (State × Nat) :=
  let bbytes := s.ptBbytes.toNat
  let (f, s1) := s.srcRead 1
  match f with
  | [] => .error (s1, .serTrunc i 1 0 1)
  | flag :: _ =>
    if flag = 0x00 then .ok (s1.clearSlot i, 0)
    else if flag = 0x01 then
      let (d, s2) := s1.srcRead bbytes
      if d.length < bbytes then .error (s2, .serTrunc i bbytes d.length 2)
      else if !s2.allocated i && !s2.roomForBlock then .error (s2, .nomem i)
      else .ok (s2.setSlot i (Block.ofBytes d), bbytes)
    else .error (s1, .serBadflag i flag)

/-- The loop of R184 over `n` records from index `i`, with the content bytes counted so far. -/
def State.loadRecords : Nat → Nat → Nat → State → Except (State × CmdError) (State × Nat)
  | 0, _, count, s => .ok (s, count)
  | n + 1, i, count, s =>
    match s.loadRecord i with
    | .error e => .error e
    | .ok (t, c) => State.loadRecords n (i + 1) (count + c) t

/-- The header's part of R184: read and compare, then the loop. -/
def State.load (s : State) : Except (State × CmdError) (State × Nat) :=
  let (h, s1) := s.srcRead 6
  if h.length < 6 then .error (s1, .serTrunc 0xFFFFFFFF 6 h.length 0)
  else
    let bc := beInt (h.take 2)
    let bb := beInt (h.drop 2)
    if bc ≠ s.ptBcount.toNat ∨ bb ≠ s.ptBbytes.toNat then .error (s1, .serShape bc bb)
    else State.loadRecords s.ptBcount.toNat 0 0 s1

/-- PTLOAD, R184; what a failure has consumed and assigned stays (R185). -/
def execPtload (s : State) : Host.Outcome State Fault Refusal :=
  .next <|
    if !s.ptrdy then s.raise .state
    else
      match s.load with
      | .error (t, e) => t.raise e
      | .ok (t, count) => (t.putCount count).succeed

end Sys2Proof.Machine
end

