-- ==== Sys2Proof/Machine/Dispatch.lean ====
section
/-! DEFINITION. One arm for each command of 30_encoding.md R84, one direct call of its meaning. -/

namespace Sys2Proof.Machine

def exec (i : Instr) (s : State) : Host.Outcome State Fault Refusal :=
  match i with
  | .modpow => Sys2Proof.Machine.execModpow s
  | .enckey => Sys2Proof.Machine.execEnckey s
  | .aescbc => Sys2Proof.Machine.execAescbc s
  | .dblenc => Sys2Proof.Machine.execDblenc s
  | .keygen => Sys2Proof.Machine.execKeygen s
  | .encrypt g => Sys2Proof.Machine.execEncrypt g s
  | .ptinit => Sys2Proof.Machine.execPtinit s
  | .ptalloc => Sys2Proof.Machine.execPtalloc s
  | .pttest => Sys2Proof.Machine.execPttest s
  | .ptset => Sys2Proof.Machine.execPtset s
  | .pttas => Sys2Proof.Machine.execPttas s
  | .ptdump => Sys2Proof.Machine.execPtdump s
  | .ptload => Sys2Proof.Machine.execPtload s

end Sys2Proof.Machine
end

