-- ==== Sys2Proof/Machine/Operands.lean ====
section
/-! DEFINITION. Operand forms. Commands name their operands implicitly (30_encoding.md R83), so the
only addressed operands are the host port's: the address map of 20_memory.md R51, and the read and
the write of each element it lists (R53 to R59). -/

namespace Sys2Proof.Machine

/-- A location of the address map, R51; an index counts the 32-bit words of the element. -/
inductive Loc where
  | cmd | status | err | resultLo | resultHi
  | einfo0 | einfo1 | einfo2 | einfo3 | einfo4
  | ilen | olen | ptLength | ptSprefix | ptArgLo | ptArgHi
  | ptBcount | ptBbytes | ptBbitsLo | ptBbitsHi | ptNalloc | exponent
  | key (j : Nat) | akey (j : Nat) | aiv (j : Nat) | nonce (j : Nat) | iv (j : Nat)
  | mpBase (k : Nat) | mpExp (k : Nat) | mpMod (k : Nat) | mpRes (k : Nat)
  | esk (k : Nat) | modulus (k : Nat) | eskhex (j : Nat)
  | ibuf (j : Nat) | obuf (j : Nat)
  deriving DecidableEq, Repr

/-- The single registers from address 0 up, one word each, R51. -/
def singleLocs : List Loc :=
  [.cmd, .status, .err, .resultLo, .resultHi, .einfo0, .einfo1, .einfo2, .einfo3, .einfo4,
   .ilen, .olen, .ptLength, .ptSprefix, .ptArgLo, .ptArgHi,
   .ptBcount, .ptBbytes, .ptBbitsLo, .ptBbitsHi, .ptNalloc, .exponent]

/-- The address map, R51 R52: `none` when the address is misaligned or unmapped. -/
def mapAddr (c : Config) (addr : Word) : Option Loc :=
  let a := addr.toNat
  if a % 4 ≠ 0 then none
  else if a < 0x58 then singleLocs[a / 4]?
  else if a < 0x60 then none
  else if a < 0x70 then some (.key ((a - 0x60) / 4))
  else if a < 0x80 then some (.akey ((a - 0x70) / 4))
  else if a < 0x90 then some (.aiv ((a - 0x80) / 4))
  else if a < 0xA0 then some (.nonce ((a - 0x90) / 4))
  else if a < 0xB0 then some (.iv ((a - 0xA0) / 4))
  else if a < 0x100 then none
  else if a < 0x180 then some (.mpBase ((a - 0x100) / 4))
  else if a < 0x200 then some (.mpExp ((a - 0x180) / 4))
  else if a < 0x280 then some (.mpMod ((a - 0x200) / 4))
  else if a < 0x300 then some (.mpRes ((a - 0x280) / 4))
  else if a < 0x380 then some (.esk ((a - 0x300) / 4))
  else if a < 0x400 then some (.modulus ((a - 0x380) / 4))
  else if a < 0x500 then some (.eskhex ((a - 0x400) / 4))
  else if a < ibufBase then none
  else if a < ibufBase + c.ibufCap then some (.ibuf ((a - ibufBase) / 4))
  else if a < obufBase then none
  else if a < obufBase + c.obufCap then some (.obuf ((a - obufBase) / 4))
  else none

/-- The word a readable location holds, R55 to R58; `none` for `CMD`, which is write-only (R22). -/
def State.readLoc (s : State) : Loc → Option Word
  | .cmd => none
  | .status => some s.statusWord
  | .err => some s.err
  | .resultLo => some (wordOf s.result 0)
  | .resultHi => some (wordOf s.result 1)
  | .einfo0 => some s.einfo0
  | .einfo1 => some s.einfo1
  | .einfo2 => some s.einfo2
  | .einfo3 => some s.einfo3
  | .einfo4 => some s.einfo4
  | .ilen => some s.ilen
  | .olen => some s.olen
  | .ptLength => some s.ptLength
  | .ptSprefix => some s.ptSprefix
  | .ptArgLo => some (wordOf s.ptArg 0)
  | .ptArgHi => some (wordOf s.ptArg 1)
  | .ptBcount => some s.ptBcount
  | .ptBbytes => some s.ptBbytes
  | .ptBbitsLo => some (wordOf s.ptBbits 0)
  | .ptBbitsHi => some (wordOf s.ptBbits 1)
  | .ptNalloc => some (BitVec.ofNat 32 s.nalloc)
  | .exponent => some (BitVec.ofNat 32 ePub)
  | .key j => some (wordOf s.key j)
  | .akey j => some (wordOf s.akey j)
  | .aiv j => some (wordOf s.aiv j)
  | .nonce j => some (wordOf Machine.nonce j)
  | .iv j => some (wordOf fixedIv j)
  | .mpBase k => some (wordOf s.mpBase k)
  | .mpExp k => some (wordOf s.mpExp k)
  | .mpMod k => some (wordOf s.mpMod k)
  | .mpRes k => some (wordOf s.mpRes k)
  | .esk k => some (wordOf s.esk k)
  | .modulus k => some (wordOf (BitVec.ofNat 1024 s.cfg.nModulus) k)
  | .eskhex j => some (lanes (hexByte s.esk) (4 * j))
  | .ibuf j => some (lanes s.bufByte (ibufBase + 4 * j))
  | .obuf j => some (lanes s.bufByte (obufBase + 4 * j))

/-- The state after a word is stored at a writable location, R56 R59; `none` for a read-only one,
and for `PT_LENGTH` and `PT_SPREFIX` once a table exists (R35 R53). `CMD` stores nothing (R22): the
command a write to it issues is run by the caller. -/
def State.writeLoc (s : State) (v : Word) : Loc → Option State
  | .cmd => some s
  | .ilen => some { s with ilen := v }
  | .ptLength => if s.ptrdy then none else some { s with ptLength := v }
  | .ptSprefix => if s.ptrdy then none else some { s with ptSprefix := v }
  | .ptArgLo => some { s with ptArg := setWord s.ptArg 0 v }
  | .ptArgHi => some { s with ptArg := setWord s.ptArg 1 v }
  | .key j => some { s with key := setWord s.key j v }
  | .akey j => some { s with akey := setWord s.akey j v }
  | .aiv j => some { s with aiv := setWord s.aiv j v }
  | .mpBase k => some { s with mpBase := setWord s.mpBase k v }
  | .mpExp k => some { s with mpExp := setWord s.mpExp k v }
  | .mpMod k => some { s with mpMod := setWord s.mpMod k v }
  | .ibuf j => some { s with mem := s.mem.writeBytes (ibufBase + 4 * j) (laneBytes v) }
  | .status | .err | .resultLo | .resultHi => none
  | .einfo0 | .einfo1 | .einfo2 | .einfo3 | .einfo4 => none
  | .olen | .ptBcount | .ptBbytes | .ptBbitsLo | .ptBbitsHi | .ptNalloc | .exponent => none
  | .nonce _ | .iv _ | .mpRes _ | .esk _ | .modulus _ | .eskhex _ | .obuf _ => none

end Sys2Proof.Machine
end

