-- ==== Sys2Proof/Machine/Transact.lean ====
section
/-! DEFINITION. The host port, the stream ports and the reset event (20_memory.md R50 to R54 R66
R67, 70_reset_and_hazards.md R220): what each host action does. -/

namespace Sys2Proof.Machine

/-- Do something more after an outcome that is a next state. -/
def andThen (o : Host.Outcome State Fault Refusal) (f : State → State) :
    Host.Outcome State Fault Refusal :=
  match o with
  | .next t => .next (f t)
  | .fault r => .fault r
  | .refused r => .refused r

/-- Issue a command word, 10_state.md R22, 30_encoding.md R85 R87: an illegal word is the command
error `ILLCMD`. -/
def runCommand (w : Word) (s : State) : Host.Outcome State Fault Refusal :=
  match decode w with
  | .ok i => exec i s
  | .error _ => .next (s.raise (.illcmd w))

/-- `MemRead(addr, 4)`, R50 R53 R57: data, or a bus error; never a side effect. -/
def busRead (s : State) (addr : Word) : Response :=
  match mapAddr s.cfg addr with
  | none => .busError
  | some l =>
    match s.readLoc l with
    | none => .busError
    | some v => .data v

/-- `MemWrite(addr, 4, v)`, R50 R53 R57: a store, a command, or a bus error that changes nothing
(R54). A command's effects are complete before the write is accepted (R61 R62). -/
def busWrite (s : State) (addr v : Word) : Host.Outcome State Fault Refusal :=
  match mapAddr s.cfg addr with
  | none => .next (s.respond .busError)
  | some .cmd => andThen (runCommand v s) fun t => t.respond .accepted
  | some l =>
    match s.writeLoc v l with
    | none => .next (s.respond .busError)
    | some t => .next (t.respond .accepted)

/-- One host action, R50 R66 R67 R220. -/
def perform (a : HostAction) (s : State) : Host.Outcome State Fault Refusal :=
  match a with
  | .memRead addr => .next (s.respond (busRead s addr))
  | .memWrite addr v => busWrite s addr v
  | .srcSupply bytes => .next { s with src := bytes }
  | .snkTake => .next (State.respond { s with snk := [] } (.taken s.snk))
  | .reset => .next s.resetEvent

/-- The next host action taken out of the list. -/
def State.popAction (s : State) (rest : List HostAction) : State := { s with pending := rest }

/-- One step: the oldest pending host action, if there is one; without one the device idles, since
no register changes by itself (60_exceptions.md R212, log 1). -/
def stepHost (s : State) : Host.Outcome State Fault Refusal :=
  match s.pending with
  | [] => .next s
  | a :: rest => perform a (s.popAction rest)

/-- The command word `w` as the very next host action: a `MemWrite` to `CMD` put in front of the
pending actions, 30_encoding.md R80 R88 (DESIGN CHOICE, log 7). -/
def State.pushCommand (s : State) (w : Word) : State :=
  { s with pending := .memWrite 0 w :: s.pending }

end Sys2Proof.Machine
end

