-- ==== Sys2Proof/Machine/Step.lean ====
section
/-! DEFINITION. The step of the machine, and how a command comes to be its next one. -/

namespace Sys2Proof.Machine

/-- One step of the machine: one host action, 00_scope.md R10. -/
def step (s : State) : Host.Outcome State Fault Refusal := stepHost s

/-- `s` with the command word `w` issued next: the host's next action writes it to `CMD`
(DESIGN CHOICE, log 7). A table row has 32 bits (30_encoding.md R80); bits above `nbits` are 0. -/
def State.withFetchWord (s : State) (nbits w : Nat) : State :=
  s.pushCommand (BitVec.ofNat 32 (w % 2 ^ nbits))

end Sys2Proof.Machine
end

