-- ==== Sys2Proof/Machine/Script.lean ====
section
/-! DEFINITION. The script notation and the pseudo-commands of 30_encoding.md R88 R89, as lists of
host actions. PTCONTAINS needs none of its own: it is `cmd .pttest`. -/

namespace Sys2Proof.Machine.Script

/-- `wr NAME, v` with the address of `NAME`, R88. -/
def wr (addr : Nat) (v : Word) : HostAction := .memWrite (BitVec.ofNat 32 addr) v

/-- `rd NAME`, R88. -/
def rd (addr : Nat) : HostAction := .memRead (BitVec.ofNat 32 addr)

/-- `cmd MNEMONIC`, R88: the command word written to `CMD`. -/
def cmd (i : Instr) : HostAction := .memWrite 0 (encode i)

/-- `wrint NAME, v`, R89: the words of an integer register, the least significant first. -/
def wrint {w : Nat} (addr : Nat) (v : BitVec w) : List HostAction :=
  (List.range (w / 32)).map fun k => wr (addr + 4 * k) (wordOf v k)

/-- `wrbytes NAME, s`, R89: the bytes four to a word, the last word filled up with bytes of 0. -/
def wrbytes (addr : Nat) (s : List Byte) : List HostAction :=
  (List.range ((s.length + 3) / 4)).map fun j => wr (addr + 4 * j) (lanes (fun i => s.getD i 0) (4 * j))

/-- `payload s`, R89. -/
def payload (s : List Byte) : List HostAction :=
  wrbytes ibufBase s ++ [wr 0x28 (BitVec.ofNat 32 s.length)]

/-- `setkey s`, R89. -/
def setkey (s : List Byte) : List HostAction := wrbytes 0x60 s

/-- `ptarg v`, R89. -/
def ptarg (v : DWord) : List HostAction := [wr 0x38 (wordOf v 0), wr 0x3C (wordOf v 1)]

end Sys2Proof.Machine.Script
end

