-- ==== Sys2Proof/Safety.lean ====
section
/-! DEFINITION. The terms the claims are stated in: a finished command's report, what a bit of the
block store is, the base64 alphabet, the address ranges of 20_memory.md R51, the invariant every
step keeps, and what an image's records assign. -/

namespace Sys2Proof.Machine

/-- A state with its error registers at given values, 60_exceptions.md R202. -/
def State.report (s : State) (code e0 e1 e2 e3 e4 : Word) : State :=
  { s with err := code, einfo0 := e0, einfo1 := e1, einfo2 := e2, einfo3 := e3, einfo4 := e4 }

/-- A state after a success ending, R203: `ERR` and `EINFO0..4` are 0. -/
def State.ok (s : State) : State := s.report 0 0 0 0 0 0

/-- `LEN(n, r)` as the registers show it, R202. -/
def State.lenReport (s : State) (r : Word) : State :=
  s.report 3 s.ilen r (BitVec.ofNat 32 s.cfg.ibufCap) (BitVec.ofNat 32 s.cfg.obufCap) 0

/-- `RANGE(PT_ARG)` as the registers show it, R202. -/
def State.rangeReport (s : State) : State :=
  s.report 6 (s.ptArg.extractLsb' 0 32) (s.ptArg.extractLsb' 32 32) 0 0 0

/-- A block could still be allocated: `PT_NALLOC` has not reached `PT_MAX_ALLOC`, R163. -/
def State.HasRoom (s : State) : Prop := ∀ m, s.cfg.ptMaxAlloc = some m → s.nalloc < m

/-- Bit `k` of byte `i` of block `blk`, false in an unallocated block, R162 R166. -/
def State.bitAt (s : State) (blk i k : Nat) : Bool :=
  match s.slot blk with
  | none => false
  | some b => (b.read i).getLsbD k

/-- The bit of an id in this table, R162: bit 7 is the first bit of a byte. -/
def State.idBit (s : State) (id : Nat) : Bool :=
  s.bitAt (id / s.ptBbits.toNat) (id % s.ptBbits.toNat / 8) (7 - id % s.ptBbits.toNat % 8)

/-- No bit of the store beyond a block's `PT_BBITS` bits is set, 43_presence.md R169. -/
def State.TailClear (s : State) : Prop :=
  ∀ blk i k, k < 8 → s.ptBbits.toNat ≤ 8 * i + (7 - k) → s.bitAt blk i k = false

/-- `B64ALPHA` spelled out, 41_symmetric.md R134: `A` to `Z`, `a` to `z`, `0` to `9`, `+`, `/`. -/
def base64Alphabet : List Byte :=
  [0x41, 0x42, 0x43, 0x44, 0x45, 0x46, 0x47, 0x48, 0x49, 0x4a, 0x4b, 0x4c, 0x4d,
   0x4e, 0x4f, 0x50, 0x51, 0x52, 0x53, 0x54, 0x55, 0x56, 0x57, 0x58, 0x59, 0x5a] ++
  [0x61, 0x62, 0x63, 0x64, 0x65, 0x66, 0x67, 0x68, 0x69, 0x6a, 0x6b, 0x6c, 0x6d,
   0x6e, 0x6f, 0x70, 0x71, 0x72, 0x73, 0x74, 0x75, 0x76, 0x77, 0x78, 0x79, 0x7a] ++
  [0x30, 0x31, 0x32, 0x33, 0x34, 0x35, 0x36, 0x37, 0x38, 0x39, 0x2b, 0x2f]

/-! ### The address ranges of R51 -/

/-- The mapped addresses, R51. -/
def Mapped (c : Config) (a : Nat) : Prop :=
  a < 0x58 ∨ (0x60 ≤ a ∧ a < 0xB0) ∨ (0x100 ≤ a ∧ a < 0x500) ∨
    (0x10000 ≤ a ∧ a < 0x10000 + c.ibufCap) ∨ (0x20000 ≤ a ∧ a < 0x20000 + c.obufCap)

/-- The word addresses a `MemWrite` may go to, R51: `CMD`, `ILEN`, `PT_LENGTH` and `PT_SPREFIX`
while there is no table, `PT_ARG`, `KEY`, `AKEY`, `AIV`, `MP_BASE`, `MP_EXP`, `MP_MOD`, `IBUF`. -/
def Writable (s : State) (a : Nat) : Prop :=
  a = 0 ∨ a = 0x28 ∨ ((a = 0x30 ∨ a = 0x34) ∧ s.ptrdy = false) ∨ a = 0x38 ∨ a = 0x3C ∨
    (0x60 ≤ a ∧ a < 0x90) ∨ (0x100 ≤ a ∧ a < 0x280) ∨
    (0x10000 ≤ a ∧ a < 0x10000 + s.cfg.ibufCap)

/-! ### The invariant -/

/-- The memory is canonical and lists only addresses of `IBUF` and `OBUF`. -/
def State.MemOk (s : State) : Prop := s.mem.wf ∧ ∀ p ∈ s.mem, inBuffers s.cfg p.1

/-- The shape registers hold a legal shape exactly when a table exists, R37 R42 R161. -/
def State.ShapeOk (s : State) : Prop :=
  if s.ptrdy then
    s.ptSprefix.toNat ≤ 4 ∧ s.ptSprefix.toNat ≤ s.ptLength.toNat ∧
      s.ptLength.toNat - s.ptSprefix.toNat ≤ 10 ∧
      s.ptBcount.toNat = 10 ^ s.ptSprefix.toNat ∧
      s.ptBbits.toNat = 10 ^ (s.ptLength.toNat - s.ptSprefix.toNat) ∧
      s.ptBbytes.toNat = (10 ^ (s.ptLength.toNat - s.ptSprefix.toNat) + 7) / 8
  else s.ptBcount = 0 ∧ s.ptBbits = 0 ∧ s.ptBbytes = 0

/-- The block store is canonical: at most `PT_BCOUNT` slots of `PT_BBYTES` bytes (so none without a
table), and no more than `PT_MAX_ALLOC` allocated, R38 R163. -/
def State.StoreOk (s : State) : Prop :=
  BlockStore.wf s.ptBcount.toNat s.ptBbytes.toNat s.slots ∧
    ∀ m, s.cfg.ptMaxAlloc = some m → s.nalloc ≤ m

/-- `ERR` holds one of the nine codes of R201, and a success leaves `EINFO0..4` at 0, R33. -/
def State.ReportOk (s : State) : Prop :=
  s.err.toNat ≤ 8 ∧
    (s.err = 0 → s.einfo0 = 0 ∧ s.einfo1 = 0 ∧ s.einfo2 = 0 ∧ s.einfo3 = 0 ∧ s.einfo4 = 0)

/-- The output `OBUF[0..OLEN)` fits the buffer and every byte of it has been written, R29 R31. -/
def State.OutputOk (s : State) : Prop :=
  s.olen.toNat ≤ s.cfg.obufCap ∧
    ∀ i, i < s.olen.toNat → (s.mem.read (obufBase + i)).isSome = true

/-- `RESULT` is at most 10000 * 1250000000 and `ESK` is below the modulus, R34 R25. -/
def State.ValuesOk (s : State) : Prop :=
  s.result.toNat ≤ 12500000000000 ∧ s.esk.toNat < s.cfg.nModulus

/-- The invariant of the machine. -/
structure State.Inv (s : State) : Prop where
  mem : s.MemOk
  shape : s.ShapeOk
  store : s.StoreOk
  report : s.ReportOk
  output : s.OutputOk
  values : s.ValuesOk

/-- A state the machine can go on from, 70_reset_and_hazards.md R234. -/
def Completes (s : State) : Prop := ∃ t, step s = .next t

/-! ### Images -/

/-- What one record of an image says: `none` for flag 0, the content bytes for flag 1, R182. -/
abbrev Record := Option (List Byte)

/-- The bytes of a record, R182. -/
def Record.bytes : Record → List Byte
  | none => [0]
  | some d => 1 :: d

/-- The bytes of the header for a shape, R181. -/
def headerBytes (bcount bbytes : Nat) : List Byte :=
  [BitVec.ofNat 8 (bcount / 256), BitVec.ofNat 8 bcount,
    BitVec.ofNat 8 (bbytes / 16777216), BitVec.ofNat 8 (bbytes / 65536),
    BitVec.ofNat 8 (bbytes / 256), BitVec.ofNat 8 bbytes]

/-- Whether the records from index `i` can all be assigned in turn, each needing room when its slot
is unallocated, and the state after it, R184. -/
def State.assignRecords (s : State) (i : Nat) : List Record → Option State
  | [] => some s
  | none :: rs => State.assignRecords (s.clearSlot i) (i + 1) rs
  | some d :: rs =>
    if s.allocated i || s.roomForBlock then
      State.assignRecords (s.setSlot i (Block.ofBytes d)) (i + 1) rs
    else none

/-- The content bytes of some records, R183 R184. -/
def contentBytes (bbytes : Nat) (rs : List Record) : Nat :=
  (rs.filter fun r => r.isSome).length * bbytes

end Sys2Proof.Machine
end

