-- ==== Sys2Proof/Certificates/Slice0/Obligations.lean ====
section
/-! DEFINITION. The statements about the model. OBLIGATIONS.json lists them in this order, but for
ReadableAddressesShowTheirElements and Aes128MeetsItsByteEquations, which it lists last. -/

open Sys2Proof Sys2Proof.Machine

/-! ### Decoding and encoding -/

/-- The fourteen legal words decode to their commands (30_encoding.md R84 R87). -/
def Obligations.LegalWordsDecodeToTheirCommands : Prop :=
  decode 0x00000001 = .ok .modpow ∧ decode 0x00000002 = .ok .enckey ∧
  decode 0x00000010 = .ok .aescbc ∧ decode 0x00000011 = .ok .dblenc ∧
  decode 0x00000020 = .ok .keygen ∧ decode 0x00000021 = .ok (.encrypt false) ∧
  decode 0x00000121 = .ok (.encrypt true) ∧ decode 0x00000030 = .ok .ptinit ∧
  decode 0x00000031 = .ok .ptalloc ∧ decode 0x00000032 = .ok .pttest ∧
  decode 0x00000033 = .ok .ptset ∧ decode 0x00000034 = .ok .pttas ∧
  decode 0x00000035 = .ok .ptdump ∧ decode 0x00000036 = .ok .ptload

/-- Decoding the word of a command gives the command. -/
def Obligations.DecodeOfEncodeIsTheCommand : Prop :=
  ∀ i : Instr, i.wf = true → decode (encode i) = .ok i

/-- A word that decodes is the word of the command it decodes to: every bit of it is read. -/
def Obligations.EncodeOfDecodeIsTheWord : Prop :=
  ∀ (w : Word) (i : Instr), decode w = .ok i → encode i = w

/-- Decoding is total and goes in the order of R87: reserved bits, opcode, stray `g`; and exactly
fourteen words are legal. -/
def Obligations.DecodingGoesInTheOrderOfTheRule : Prop :=
  ∀ w : Word,
    let op := w.toNat % 256
    let g := w.toNat / 256 % 2
    let opcodes := [0x01, 0x02, 0x10, 0x11, 0x20, 0x21, 0x30, 0x31, 0x32, 0x33, 0x34, 0x35, 0x36]
    (w.toNat / 512 ≠ 0 → decode w = .error .reservedBits) ∧
    (w.toNat / 512 = 0 → op ∉ opcodes → decode w = .error .unknownOpcode) ∧
    (w.toNat / 512 = 0 → op ∈ opcodes → op ≠ 0x21 → g = 1 → decode w = .error .strayGenerate) ∧
    (w.toNat / 512 = 0 → op ∈ opcodes → (op = 0x21 ∨ g = 0) →
      ∃ i, decode w = .ok i ∧ i.opcode.toNat = op ∧ ∀ h, i = .encrypt h → (h = true ↔ g = 1)) ∧
    ((∃ i, decode w = .ok i) ↔
      w ∈ ([0x01, 0x02, 0x10, 0x11, 0x20, 0x21, 0x121, 0x30, 0x31, 0x32, 0x33, 0x34, 0x35,
        0x36] : List Word))

/-- A word is legal exactly when it matches a row of the opcode table under the row's mask, and no
word matches two rows (R82 R84). -/
def Obligations.LegalWordsAreTheTableRows : Prop :=
  (∀ w : Word, (∃ i, decode w = .ok i) ↔ ∃ r ∈ opcodeTable, r.matches w = true) ∧
    opcodeTable.Pairwise fun p q => ∀ w : Word, ¬ (p.matches w = true ∧ q.matches w = true)

/-! ### The step -/

/-- When the host's next action writes the word of a command to `CMD`, the step is that command's
meaning, and then the host is told that the write was accepted. -/
def Obligations.StepRunsTheDecodedCommand : Prop :=
  ∀ (s : State) (w : Word) (rest : List HostAction) (i : Instr),
    s.pending = .memWrite 0 w :: rest → decode w = .ok i → i.wf = true →
    step s =
      match exec i { s with pending := rest } with
      | .next t => .next { t with trace := .accepted :: t.trace }
      | .fault r => .fault r
      | .refused r => .refused r

/-- A word that is the word of no command writes the report of `ILLCMD` and changes nothing else;
the write itself is accepted (R85). -/
def Obligations.IllegalWordChangesOnlyTheReport : Prop :=
  ∀ (s : State) (w : Word) (rest : List HostAction),
    s.pending = .memWrite 0 w :: rest →
    (w ∉ ([0x01, 0x02, 0x10, 0x11, 0x20, 0x21, 0x121, 0x30, 0x31, 0x32, 0x33, 0x34, 0x35,
      0x36] : List Word)) →
    step s =
      .next { s.report 1 w 0 0 0 0 with pending := rest, trace := .accepted :: s.trace }

/-- From every state there is a next state: no command hangs and nothing stops the device (R234).
Without a pending host action the state stays as it is (the model's choice, log 1). -/
def Obligations.EveryStepCompletes : Prop :=
  (∀ s : State, Completes s) ∧ ∀ s : State, s.pending = [] → step s = .next s

/-- Every step keeps the invariant of the machine. -/
def Obligations.EveryStepKeepsTheInvariant : Prop :=
  ∀ s t : State, s.Inv → step s = .next t → t.Inv

/-- The reset state meets the invariant. -/
def Obligations.ResetMeetsTheInvariant : Prop := State.reset.Inv

/-- The reset event makes every element of the state its reset value, whatever it was (R42 R220).
That the parameters, the free values' counters and the host's own record are not the device's state
is the model's choice (logs 3, 4, 5, 6). -/
def Obligations.ResetEventRestoresEveryElement : Prop :=
  ∀ (s : State) (rest : List HostAction), s.pending = .reset :: rest →
    ∃ t, step s = .next t ∧
      t.statusWord = 0 ∧ t.ptrdy = false ∧ t.err = 0 ∧
      t.einfo0 = 0 ∧ t.einfo1 = 0 ∧ t.einfo2 = 0 ∧ t.einfo3 = 0 ∧ t.einfo4 = 0 ∧
      t.result = 0 ∧ t.ilen = 0 ∧ t.olen = 0 ∧
      t.mpBase = 0 ∧ t.mpExp = 0 ∧ t.mpMod = 0 ∧ t.mpRes = 0 ∧
      t.esk = 0 ∧ hex256 t.esk = List.replicate 256 0x30 ∧
      t.key = 0 ∧ t.akey = 0 ∧ t.aiv = 0 ∧
      (∀ a, t.mem.read a = none) ∧
      t.ptLength = 0 ∧ t.ptSprefix = 0 ∧ t.ptArg = 0 ∧
      t.ptBcount = 0 ∧ t.ptBbytes = 0 ∧ t.ptBbits = 0 ∧ t.nalloc = 0 ∧
      (∀ blk, t.slot blk = none) ∧ t.src = [] ∧ t.snk = [] ∧
      t.cfg = s.cfg ∧ t.epoch = s.epoch + 1 ∧ t.draws = s.draws ∧ t.pending = rest ∧
      t.trace = s.trace

/-- The reset state itself: every register, flag and stream as R42 says. -/
def Obligations.ResetStateIsTheSpecs : Prop :=
  State.reset.statusWord = 0 ∧ State.reset.err = 0 ∧ State.reset.einfo0 = 0 ∧
  State.reset.einfo1 = 0 ∧ State.reset.einfo2 = 0 ∧ State.reset.einfo3 = 0 ∧
  State.reset.einfo4 = 0 ∧ State.reset.result = 0 ∧ State.reset.ilen = 0 ∧
  State.reset.olen = 0 ∧ State.reset.mpBase = 0 ∧ State.reset.mpExp = 0 ∧
  State.reset.mpMod = 0 ∧ State.reset.mpRes = 0 ∧ State.reset.esk = 0 ∧
  State.reset.key = 0 ∧ State.reset.akey = 0 ∧ State.reset.aiv = 0 ∧
  State.reset.ptLength = 0 ∧ State.reset.ptSprefix = 0 ∧ State.reset.ptArg = 0 ∧
  State.reset.ptBcount = 0 ∧ State.reset.ptBbytes = 0 ∧ State.reset.ptBbits = 0 ∧
  State.reset.nalloc = 0 ∧ State.reset.slots = [] ∧ State.reset.src = [] ∧ State.reset.snk = []

/-- Once a table exists, nothing but the reset event removes it or changes its shape (R230). -/
def Obligations.OnlyResetEndsATableOrChangesItsShape : Prop :=
  ∀ s t : State, s.ptrdy = true → (∀ rest, s.pending ≠ .reset :: rest) → step s = .next t →
    t.ptrdy = true ∧ t.ptLength = s.ptLength ∧ t.ptSprefix = s.ptSprefix ∧
      t.ptBcount = s.ptBcount ∧ t.ptBbits = s.ptBbits ∧ t.ptBbytes = s.ptBbytes

/-! ### The host port -/

/-- A transaction is refused exactly when it is misaligned, unmapped, a write to a read-only
location, or a read of `CMD` (R52 R53); every other one is accepted. -/
def Obligations.BusErrorsAreExactlyTheForbiddenTransactions : Prop :=
  ∀ (s : State) (a v : Word) (rest : List HostAction),
    (s.pending = .memRead a :: rest →
      ((a.toNat % 4 ≠ 0 ∨ ¬ Mapped s.cfg a.toNat ∨ a.toNat = 0) →
        ∃ t, step s = .next t ∧ t.trace = .busError :: s.trace) ∧
      (¬ (a.toNat % 4 ≠ 0 ∨ ¬ Mapped s.cfg a.toNat ∨ a.toNat = 0) →
        ∃ t w, step s = .next t ∧ t.trace = .data w :: s.trace)) ∧
    (s.pending = .memWrite a v :: rest →
      ((a.toNat % 4 ≠ 0 ∨ ¬ Mapped s.cfg a.toNat ∨ ¬ Writable s a.toNat) →
        ∃ t, step s = .next t ∧ t.trace = .busError :: s.trace) ∧
      (¬ (a.toNat % 4 ≠ 0 ∨ ¬ Mapped s.cfg a.toNat ∨ ¬ Writable s a.toNat) →
        ∃ t, step s = .next t ∧ t.trace = .accepted :: s.trace))

/-- A bus error changes no state at all (R54): only the host's own record shows it. -/
def Obligations.BusErrorChangesNothing : Prop :=
  ∀ (s t : State) (act : HostAction) (rest : List HostAction),
    s.pending = act :: rest → step s = .next t → t.trace = .busError :: s.trace →
    t = { s with pending := rest, trace := .busError :: s.trace }

/-- No `MemRead` has a side effect (R57). -/
def Obligations.ReadingChangesNothing : Prop :=
  ∀ (s : State) (a : Word) (rest : List HostAction), s.pending = .memRead a :: rest →
    ∃ r, step s = .next { s with pending := rest, trace := r :: s.trace }

/-- A word written to a writable location other than `CMD` is accepted and read back there, every
other address reads as before, no other byte of the buffers is written, and every element that no
write can reach (the report, the results, the slots, `SRC`, `SNK`, the model's own fields) stays as
it is (R43 R57). -/
def Obligations.WrittenWordIsReadBackAndNothingElseChanges : Prop :=
  ∀ (s : State) (a v : Word), a.toNat % 4 = 0 → a.toNat ≠ 0 → Writable s a.toNat →
    ∃ t, perform (.memWrite a v) s = .next t ∧ t.trace = .accepted :: s.trace ∧
      busRead t a = .data v ∧ (∀ b, b ≠ a → busRead t b = busRead s b) ∧
      (∀ x, ¬ (a.toNat ≤ x ∧ x < a.toNat + 4) → t.mem.read x = s.mem.read x) ∧
      t = { s with
        ilen := t.ilen, ptLength := t.ptLength, ptSprefix := t.ptSprefix, ptArg := t.ptArg,
        key := t.key, akey := t.akey, aiv := t.aiv,
        mpBase := t.mpBase, mpExp := t.mpExp, mpMod := t.mpMod,
        mem := t.mem, trace := t.trace }

/-- Different addresses are different locations (R43). -/
def Obligations.AddressesDoNotAlias : Prop :=
  ∀ (c : Config) (a b : Word) (l : Loc), mapAddr c a = some l → mapAddr c b = some l → a = b

/-- Every readable address shows the element the address map gives it (R51): a register of one word
as it is, word `k` of a wider integer register as its bits `32k+31` to `32k` (R56), and a word of a
byte array as its four bytes, the first in the lowest lane (R55 R58). `STATUS`, the constants and
`ESKHEX` have statements of their own. -/
def Obligations.ReadableAddressesShowTheirElements : Prop :=
  ∀ s : State,
    busRead s 0x08 = .data s.err ∧
    busRead s 0x0C = .data (BitVec.ofNat 32 s.result.toNat) ∧
    busRead s 0x10 = .data (BitVec.ofNat 32 (s.result.toNat / 2 ^ 32)) ∧
    busRead s 0x14 = .data s.einfo0 ∧ busRead s 0x18 = .data s.einfo1 ∧
    busRead s 0x1C = .data s.einfo2 ∧ busRead s 0x20 = .data s.einfo3 ∧
    busRead s 0x24 = .data s.einfo4 ∧
    busRead s 0x28 = .data s.ilen ∧ busRead s 0x2C = .data s.olen ∧
    busRead s 0x30 = .data s.ptLength ∧ busRead s 0x34 = .data s.ptSprefix ∧
    busRead s 0x38 = .data (BitVec.ofNat 32 s.ptArg.toNat) ∧
    busRead s 0x3C = .data (BitVec.ofNat 32 (s.ptArg.toNat / 2 ^ 32)) ∧
    busRead s 0x40 = .data s.ptBcount ∧ busRead s 0x44 = .data s.ptBbytes ∧
    busRead s 0x48 = .data (BitVec.ofNat 32 s.ptBbits.toNat) ∧
    busRead s 0x4C = .data (BitVec.ofNat 32 (s.ptBbits.toNat / 2 ^ 32)) ∧
    busRead s 0x50 = .data (BitVec.ofNat 32 s.slots.length) ∧
    (∀ j, j < 4 → ∃ k a v,
      busRead s (BitVec.ofNat 32 (0x60 + 4 * j)) = .data k ∧
      busRead s (BitVec.ofNat 32 (0x70 + 4 * j)) = .data a ∧
      busRead s (BitVec.ofNat 32 (0x80 + 4 * j)) = .data v ∧
      ∀ i, i < 4 → byteOf k i = byteOf s.key (4 * j + i) ∧
        byteOf a i = byteOf s.akey (4 * j + i) ∧ byteOf v i = byteOf s.aiv (4 * j + i)) ∧
    (∀ k, k < 32 →
      busRead s (BitVec.ofNat 32 (0x100 + 4 * k)) =
        .data (BitVec.ofNat 32 (s.mpBase.toNat / 2 ^ (32 * k))) ∧
      busRead s (BitVec.ofNat 32 (0x180 + 4 * k)) =
        .data (BitVec.ofNat 32 (s.mpExp.toNat / 2 ^ (32 * k))) ∧
      busRead s (BitVec.ofNat 32 (0x200 + 4 * k)) =
        .data (BitVec.ofNat 32 (s.mpMod.toNat / 2 ^ (32 * k))) ∧
      busRead s (BitVec.ofNat 32 (0x280 + 4 * k)) =
        .data (BitVec.ofNat 32 (s.mpRes.toNat / 2 ^ (32 * k))) ∧
      busRead s (BitVec.ofNat 32 (0x300 + 4 * k)) =
        .data (BitVec.ofNat 32 (s.esk.toNat / 2 ^ (32 * k)))) ∧
    (∀ j, 4 * j < s.cfg.ibufCap → ∃ w,
      busRead s (BitVec.ofNat 32 (0x10000 + 4 * j)) = .data w ∧
      ∀ i, i < 4 → byteOf w i = s.bufByte (0x10000 + (4 * j + i))) ∧
    (∀ j, 4 * j < s.cfg.obufCap → ∃ w,
      busRead s (BitVec.ofNat 32 (0x20000 + 4 * j)) = .data w ∧
      ∀ i, i < 4 → byteOf w i = s.bufByte (0x20000 + (4 * j + i)))

/-- The constants read as R26 says, in every state, and a write to any of them is a bus error. -/
def Obligations.ConstantsReadAsTheRuleSays : Prop :=
  ∀ s : State,
    (∀ k, k < 32 → busRead s (BitVec.ofNat 32 (0x380 + 4 * k)) =
      .data (BitVec.ofNat 32 (s.cfg.nModulus / 2 ^ (32 * k)))) ∧
    busRead s 0x54 = .data 0x00010001 ∧
    busRead s 0x90 = .data 0x4A6F4330 ∧ busRead s 0x94 = .data 0x51366D55 ∧
    busRead s 0x98 = .data 0x57387779 ∧ busRead s 0x9C = .data 0x64756A38 ∧
    busRead s 0xA0 = .data 0x32303130 ∧ busRead s 0xA4 = .data 0x34303330 ∧
    busRead s 0xA8 = .data 0x36303530 ∧ busRead s 0xAC = .data 0x38303730 ∧
    2 ^ 1023 ≤ s.cfg.nModulus ∧ s.cfg.nModulus < 2 ^ 1024 ∧
    ∀ a v : Word,
      (a.toNat = 0x54 ∨ (0x90 ≤ a.toNat ∧ a.toNat < 0xB0) ∨ (0x380 ≤ a.toNat ∧ a.toNat < 0x400)) →
      perform (.memWrite a v) s = .next { s with trace := .busError :: s.trace }

/-- `STATUS` shows `PTRDY` in bit 0, `ERR != 0` in bit 1, and 0 in bits 31:2 (R23). -/
def Obligations.StatusShowsItsTwoFlags : Prop :=
  ∀ s : State, ∃ w : Word, busRead s 0x4 = .data w ∧
    (w.getLsbD 0 = s.ptrdy) ∧ (w.getLsbD 1 = true ↔ s.err ≠ 0) ∧ w.toNat < 4

/-- `ESKHEX` reads as the 256 lowercase hexadecimal digits of `ESK`, most significant first, and
the digits give `ESK` back (R25 R105). -/
def Obligations.EskhexSpellsEsk : Prop :=
  (∀ s : State, ∀ j, j < 64 → ∃ w, busRead s (BitVec.ofNat 32 (0x400 + 4 * j)) = .data w ∧
    ∀ i, i < 4 → byteOf w i = (hex256 s.esk).getD (4 * j + i) 0) ∧
  ∀ v : Wide, (hex256 v).length = 256 ∧
    (∀ i, i < 256 → (hex256 v).getD i 0 =
      ([0x30, 0x31, 0x32, 0x33, 0x34, 0x35, 0x36, 0x37, 0x38, 0x39, 0x61, 0x62, 0x63, 0x64, 0x65,
        0x66] : List Byte).getD (v.toNat / 16 ^ (255 - i) % 16) 0) ∧
    (hex256 v).foldl
      (fun n (h : Byte) => 16 * n + if h.toNat < 0x40 then h.toNat - 0x30 else h.toNat - 0x57) 0
        = v.toNat

/-- `SrcSupply` replaces `SRC`, and `SnkTake` returns the whole of `SNK` and empties it; neither
changes anything else (R66 R67). -/
def Obligations.StreamPortsSupplyAndTake : Prop :=
  ∀ (s : State) (bytes : List Byte) (rest : List HostAction),
    (s.pending = .srcSupply bytes :: rest →
      step s = .next { s with src := bytes, pending := rest }) ∧
    (s.pending = .snkTake :: rest →
      step s = .next { s with snk := [], pending := rest, trace := .taken s.snk :: s.trace })

/-- The script lines `setkey` and `ptarg` leave their operand in the register (R89). -/
def Obligations.SetkeyAndPtargPresentTheirOperands : Prop :=
  (∀ (s : State) (k : List Byte), k.length = 16 → s.pending = Script.setkey k →
    ∃ t, Host.Core.run Sys2Proof.core 4 s = .next t ∧ bytes16 t.key = k ∧
      t = { s with key := t.key, pending := [], trace := t.trace }) ∧
  ∀ (s : State) (v : DWord), s.pending = Script.ptarg v →
    ∃ t, Host.Core.run Sys2Proof.core 2 s = .next t ∧
      t = { s with ptArg := v, pending := [], trace := t.trace }

/-! ### The modexp unit -/

/-- The square-and-multiply algorithm of R100 computes the power modulo the modulus (R101). -/
def Obligations.ModPowIsThePowerModuloTheModulus : Prop :=
  ∀ b e m : Nat, 1 ≤ m → modPow b e m = b ^ e % m ∧ modPow b e m < m

/-- MODPOW (R103): with a modulus that is not 0 it writes the power to `MP_RES` and ends in success;
with modulus 0 it ends in `MODZERO`; in both cases nothing else changes. -/
def Obligations.ModpowWritesThePowerOrReportsModzero : Prop :=
  ∀ s : State,
    (s.mpMod ≠ 0 → exec .modpow s = .next (State.ok { s with
      mpRes := BitVec.ofNat 1024 (s.mpBase.toNat ^ s.mpExp.toNat % s.mpMod.toNat) })) ∧
    (s.mpMod = 0 → exec .modpow s = .next (s.report 2 0 0 0 0 0))

/-- ENCKEY (R104 R106): `ESK` becomes the key, read with byte 0 least significant, to the power
65537 modulo the modulus, which is below the modulus; nothing else changes but the report. -/
def Obligations.EnckeyWritesTheEncodedKey : Prop :=
  ∀ s : State, ∃ t, exec .enckey s = .next t ∧
    t.esk.toNat = (beInt (bytes16 s.key).reverse) ^ 65537 % s.cfg.nModulus ∧
    beInt (bytes16 s.key).reverse = leInt (bytes16 s.key) ∧
    t.esk.toNat < s.cfg.nModulus ∧
    t = State.ok { s with esk := t.esk }

/-! ### The symmetric unit -/

/-- `pad` appends from 1 to 16 bytes, each equal to their number, up to a multiple of 16 (R120). -/
def Obligations.PadFillsUpToABlock : Prop :=
  ∀ d : List Byte, ∃ k, 1 ≤ k ∧ k ≤ 16 ∧ k = 16 - d.length % 16 ∧
    pad d = d ++ List.replicate k (BitVec.ofNat 8 k) ∧
    (pad d).length = 16 * (d.length / 16 + 1)

/-- The S-box table agrees with its construction from the inverse in GF(2^8), whose inverses are
inverses (R122 R123). -/
def Obligations.SboxTableIsItsConstruction : Prop :=
  ∀ a : Byte, sbox a = sboxByRule a ∧ (a ≠ 0 → gfMul a (gfInv a) = 1) ∧ (a = 0 → gfInv a = 0)

/-- AES-128 follows its rules byte by byte (R122 R124 to R130): there are bytes `w i j` of the words
of the key schedule and bytes `st r i` of the state after round `r` that meet the equations of the
key expansion, of the first AddRoundKey, of the nine full rounds and of the last round without
MixColumns, and the equations leave no byte of them open. `mul2` and `mul3` are the products R122
generates. -/
def Obligations.Aes128MeetsItsByteEquations : Prop :=
  (∀ a : Byte, mul2 a = (if 0x80 ≤ a.toNat then (a <<< 1) ^^^ 0x1B else a <<< 1) ∧
    mul3 a = mul2 a ^^^ a) ∧
  ∀ k x : Bytes16, ∃ w st : Nat → Nat → Byte,
    (∀ i j, i < 4 → j < 4 → w i j = byteOf k (4 * i + j)) ∧
    (∀ i j, 4 ≤ i → i < 44 → i % 4 ≠ 0 → j < 4 → w i j = w (i - 4) j ^^^ w (i - 1) j) ∧
    (∀ i, 4 ≤ i → i < 44 → i % 4 = 0 →
      w i 0 = w (i - 4) 0 ^^^ sbox (w (i - 1) 1) ^^^
        ([0x00, 0x01, 0x02, 0x04, 0x08, 0x10, 0x20, 0x40, 0x80, 0x1b, 0x36] : List Byte).getD
          (i / 4) 0 ∧
      w i 1 = w (i - 4) 1 ^^^ sbox (w (i - 1) 2) ∧
      w i 2 = w (i - 4) 2 ^^^ sbox (w (i - 1) 3) ∧
      w i 3 = w (i - 4) 3 ^^^ sbox (w (i - 1) 0)) ∧
    (∀ i, i < 16 → st 0 i = byteOf x i ^^^ w (i / 4) (i % 4)) ∧
    (∀ r c, 1 ≤ r → r < 10 → c < 4 →
      let a := fun q => sbox (st (r - 1) (q + 4 * ((c + q) % 4)))
      st r (4 * c) = mul2 (a 0) ^^^ mul3 (a 1) ^^^ a 2 ^^^ a 3 ^^^ w (4 * r + c) 0 ∧
      st r (4 * c + 1) = a 0 ^^^ mul2 (a 1) ^^^ mul3 (a 2) ^^^ a 3 ^^^ w (4 * r + c) 1 ∧
      st r (4 * c + 2) = a 0 ^^^ a 1 ^^^ mul2 (a 2) ^^^ mul3 (a 3) ^^^ w (4 * r + c) 2 ∧
      st r (4 * c + 3) = mul3 (a 0) ^^^ a 1 ^^^ a 2 ^^^ mul2 (a 3) ^^^ w (4 * r + c) 3) ∧
    ∀ i, i < 16 → byteOf (aes128 k x) i =
      sbox (st 9 (i % 4 + 4 * ((i / 4 + i % 4) % 4))) ^^^ w (40 + i / 4) (i % 4)

/-- CBC chains its blocks: block `i` of the output is the encryption of block `i` of the input xored
with block `i - 1` of the output, and with the initialisation vector for the first (R132). -/
def Obligations.CbcChainsItsBlocks : Prop :=
  ∀ (k v : Bytes16) (p : List Byte) (n : Nat), p.length = 16 * n → 1 ≤ n →
    (cbcEncrypt k v p).length = p.length ∧
    ∀ i, i < n →
      ((cbcEncrypt k v p).drop (16 * i)).take 16 =
        bytes16 (aes128 k (ofBytes16 ((p.drop (16 * i)).take 16) ^^^
          if i = 0 then v else ofBytes16 (((cbcEncrypt k v p).drop (16 * (i - 1))).take 16)))

/-- The output lengths of the symmetric unit (R133 R134 R135). -/
def Obligations.OutputLengthsAreTheFormulas : Prop :=
  (∀ (d : List Byte) (k v : Bytes16), (aesCbcEncrypt d k v).length = 16 * (d.length / 16 + 1)) ∧
  (∀ d : List Byte, (b64 d).length = 4 * ((d.length + 2) / 3)) ∧
  ∀ (p : List Byte) (k : Bytes16), (doubleEncrypt p k).length = dlen p.length

/-- base64 (R134): each group of up to three bytes, filled up with 0 bytes to a 24-bit number, gives
the four characters of the alphabet at its four 6-bit indices, with `=` in the places of the bytes
that are not there. So it loses nothing, two sequences with the same text being equal, and the text
holds only the 64 characters of the alphabet and `=`. -/
def Obligations.Base64IsInjectiveAndInItsAlphabet : Prop :=
  (∀ (d : List Byte) (i : Nat), 3 * i < d.length →
    let g := (d.drop (3 * i)).take 3
    let v := beInt (g ++ List.replicate (3 - g.length) 0)
    let char := fun n => base64Alphabet.getD n 0
    ((b64 d).drop (4 * i)).take 4 =
      [char (v / 2 ^ 18), char (v / 2 ^ 12 % 64),
        (if g.length = 1 then 0x3d else char (v / 2 ^ 6 % 64)),
        (if g.length < 3 then 0x3d else char (v % 64))]) ∧
  (∀ d : List Byte, (b64 d).length = 4 * ((d.length + 2) / 3)) ∧
  (∀ d e : List Byte, b64 d = b64 e → d = e) ∧
  ∀ (d : List Byte) (c : Byte), c ∈ b64 d → c ∈ base64Alphabet ∨ c = 0x3d

/-- AESCBC (R136): the two LEN checks in their order, and the success, which stores the CBC ciphertext of the
padded `IBUF[0..ILEN)` (R133) in `OBUF[0..clen(ILEN))`, sets `OLEN`, and changes nothing else. -/
def Obligations.AescbcEncryptsOrReportsLen : Prop :=
  ∀ s : State, let n := s.ilen.toNat
    let input := (List.range n).map fun i => s.bufByte (0x10000 + i)
    (s.cfg.ibufCap < n → exec .aescbc s = .next (s.lenReport 0)) ∧
    (n ≤ s.cfg.ibufCap → s.cfg.obufCap < clen n →
      exec .aescbc s = .next (s.lenReport (BitVec.ofNat 32 (clen n)))) ∧
    (n ≤ s.cfg.ibufCap → clen n ≤ s.cfg.obufCap →
      ∃ t, exec .aescbc s = .next t ∧
        t = State.ok { s with mem := t.mem, olen := BitVec.ofNat 32 (clen n) } ∧
        t.olen.toNat = clen n ∧
        (∀ i, i < clen n →
          t.mem.read (0x20000 + i) = (cbcEncrypt s.akey s.aiv (pad input))[i]?) ∧
        ∀ a, ¬ (0x20000 ≤ a ∧ a < 0x20000 + clen n) →
          t.mem.read a = s.mem.read a ∧ t.bufByte a = s.bufByte a)

/-- DBLENC (R138): the two LEN checks, and the success, which stores the two passes of R137 over
`IBUF[0..ILEN)`, the fixed key's and then `KEY`'s, each with the fixed `IV` and base64 after it, in `OBUF[0..dlen(ILEN))`, sets `OLEN`, and changes nothing else. -/
def Obligations.DblencEncryptsOrReportsLen : Prop :=
  ∀ s : State, let n := s.ilen.toNat
    let input := (List.range n).map fun i => s.bufByte (0x10000 + i)
    let stage1 := b64 (cbcEncrypt nonce fixedIv (pad input))
    let stage2 := b64 (cbcEncrypt s.key fixedIv (pad stage1))
    (s.cfg.ibufCap < n → exec .dblenc s = .next (s.lenReport 0)) ∧
    (n ≤ s.cfg.ibufCap → s.cfg.obufCap < dlen n →
      exec .dblenc s = .next (s.lenReport (BitVec.ofNat 32 (dlen n)))) ∧
    (n ≤ s.cfg.ibufCap → dlen n ≤ s.cfg.obufCap →
      ∃ t, exec .dblenc s = .next t ∧
        t = State.ok { s with mem := t.mem, olen := BitVec.ofNat 32 (dlen n) } ∧
        t.olen.toNat = dlen n ∧
        (∀ i, i < dlen n → t.mem.read (0x20000 + i) = stage2[i]?) ∧
        ∀ a, ¬ (0x20000 ≤ a ∧ a < 0x20000 + dlen n) →
          t.mem.read a = s.mem.read a ∧ t.bufByte a = s.bufByte a)

/-- The result of DBLENC depends only on `IBUF[0..ILEN)` and `KEY` (R138): two devices of the same
capacities that agree on these give the same output, whatever else they hold. -/
def Obligations.DblencDependsOnlyOnInputAndKey : Prop :=
  ∀ s t s' t' : State,
    s.ilen = t.ilen → s.key = t.key →
    s.cfg.ibufCap = t.cfg.ibufCap → s.cfg.obufCap = t.cfg.obufCap →
    (∀ i, i < s.ilen.toNat → s.bufByte (ibufBase + i) = t.bufByte (ibufBase + i)) →
    exec .dblenc s = .next s' → exec .dblenc t = .next t' → s'.err = 0 →
    t'.err = 0 ∧ t'.olen = s'.olen ∧
      ∀ i, i < s'.olen.toNat → t'.mem.read (obufBase + i) = s'.mem.read (obufBase + i)

/-! ### The request sequencer -/

/-- KEYGEN (R150 R151): `KEY` becomes sixteen digits or letters, and nothing else changes. Which
ones they are is free: no claim may rest on it (DESIGN CHOICE, log 5). -/
def Obligations.KeygenDrawsAnAlphanumericKey : Prop :=
  ∀ s : State, ∃ t, exec .keygen s = .next t ∧
    (∀ i, i < 16 →
      (0x30 ≤ (byteOf t.key i).toNat ∧ (byteOf t.key i).toNat ≤ 0x39) ∨
      (0x41 ≤ (byteOf t.key i).toNat ∧ (byteOf t.key i).toNat ≤ 0x5a) ∨
      (0x61 ≤ (byteOf t.key i).toNat ∧ (byteOf t.key i).toNat ≤ 0x7a)) ∧
    t = State.ok { s with key := t.key, draws := t.draws }

/-- ENCRYPT, both forms (R152): the LEN checks before anything else, so that a failing command draws
no key; else the two passes of R137 over the input, the fixed key's and then that of the key `KEY`
then holds, in `OBUF`, the key's encoding in `ESK`, and nothing else changed. -/
def Obligations.EncryptWritesBothHalvesOrReportsLen : Prop :=
  ∀ (s : State) (g : Bool), let n := s.ilen.toNat
    let input := (List.range n).map fun i => s.bufByte (0x10000 + i)
    let stage1 := b64 (cbcEncrypt nonce fixedIv (pad input))
    (s.cfg.ibufCap < n → exec (.encrypt g) s = .next (s.lenReport 0)) ∧
    (n ≤ s.cfg.ibufCap → s.cfg.obufCap < dlen n →
      exec (.encrypt g) s = .next (s.lenReport (BitVec.ofNat 32 (dlen n)))) ∧
    (n ≤ s.cfg.ibufCap → dlen n ≤ s.cfg.obufCap →
      ∃ t, exec (.encrypt g) s = .next t ∧
        (g = false → t.key = s.key ∧ t.draws = s.draws) ∧
        (g = true → ∀ i, i < 16 → isAlnum (byteOf t.key i) = true) ∧
        (∀ i, i < dlen n →
          t.mem.read (0x20000 + i) = (b64 (cbcEncrypt t.key fixedIv (pad stage1)))[i]?) ∧
        (∀ a, ¬ (0x20000 ≤ a ∧ a < 0x20000 + dlen n) →
          t.mem.read a = s.mem.read a ∧ t.bufByte a = s.bufByte a) ∧
        t.olen.toNat = dlen n ∧
        t.esk.toNat = (beInt (bytes16 t.key).reverse) ^ 65537 % s.cfg.nModulus ∧
        t = State.ok { s with
          mem := t.mem, olen := BitVec.ofNat 32 (dlen n), esk := t.esk, key := t.key,
          draws := t.draws })

/-- ENCRYPT with g = 0 has exactly the effect of DBLENC followed by ENCKEY, when the input fits
(R152). -/
def Obligations.EncryptIsDblencThenEnckey : Prop :=
  ∀ s : State, s.ilen.toNat ≤ s.cfg.ibufCap → dlen s.ilen.toNat ≤ s.cfg.obufCap →
    ∃ t u, exec .dblenc s = .next t ∧ exec .enckey t = .next u ∧
      exec (.encrypt false) s = .next u

/-- When the input fits (R89): ENCRYPT with g = 1 ends in the state of ENCRYPT with g = 0 on the key
it leaves in `KEY`; and KEYGEN followed by ENCRYPT with g = 0 ends in the state of ENCRYPT with
g = 1 FOR THE SAME DRAWS. That the two runs draw the same key is the model's choice (DESIGN CHOICE,
log 5: both read the free draws at the same counter), not R89's: R9 relates no two draws. -/
def Obligations.GeneratingEncryptIsKeygenThenEncrypt : Prop :=
  ∀ s : State, s.ilen.toNat ≤ s.cfg.ibufCap → dlen s.ilen.toNat ≤ s.cfg.obufCap →
    ∃ t u, exec .keygen s = .next t ∧ exec (.encrypt false) t = .next u ∧
      exec (.encrypt true) s = .next u ∧
      exec (.encrypt false) { s with key := u.key, draws := u.draws } = .next u

/-! ### The presence table -/

/-- The six table commands other than PTINIT report `STATE` and do nothing else while there is no
table, whatever their operands are (R205). -/
def Obligations.TableCommandsNeedATable : Prop :=
  ∀ (s : State) (i : Instr), i ∈ [Instr.ptalloc, .pttest, .ptset, .pttas, .ptdump, .ptload] →
    s.ptrdy = false → exec i s = .next (s.report 4 0 0 0 0 0)

/-- PTINIT (R161): `STATE` when a table exists, `SHAPE` when the shape is not legal (the two
parameters stay writable), else an empty table of the shape's derived values, which the registers
hold without wrapping; from then on a write to the parameters is a bus error. -/
def Obligations.PtinitBuildsAnEmptyTableOrReports : Prop :=
  ∀ s : State, let L := s.ptLength.toNat; let S := s.ptSprefix.toNat
    (s.ptrdy = true → exec .ptinit s = .next (s.report 4 1 0 0 0 0)) ∧
    (s.ptrdy = false → ¬ (S ≤ 4 ∧ S ≤ L ∧ L - S ≤ 10) →
      exec .ptinit s = .next (s.report 5 s.ptLength s.ptSprefix 0 0 0) ∧
      Writable (s.report 5 s.ptLength s.ptSprefix 0 0 0) 0x30 ∧
      Writable (s.report 5 s.ptLength s.ptSprefix 0 0 0) 0x34) ∧
    (s.ptrdy = false → S ≤ 4 → S ≤ L → L - S ≤ 10 →
      ∃ t, exec .ptinit s = .next t ∧
        t.ptBcount.toNat = 10 ^ S ∧ t.ptBbits.toNat = 10 ^ (L - S) ∧
        t.ptBbytes.toNat = (10 ^ (L - S) + 7) / 8 ∧
        (∀ blk, t.slot blk = none) ∧ t.nalloc = 0 ∧ t.ptrdy = true ∧
        t = State.ok { s with
          ptBcount := t.ptBcount, ptBbits := t.ptBbits, ptBbytes := t.ptBbytes, slots := [],
          ptrdy := true } ∧
        ∀ a v : Word, a = 0x30 ∨ a = 0x34 →
          perform (.memWrite a v) t = .next { t with trace := .busError :: t.trace })

/-- PTALLOC (R165): `STATE`, `RANGE`, `NOMEM`, an allocated slot left exactly as it is, or a slot
that was unallocated now holding a buffer of zeros; nothing else changes. -/
def Obligations.PtallocAllocatesOneBlockOrReports : Prop :=
  ∀ s : State, let blk := s.ptArg.toNat
    (s.ptrdy = false → exec .ptalloc s = .next (s.report 4 0 0 0 0 0)) ∧
    (s.ptrdy = true → s.ptBcount.toNat ≤ blk → exec .ptalloc s = .next s.rangeReport) ∧
    (s.ptrdy = true → blk < s.ptBcount.toNat → s.slot blk ≠ none →
      exec .ptalloc s = .next s.ok) ∧
    (s.ptrdy = true → blk < s.ptBcount.toNat → s.slot blk = none → ¬ s.HasRoom →
      exec .ptalloc s = .next (s.report 8 0 (BitVec.ofNat 32 blk) 0 0 0)) ∧
    (s.ptrdy = true → blk < s.ptBcount.toNat → s.slot blk = none → s.HasRoom →
      ∃ t b, exec .ptalloc s = .next t ∧ t.slot blk = some b ∧ (∀ i, b.read i = 0) ∧
        (∀ c, c ≠ blk → t.slot c = s.slot c) ∧ t.nalloc = s.nalloc + 1 ∧
        t = State.ok { s with slots := t.slots })

/-- PTTEST (R166): `STATE`, `RANGE`, or the id's bit in `RESULT`, 0 when its block is unallocated;
nothing else changes. -/
def Obligations.PttestReadsTheBitOrReports : Prop :=
  ∀ s : State, let id := s.ptArg.toNat
    (s.ptrdy = false → exec .pttest s = .next (s.report 4 0 0 0 0 0)) ∧
    (s.ptrdy = true → s.ptBcount.toNat * s.ptBbits.toNat ≤ id →
      exec .pttest s = .next s.rangeReport) ∧
    (s.ptrdy = true → id < s.ptBcount.toNat * s.ptBbits.toNat →
      exec .pttest s = .next (State.ok { s with result := if s.idBit id then 1 else 0 }))

/-- PTSET (R167): `STATE`, `RANGE`, `NOMEM`, or the id's block allocated and the id's bit set, with
every other bit and every other slot as before; nothing else changes. -/
def Obligations.PtsetSetsOneBitOrReports : Prop :=
  ∀ s : State, let id := s.ptArg.toNat; let blk := id / s.ptBbits.toNat
    (s.ptrdy = false → exec .ptset s = .next (s.report 4 0 0 0 0 0)) ∧
    (s.ptrdy = true → s.ptBcount.toNat * s.ptBbits.toNat ≤ id →
      exec .ptset s = .next s.rangeReport) ∧
    (s.ptrdy = true → id < s.ptBcount.toNat * s.ptBbits.toNat → s.slot blk = none → ¬ s.HasRoom →
      exec .ptset s = .next (s.report 8 0 (BitVec.ofNat 32 blk) 0 0 0)) ∧
    (s.ptrdy = true → id < s.ptBcount.toNat * s.ptBbits.toNat → (s.slot blk ≠ none ∨ s.HasRoom) →
      ∃ t, exec .ptset s = .next t ∧ t.slot blk ≠ none ∧ t.idBit id = true ∧
        (∀ c i k, k < 8 →
          (c, i, k) ≠ (blk, id % s.ptBbits.toNat / 8, 7 - id % s.ptBbits.toNat % 8) →
          t.bitAt c i k = s.bitAt c i k) ∧
        (∀ c, c ≠ blk → t.slot c = s.slot c) ∧
        t = State.ok { s with slots := t.slots })

/-- PTTAS (R168): `STATE`, `RANGE`, `NOMEM`, or the id's prior bit in `RESULT`, its block allocated
and its bit set, with every other bit and slot as before; nothing else changes. -/
def Obligations.PttasTestsAndSetsOrReports : Prop :=
  ∀ s : State, let id := s.ptArg.toNat; let blk := id / s.ptBbits.toNat
    (s.ptrdy = false → exec .pttas s = .next (s.report 4 0 0 0 0 0)) ∧
    (s.ptrdy = true → s.ptBcount.toNat * s.ptBbits.toNat ≤ id →
      exec .pttas s = .next s.rangeReport) ∧
    (s.ptrdy = true → id < s.ptBcount.toNat * s.ptBbits.toNat → s.slot blk = none → ¬ s.HasRoom →
      exec .pttas s = .next (s.report 8 0 (BitVec.ofNat 32 blk) 0 0 0)) ∧
    (s.ptrdy = true → id < s.ptBcount.toNat * s.ptBbits.toNat → (s.slot blk ≠ none ∨ s.HasRoom) →
      ∃ t, exec .pttas s = .next t ∧ t.slot blk ≠ none ∧ t.idBit id = true ∧
        (∀ c i k, k < 8 →
          (c, i, k) ≠ (blk, id % s.ptBbits.toNat / 8, 7 - id % s.ptBbits.toNat % 8) →
          t.bitAt c i k = s.bitAt c i k) ∧
        (∀ c, c ≠ blk → t.slot c = s.slot c) ∧
        t = State.ok { s with slots := t.slots, result := if s.idBit id then 1 else 0 })

/-- PTTAS has the same effect on the block store as PTSET and the same `RESULT` as a PTTEST issued
just before it (R168). -/
def Obligations.PttasIsPttestAndPtset : Prop :=
  ∀ s t u v : State, exec .pttas s = .next t → exec .ptset s = .next u → exec .pttest s = .next v →
    t.err = 0 → t.slots = u.slots ∧ t.result = v.result ∧ u.err = 0 ∧ v.err = 0

/-- A second PTSET of the same id changes nothing (R167). -/
def Obligations.PtsetIsIdempotent : Prop :=
  ∀ s t : State, s.Inv → exec .ptset s = .next t → t.err = 0 → exec .ptset t = .next t

/-- Different ids of the table have different bits, and every id's bit lies inside its block (R162):
no two ids share a bit. -/
def Obligations.DifferentIdsHaveDifferentBits : Prop :=
  ∀ bcount bbits a b : Nat, a < bcount * bbits → b < bcount * bbits →
    (locate bbits a = locate bbits b → a = b) ∧
    (locate bbits a).blk < bcount ∧ (locate bbits a).byteIdx < (bbits + 7) / 8 ∧
    (locate bbits a).mask.toNat = 2 ^ (7 - a % bbits % 8)

/-- After PTSET or PTTAS of an id, PTTEST of it gives 1, and PTTEST of any other id in range gives
what it gave before (R170). -/
def Obligations.SetThenTestSeesExactlyThatId : Prop :=
  ∀ (s t : State) (i : Instr) (b : DWord), i = .ptset ∨ i = .pttas → exec i s = .next t →
    t.err = 0 → b.toNat < s.ptBcount.toNat * s.ptBbits.toNat →
    ∃ u v, exec .pttest { t with ptArg := b } = .next u ∧
      exec .pttest { s with ptArg := b } = .next v ∧ u.err = 0 ∧ v.err = 0 ∧
      (b = s.ptArg → u.result = 1) ∧ (b ≠ s.ptArg → u.result = v.result)

/-- PTALLOC, PTSET and PTTAS never deallocate a slot and never clear a bit; PTTEST and PTDUMP change
no slot (R164). -/
def Obligations.SlotsAndBitsAreOneWay : Prop :=
  ∀ (s t : State) (i : Instr), exec i s = .next t →
    (i ∈ [Instr.ptalloc, .ptset, .pttas] →
      (∀ blk, s.slot blk ≠ none → t.slot blk ≠ none) ∧
      ∀ blk j k, s.bitAt blk j k = true → t.bitAt blk j k = true) ∧
    (i ∈ [Instr.pttest, .ptdump] → t.slots = s.slots)

/-- PTSET, PTTAS and PTALLOC never set an unused tail bit (R169). -/
def Obligations.TailBitsAreNeverSet : Prop :=
  ∀ (s t : State) (i : Instr), i ∈ [Instr.ptalloc, .ptset, .pttas] → s.TailClear →
    exec i s = .next t → t.TailClear

/-! ### The binary image -/

/-- PTDUMP (R183): with a table it appends the image to `SNK` (the header, then for each block a flag
byte and, when allocated, exactly `PT_BBYTES` bytes in buffer order), puts the count of content
bytes into `RESULT`, and changes nothing else; without one it reports `STATE`. -/
def Obligations.PtdumpAppendsTheImageOrReports : Prop :=
  ∀ s : State,
    (s.ptrdy = false → exec .ptdump s = .next (s.report 4 0 0 0 0 0)) ∧
    (s.ptrdy = true →
      ∃ rs : List Record,
        rs = (List.range s.ptBcount.toNat).map (fun i =>
          (s.slot i).map fun b => (List.range s.ptBbytes.toNat).map b.read) ∧
        exec .ptdump s = .next (State.ok { s with
          snk := s.snk ++ headerBytes s.ptBcount.toNat s.ptBbytes.toNat ++ rs.flatMap Record.bytes,
          result := BitVec.ofNat 64 (contentBytes s.ptBbytes.toNat rs) }))

/-- The length of the image PTDUMP appends is `6 + PT_BCOUNT + a * PT_BBYTES` for `a` allocated
blocks, and `RESULT` is `PT_NALLOC * PT_BBYTES` (R183 R188). -/
def Obligations.ImageLengthCountsTheAllocatedBlocks : Prop :=
  ∀ s : State, s.Inv → s.ptrdy = true →
    ∃ t, exec .ptdump s = .next t ∧
      t.snk.length = s.snk.length + 6 + s.ptBcount.toNat + s.nalloc * s.ptBbytes.toNat ∧
      t.result.toNat = s.nalloc * s.ptBbytes.toNat

/-- PTLOAD before the first record (R184 R185): `STATE` without a table, `SER` TRUNC when the stream
ends in the header, `SER` SHAPE when the header is another shape's; in none of them a slot changes. -/
def Obligations.PtloadRefusesABadHeader : Prop :=
  ∀ s : State,
    (s.ptrdy = false → exec .ptload s = .next (s.report 4 0 0 0 0 0)) ∧
    (s.ptrdy = true → s.src.length < 6 →
      exec .ptload s = .next (State.report { s with src := [] } 7 2 0xFFFFFFFF 6
        (BitVec.ofNat 32 s.src.length) 0)) ∧
    (s.ptrdy = true → 6 ≤ s.src.length →
      (beInt (s.src.take 2) ≠ s.ptBcount.toNat ∨
        beInt ((s.src.drop 2).take 4) ≠ s.ptBbytes.toNat) →
      exec .ptload s = .next (State.report { s with src := s.src.drop 6 } 7 1 s.ptBcount s.ptBbytes
        (BitVec.ofNat 32 (beInt (s.src.take 2)))
        (BitVec.ofNat 32 (beInt ((s.src.drop 2).take 4)))))

/-- PTLOAD after a good header (R184 R185 R187). `rs` are the records it assigns in turn and `tail`
is the rest of the stream. When the records are all there, it succeeds and leaves the rest in `SRC`;
otherwise what follows decides: no byte (TRUNC at the flag), a flag that is neither 0 nor 1
(BADFLAG), too few content bytes (TRUNC in the content), or no room (`NOMEM`). The slots before the
failure stay assigned and the later ones are unchanged. -/
def Obligations.PtloadAssignsRecordsUpToTheFirstFailure : Prop :=
  ∀ (s t : State) (rs : List Record) (tail : List Byte), s.Inv → s.ptrdy = true →
    rs.length ≤ s.ptBcount.toNat → (∀ d, some d ∈ rs → d.length = s.ptBbytes.toNat) →
    s.assignRecords 0 rs = some t →
    s.src = headerBytes s.ptBcount.toNat s.ptBbytes.toNat ++ rs.flatMap Record.bytes ++ tail →
    let blk := BitVec.ofNat 32 rs.length
    (∀ j, (j < rs.length → t.slot j = ((rs.getD j none).map Block.ofBytes)) ∧
      (rs.length ≤ j → t.slot j = s.slot j)) ∧
    t = { s with slots := t.slots } ∧
    (rs.length = s.ptBcount.toNat →
      exec .ptload s = .next (State.ok { t with
        src := tail, result := BitVec.ofNat 64 (contentBytes s.ptBbytes.toNat rs) })) ∧
    (rs.length < s.ptBcount.toNat →
      (tail = [] →
        exec .ptload s = .next (State.report { t with src := [] } 7 2 blk 1 0 1)) ∧
      (∀ f rest, tail = f :: rest → f ≠ 0 → f ≠ 1 →
        exec .ptload s =
          .next (State.report { t with src := rest } 7 3 blk (f.setWidth 32) 0 0)) ∧
      (∀ d, tail = 1 :: d → d.length < s.ptBbytes.toNat →
        exec .ptload s = .next (State.report { t with src := [] } 7 2 blk s.ptBbytes
          (BitVec.ofNat 32 d.length) 2)) ∧
      (∀ d rest, tail = 1 :: (d ++ rest) → d.length = s.ptBbytes.toNat →
        t.slot rs.length = none → ¬ t.HasRoom →
        exec .ptload s = .next (State.report { t with src := rest } 8 0 blk 0 0 0)))

/-- PTLOAD of a whole image of this table's shape, in a device whose limit lets every block be
allocated (R184 R187): it succeeds, the set of allocated slots becomes exactly the set of records
with flag 1 and each buffer exactly the record's bytes, `RESULT` is the count of content bytes, the
bytes after the last record stay in `SRC`, and nothing else changes. -/
def Obligations.PtloadOfAWholeImageAssignsEverySlot : Prop :=
  ∀ (s : State) (rs : List Record) (tail : List Byte), s.Inv → s.ptrdy = true →
    rs.length = s.ptBcount.toNat → (∀ d, some d ∈ rs → d.length = s.ptBbytes.toNat) →
    (∀ m, s.cfg.ptMaxAlloc = some m → s.ptBcount.toNat ≤ m) →
    s.src = headerBytes s.ptBcount.toNat s.ptBbytes.toNat ++ rs.flatMap Record.bytes ++ tail →
    ∃ t, exec .ptload s = .next t ∧
      (∀ j, (t.slot j).map (fun b => (List.range s.ptBbytes.toNat).map b.read) = rs.getD j none) ∧
      t.result.toNat = contentBytes s.ptBbytes.toNat rs ∧ t.src = tail ∧
      t = State.ok { s with slots := t.slots, src := t.src, result := t.result }

/-- The round trip (R186): the image a PTDUMP of one table appends, with nothing before or after it,
loaded into a table of the same shape that has room for both tables' blocks together, makes its slots
equal to the first table's, with the `RESULT` PTDUMP gave, and a PTDUMP of the state PTLOAD leaves
appends the same image again. The premise on the limit is the model's reading of R186, whose "It
needs `PT_MAX_ALLOC` of the loading device to be at least the number of allocated blocks of T" is
only necessary: while records are assigned, blocks in the loading table's later slots still count
(R163 R184). What happens at a tighter limit is PtloadAssignsRecordsUpToTheFirstFailure's. -/
def Obligations.DumpThenLoadReproducesTheTable : Prop :=
  ∀ (s s' t : State) (image : List Byte),
    s.Inv → s'.Inv → s.ptrdy = true → s'.ptrdy = true →
    s'.ptBcount = s.ptBcount → s'.ptBbytes = s.ptBbytes →
    (∀ m, s'.cfg.ptMaxAlloc = some m → s.nalloc + s'.nalloc ≤ m) →
    exec .ptdump s = .next t → t.snk = s.snk ++ image → s'.src = image →
    ∃ l u, exec .ptload s' = .next l ∧
      l = State.ok { s' with slots := s.slots, src := [], result := t.result } ∧
      exec .ptdump l = .next u ∧ u.snk = l.snk ++ image ∧ u.result = t.result

/-! ### Whole-machine rules -/

/-- Every command but PTLOAD that ends in an error leaves the state as it was except for the report;
PTLOAD's errors change, besides the report, only the slots and `SRC` (R204). -/
def Obligations.ErrorsArePrecise : Prop :=
  ∀ (s t : State) (i : Instr), exec i s = .next t → t.err ≠ 0 →
    (i ≠ .ptload → t = s.report t.err t.einfo0 t.einfo1 t.einfo2 t.einfo3 t.einfo4) ∧
    (i = .ptload → t = State.report { s with slots := t.slots, src := t.src }
      t.err t.einfo0 t.einfo1 t.einfo2 t.einfo3 t.einfo4)

/-- Every command writes only the registers the table of R20 gives it: the operand registers are
never written, every result register only by its own commands, and no byte of `IBUF` by any. -/
def Obligations.CommandsWriteOnlyTheirOwnRegisters : Prop :=
  ∀ (s t : State) (i : Instr), exec i s = .next t →
    (t.ilen = s.ilen ∧ t.mpBase = s.mpBase ∧ t.mpExp = s.mpExp ∧ t.mpMod = s.mpMod ∧
      t.akey = s.akey ∧ t.aiv = s.aiv ∧ t.ptLength = s.ptLength ∧ t.ptSprefix = s.ptSprefix ∧
      t.ptArg = s.ptArg ∧ t.cfg = s.cfg ∧ t.epoch = s.epoch ∧ t.pending = s.pending ∧
      t.trace = s.trace) ∧
    (∀ a, a < obufBase → t.mem.read a = s.mem.read a) ∧
    (i ≠ .modpow → t.mpRes = s.mpRes) ∧
    (i ≠ .enckey → (∀ g, i ≠ .encrypt g) → t.esk = s.esk) ∧
    (i ≠ .keygen → i ≠ .encrypt true → t.key = s.key ∧ t.draws = s.draws) ∧
    (i ≠ .aescbc → i ≠ .dblenc → (∀ g, i ≠ .encrypt g) → t.mem = s.mem ∧ t.olen = s.olen) ∧
    (i ∉ [Instr.pttest, .pttas, .ptdump, .ptload] → t.result = s.result) ∧
    (i ≠ .ptinit → t.ptrdy = s.ptrdy ∧ t.ptBcount = s.ptBcount ∧ t.ptBbits = s.ptBbits ∧
      t.ptBbytes = s.ptBbytes) ∧
    (i ∉ [Instr.ptinit, .ptalloc, .ptset, .pttas, .ptload] → t.slots = s.slots) ∧
    (i ≠ .ptload → t.src = s.src) ∧ (i ≠ .ptdump → t.snk = s.snk)
end

