-- ==== Sys2Proof/Laws/Bytes.lean ====
section
/-! SUPPORT. The laws of byte and bit orders: words and bytes of a register, byte sequences as
integers, and 16-byte registers as byte sequences. -/

namespace Sys2Proof.Machine

/-! ### Byte sequences as integers -/

theorem leInt_lt (s : List Byte) : leInt s < 256 ^ s.length := by
  induction s with
  | nil => simp [leInt]
  | cons b bs ih =>
    simp only [leInt, List.length_cons, Nat.pow_succ]
    have := b.isLt
    omega

theorem beInt_append (s t : List Byte) : beInt (s ++ t) = beInt s * 256 ^ t.length + beInt t := by
  have key : ∀ (t : List Byte) (n : Nat), t.foldl (fun n b => n * 256 + b.toNat) n
      = n * 256 ^ t.length + t.foldl (fun n b => n * 256 + b.toNat) 0 := by
    intro t
    induction t with
    | nil => simp
    | cons b bs ih =>
      intro n
      rw [List.foldl_cons, List.foldl_cons, ih, ih (0 * 256 + b.toNat), List.length_cons, Nat.pow_succ]
      ring
  unfold beInt
  rw [List.foldl_append, key]

/-- Reversing a sequence exchanges the two byte orders, R60. -/
theorem beInt_reverse (s : List Byte) : beInt s.reverse = leInt s := by
  induction s with
  | nil => rfl
  | cons b bs ih =>
    rw [List.reverse_cons, beInt_append, ih, leInt]
    simp [beInt]
    ring

@[simp] theorem length_leBytes (k v : Nat) : (leBytes k v).length = k := by
  induction k generalizing v with
  | zero => rfl
  | succ k ih => simp [leBytes, ih]

@[simp] theorem length_beBytes (k v : Nat) : (beBytes k v).length = k := by simp [beBytes]

theorem leInt_leBytes (k v : Nat) : leInt (leBytes k v) = v % 256 ^ k := by
  induction k generalizing v with
  | zero => simp [leBytes, leInt, Nat.mod_one]
  | succ k ih =>
    rw [leBytes, leInt, ih, BitVec.toNat_ofNat, show 256 ^ (k + 1) = 256 * 256 ^ k by ring,
      Nat.mod_mul]

/-- Writing a number out big-endian and reading it back. -/
theorem beInt_beBytes (k v : Nat) : beInt (beBytes k v) = v % 256 ^ k := by
  rw [beBytes, beInt_reverse, leInt_leBytes]

/-! ### Words of a register -/

theorem getLsbD_setWord {w : Nat} (x : BitVec w) (k : Nat) (v : Word) (i : Nat) (hi : i < w) :
    (setWord x k v).getLsbD i =
      if 32 * k ≤ i ∧ i < 32 * k + 32 then v.getLsbD (i - 32 * k) else x.getLsbD i := by
  unfold setWord
  simp only [BitVec.getLsbD_or, BitVec.getLsbD_and, BitVec.getLsbD_not, BitVec.getLsbD_shiftLeft,
    BitVec.getLsbD_setWidth, BitVec.getLsbD_allOnes, hi, decide_true, Bool.true_and]
  by_cases h1 : i < 32 * k
  · rw [if_neg (by omega)]; simp [h1]
  · have hlt : i - 32 * k < w := by omega
    by_cases h2 : i < 32 * k + 32
    · rw [if_pos ⟨by omega, h2⟩]
      simp [h1, hlt, show i - 32 * k < 32 by omega]
    · rw [if_neg (by omega)]
      simp [h1, hlt, show ¬ i - 32 * k < 32 by omega, BitVec.getLsbD_of_ge v (i - 32 * k) (by omega)]

/-- Reading the word just written. -/
theorem wordOf_setWord_same {w : Nat} (x : BitVec w) (k : Nat) (v : Word) (hk : 32 * k + 32 ≤ w) :
    wordOf (setWord x k v) k = v := by
  refine BitVec.eq_of_getLsbD_eq fun i hi => ?_
  rw [wordOf, BitVec.getLsbD_extractLsb', getLsbD_setWord _ _ _ _ (by omega), if_pos (by omega)]
  simp [hi]

/-- Reading another word than the one just written. -/
theorem wordOf_setWord_ne {w : Nat} (x : BitVec w) (k j : Nat) (v : Word) (h : j ≠ k) :
    wordOf (setWord x k v) j = wordOf x j := by
  refine BitVec.eq_of_getLsbD_eq fun i hi => ?_
  simp only [wordOf, BitVec.getLsbD_extractLsb', hi, decide_true, Bool.true_and]
  by_cases hw : 32 * j + i < w
  · rw [getLsbD_setWord _ _ _ _ hw, if_neg (by omega)]
  · rw [BitVec.getLsbD_of_ge _ _ (by omega), BitVec.getLsbD_of_ge _ _ (by omega)]

/-- Word `k` of an integer register as a number, R56. -/
theorem wordOf_eq_ofNat {w : Nat} (x : BitVec w) (k : Nat) :
    wordOf x k = BitVec.ofNat 32 (x.toNat / 2 ^ (32 * k)) := by
  apply BitVec.eq_of_toNat_eq
  rw [wordOf, BitVec.extractLsb'_toNat, BitVec.toNat_ofNat, Nat.shiftRight_eq_div_pow]

/-- Byte `i` of word `j` of a byte array, R55 R58. -/
theorem byteOf_wordOf {w : Nat} (x : BitVec w) (j i : Nat) (hi : i < 4) :
    byteOf (wordOf x j) i = byteOf x (4 * j + i) := by
  refine BitVec.eq_of_getLsbD_eq fun n hn => ?_
  simp only [byteOf, wordOf, BitVec.getLsbD_extractLsb', hn, decide_true, Bool.true_and,
    show 8 * i + n < 32 by omega]
  congr 1; omega

/-! ### Lanes -/

/-- Byte `i` of a word made of four lanes. -/
theorem byteOf_lanes (f : Nat → Byte) (a i : Nat) (hi : i < 4) : byteOf (lanes f a) i = f (a + i) := by
  refine BitVec.eq_of_getLsbD_eq fun j hj => ?_
  have h : ∀ n, byteOf (lanes f a) n = (lanes f a).extractLsb' (8 * n) 8 := fun _ => rfl
  rw [h, BitVec.getLsbD_extractLsb']
  simp only [lanes, BitVec.getLsbD_append, hj, decide_true, Bool.true_and]
  interval_cases i
  · simp [hj]
  · simp [hj, show ¬ 8 + j < 8 by omega]
  · simp [hj, show ¬ 16 + j < 8 by omega, show ¬ 16 + j - 8 < 8 by omega,
      show 16 + j - 8 - 8 = j by omega]
  · simp [show ¬ 24 + j < 8 by omega, show ¬ 24 + j - 8 < 8 by omega,
      show ¬ 24 + j - 8 - 8 < 8 by omega, show 24 + j - 8 - 8 - 8 = j by omega]

/-- Two words with the same four bytes are equal. -/
theorem word_ext_bytes {v w : Word} (h : ∀ i, i < 4 → byteOf v i = byteOf w i) : v = w := by
  refine BitVec.eq_of_getLsbD_eq fun j hj => ?_
  have := congrArg (fun b : Byte => b.getLsbD (j % 8)) (h (j / 8) (by omega))
  simpa [byteOf, BitVec.getLsbD_extractLsb', show j % 8 < 8 by omega,
    show 8 * (j / 8) + j % 8 = j by omega] using this

@[simp] theorem length_laneBytes (v : Word) : (laneBytes v).length = 4 := rfl

theorem laneBytes_getElem? (v : Word) (i : Nat) (hi : i < 4) :
    (laneBytes v)[i]? = some (byteOf v i) := by
  interval_cases i <;> rfl

/-! ### Sixteen-byte registers -/

@[simp] theorem length_bytes16 (x : Bytes16) : (bytes16 x).length = 16 := by simp [bytes16]

theorem getElem?_bytes16 (x : Bytes16) (i : Nat) (hi : i < 16) :
    (bytes16 x)[i]? = some (byteOf x i) := by simp [bytes16, hi]

theorem leInt_testBit (s : List Byte) (i : Nat) :
    (leInt s).testBit i = (s.getD (i / 8) 0).getLsbD (i % 8) := by
  induction s generalizing i with
  | nil => simp [leInt]
  | cons b bs ih =>
    have hb : b.toNat < 2 ^ 8 := b.isLt
    rw [leInt, Nat.add_comm, show 256 = 2 ^ 8 from rfl, Nat.testBit_two_pow_mul_add _ hb]
    split
    · rename_i h
      rw [show i / 8 = 0 by omega, show i % 8 = i by omega]
      rfl
    · rename_i h
      rw [ih, show i / 8 = (i - 8) / 8 + 1 by omega, show i % 8 = (i - 8) % 8 by omega]
      simp

/-- Byte `i` of the register that holds a byte sequence. -/
theorem byteOf_ofBytes16 (s : List Byte) (i : Nat) (hi : i < 16) :
    byteOf (ofBytes16 s) i = s.getD i 0 := by
  refine BitVec.eq_of_getLsbD_eq fun j hj => ?_
  rw [byteOf, BitVec.getLsbD_extractLsb', ofBytes16, BitVec.getLsbD_ofNat, leInt_testBit]
  simp [hj, show 8 * i + j < 128 by omega, show (8 * i + j) / 8 = i by omega,
    show (8 * i + j) % 8 = j by omega]

theorem bytes16_ofBytes16 (s : List Byte) (h : s.length = 16) : bytes16 (ofBytes16 s) = s := by
  refine List.ext_getElem (by simp [h]) fun i h1 h2 => ?_
  simp only [length_bytes16] at h1
  simp [bytes16, byteOf_ofBytes16 s i h1, List.getD_eq_getElem?_getD, List.getElem?_eq_getElem h2]

/-- Two sixteen-byte registers with the same bytes are equal. -/
theorem bytes16_ext {x y : Bytes16} (h : ∀ i, i < 16 → byteOf x i = byteOf y i) : x = y := by
  refine BitVec.eq_of_getLsbD_eq fun j hj => ?_
  have := congrArg (fun b : Byte => b.getLsbD (j % 8)) (h (j / 8) (by omega))
  simpa [byteOf, BitVec.getLsbD_extractLsb', show j % 8 < 8 by omega,
    show 8 * (j / 8) + j % 8 = j by omega] using this

theorem ofBytes16_bytes16 (x : Bytes16) : ofBytes16 (bytes16 x) = x :=
  bytes16_ext fun i hi => by
    rw [byteOf_ofBytes16 _ _ hi, List.getD_eq_getElem?_getD, getElem?_bytes16 x i hi]; rfl

/-- The bytes of a 16-byte register, read little-endian, are its value, R104. -/
theorem leInt_bytes16 (x : Bytes16) : leInt (bytes16 x) = x.toNat := by
  have h := congrArg BitVec.toNat (ofBytes16_bytes16 x)
  have hlt : leInt (bytes16 x) < 2 ^ 128 := by
    have := leInt_lt (bytes16 x)
    simpa using this
  rwa [ofBytes16, BitVec.toNat_ofNat, Nat.mod_eq_of_lt hlt] at h

end Sys2Proof.Machine
end

