-- ==== Sys2Proof/Laws/Aes.lean ====
section
/-! SUPPORT. The laws of AES-128 (41_symmetric.md R124 to R130): byte `i` of what each part of a
round gives, and the recursion of the key schedule. -/

namespace Sys2Proof.Machine

/-! ### The parts of a round -/

theorem byteOf_blockOf (f : Nat → Byte) (i : Nat) (hi : i < 16) : byteOf (blockOf f) i = f i := by
  rw [blockOf, byteOf_ofBytes16 _ _ hi]
  simp [List.getD_eq_getElem?_getD, hi]

theorem byteOf_xor {w : Nat} (x y : BitVec w) (i : Nat) :
    byteOf (x ^^^ y) i = byteOf x i ^^^ byteOf y i := BitVec.extractLsb'_xor ..

/-- SubBytes, R125. -/
theorem byteOf_subBytes (s : Bytes16) (i : Nat) (hi : i < 16) :
    byteOf (subBytes s) i = sbox (byteOf s i) := byteOf_blockOf _ _ hi

/-- ShiftRows, R126. -/
theorem byteOf_shiftRows (s : Bytes16) (i : Nat) (hi : i < 16) :
    byteOf (shiftRows s) i = byteOf s (i % 4 + 4 * ((i / 4 + i % 4) % 4)) := byteOf_blockOf _ _ hi

/-- MixColumns, R127: row `q` of column `c`. -/
theorem byteOf_mixColumns (s : Bytes16) (c q : Nat) (hc : c < 4) (hq : q < 4) :
    byteOf (mixColumns s) (4 * c + q) =
      mixRow (byteOf s (4 * c)) (byteOf s (4 * c + 1)) (byteOf s (4 * c + 2))
        (byteOf s (4 * c + 3)) q := by
  rw [mixColumns, byteOf_blockOf _ _ (by omega), show (4 * c + q) / 4 = c by omega,
    show (4 * c + q) % 4 = q by omega]

/-- AddRoundKey, R128. -/
theorem byteOf_addRoundKey (s rk : Bytes16) (i : Nat) :
    byteOf (addRoundKey s rk) i = byteOf s i ^^^ byteOf rk i := byteOf_xor s rk i

/-! ### The key schedule -/

/-- One turn of the key expansion puts one word behind the words made so far, R129. -/
theorem expandStep_reverse (ws : List Word) : (expandStep ws).reverse = ws.reverse ++
    [ws.getD 3 0 ^^^
      if ws.length % 4 = 0 then scheduleCore (ws.getD 0 0) (ws.length / 4) else ws.getD 0 0] := by
  rw [← List.reverse_cons]; rfl

/-- The words after `n` turns of the key expansion, oldest first. -/
def wordsAfter (k : Bytes16) (n : Nat) : List Word :=
  ((List.range n).foldl (fun ws _ => expandStep ws)
    [wordOf k 3, wordOf k 2, wordOf k 1, wordOf k 0]).reverse

theorem wordsAfter_zero (k : Bytes16) :
    wordsAfter k 0 = [wordOf k 0, wordOf k 1, wordOf k 2, wordOf k 3] := rfl

@[simp] theorem length_wordsAfter (k : Bytes16) (n : Nat) : (wordsAfter k n).length = n + 4 := by
  unfold wordsAfter
  induction n with
  | zero => rfl
  | succ n ih =>
    rw [List.range_succ, List.foldl_append]
    simp only [List.foldl_cons, List.foldl_nil, expandStep_reverse, List.length_append, ih]
    rfl

theorem wordsAfter_succ (k : Bytes16) (n : Nat) : wordsAfter k (n + 1) = wordsAfter k n ++
    [(wordsAfter k n).getD n 0 ^^^
      if (n + 4) % 4 = 0 then scheduleCore ((wordsAfter k n).getD (n + 3) 0) ((n + 4) / 4)
      else (wordsAfter k n).getD (n + 3) 0] := by
  have hlen := length_wordsAfter k n
  rw [wordsAfter, List.range_succ, List.foldl_append]
  simp only [List.foldl_cons, List.foldl_nil, expandStep_reverse]
  rw [wordsAfter, List.length_reverse] at hlen
  generalize hw : (List.range n).foldl (fun ws _ => expandStep ws)
    [wordOf k 3, wordOf k 2, wordOf k 1, wordOf k 0] = ws at hlen
  have hr : wordsAfter k n = ws.reverse := by rw [wordsAfter, hw]
  have hget : ∀ i, i < n + 4 → ws.reverse.getD i 0 = ws.getD (n + 3 - i) 0 := fun i hi => by
    rw [List.getD_eq_getElem?_getD, List.getElem?_reverse (by omega), hlen,
      List.getD_eq_getElem?_getD]
    congr 2
  rw [hr, hget n (by omega), hget (n + 3) (by omega), hlen, show n + 3 - n = 3 by omega,
    show n + 3 - (n + 3) = 0 by omega]

/-- A word once made stays, and word `i` is made from words `i - 4` and `i - 1`, R129. -/
theorem wordsAfter_getD (k : Bytes16) (n : Nat) :
    (∀ i, i < 4 → (wordsAfter k n).getD i 0 = wordOf k i) ∧
    ∀ i, 4 ≤ i → i < n + 4 → (wordsAfter k n).getD i 0 = (wordsAfter k n).getD (i - 4) 0 ^^^
      if i % 4 = 0 then scheduleCore ((wordsAfter k n).getD (i - 1) 0) (i / 4)
      else (wordsAfter k n).getD (i - 1) 0 := by
  induction n with
  | zero =>
    refine ⟨fun i hi => ?_, fun i h4 hi => absurd hi (by omega)⟩
    rw [wordsAfter_zero]
    interval_cases i <;> rfl
  | succ n ih =>
    have hold : ∀ i, i < n + 4 → (wordsAfter k (n + 1)).getD i 0 = (wordsAfter k n).getD i 0 :=
      fun i hi => by
        rw [wordsAfter_succ, List.getD_append _ _ _ _ (by rw [length_wordsAfter]; omega)]
    refine ⟨fun i hi => by rw [hold i (by omega), ih.1 i hi], fun i h4 hi => ?_⟩
    rw [hold (i - 4) (by omega), hold (i - 1) (by omega)]
    by_cases h : i < n + 4
    · rw [hold i h, ih.2 i h4 h]
    · obtain rfl : i = n + 4 := by omega
      rw [wordsAfter_succ, List.getD_append_right _ _ _ _ (by rw [length_wordsAfter]),
        length_wordsAfter, show n + 4 - (n + 4) = 0 by omega, show n + 4 - 4 = n by omega,
        show n + 4 - 1 = n + 3 by omega]
      rfl

/-- The first four words are the key, R129. -/
theorem keyWords_key (k : Bytes16) (i : Nat) (hi : i < 4) : (keyWords k).getD i 0 = wordOf k i :=
  (wordsAfter_getD k 40).1 i hi

/-- Every later word by the rule of R129. -/
theorem keyWords_next (k : Bytes16) (i : Nat) (h4 : 4 ≤ i) (hi : i < 44) :
    (keyWords k).getD i 0 = (keyWords k).getD (i - 4) 0 ^^^
      if i % 4 = 0 then scheduleCore ((keyWords k).getD (i - 1) 0) (i / 4)
      else (keyWords k).getD (i - 1) 0 :=
  (wordsAfter_getD k 40).2 i h4 hi

/-- The core of the schedule byte by byte, R129. -/
theorem byteOf_scheduleCore (t : Word) (i j : Nat) (hj : j < 4) :
    byteOf (scheduleCore t i) j =
      if j = 0 then sbox (byteOf t 1) ^^^ rcon i else sbox (byteOf t ((j + 1) % 4)) := by
  rw [scheduleCore, byteOf_lanes _ _ _ hj, Nat.zero_add]

/-- Byte `i` of round key `r` is byte `i mod 4` of word `4r + i div 4`, R129. -/
theorem byteOf_roundKey (ws : List Word) (r i : Nat) (hi : i < 16) :
    byteOf (roundKey ws r) i = byteOf (ws.getD (4 * r + i / 4) 0) (i % 4) := by
  refine BitVec.eq_of_getLsbD_eq fun n hn => ?_
  have h : ∀ m, byteOf (roundKey ws r) m = (roundKey ws r).extractLsb' (8 * m) 8 := fun _ => rfl
  rw [h, byteOf, BitVec.getLsbD_extractLsb', BitVec.getLsbD_extractLsb']
  simp only [roundKey, BitVec.getLsbD_append, hn, decide_true, Bool.true_and]
  obtain ⟨c, q, hc, hq, rfl⟩ : ∃ c q, c < 4 ∧ q < 4 ∧ i = 4 * c + q :=
    ⟨i / 4, i % 4, by omega, by omega, by omega⟩
  rw [show (4 * c + q) / 4 = c by omega, show (4 * c + q) % 4 = q by omega]
  interval_cases c
  · simp [show 8 * q + n < 32 by omega]
  · simp [show ¬ 8 * (4 * 1 + q) + n < 32 by omega, show 8 * (4 * 1 + q) + n - 32 = 8 * q + n by omega,
      show 8 * q + n < 32 by omega]
  · simp [show ¬ 8 * (4 * 2 + q) + n < 32 by omega, show ¬ 8 * (4 * 2 + q) + n - 32 < 32 by omega,
      show 8 * (4 * 2 + q) + n - 32 - 32 = 8 * q + n by omega, show 8 * q + n < 32 by omega]
  · simp [show ¬ 8 * (4 * 3 + q) + n < 32 by omega, show ¬ 8 * (4 * 3 + q) + n - 32 < 32 by omega,
      show ¬ 8 * (4 * 3 + q) + n - 32 - 32 < 32 by omega,
      show 8 * (4 * 3 + q) + n - 32 - 32 - 32 = 8 * q + n by omega]

/-! ### The rounds -/

/-- The state after round `r` of R130; round 0 is the first AddRoundKey. -/
def aesState (k x : Bytes16) : Nat → Bytes16
  | 0 => addRoundKey x (roundKey (keyWords k) 0)
  | r + 1 => aesRound (keyWords k) (aesState k x r) (r + 1)

/-- The cipher is the last round after nine full ones, R130. -/
theorem aes128_eq (k x : Bytes16) : aes128 k x =
    addRoundKey (shiftRows (subBytes (aesState k x 9))) (roundKey (keyWords k) 10) := rfl

/-- Row `q` of column `c` after a full round, R130. -/
theorem byteOf_aesState_succ (k x : Bytes16) (r c q : Nat) (hc : c < 4) (hq : q < 4) :
    let a := fun p => sbox (byteOf (aesState k x r) (p + 4 * ((c + p) % 4)))
    byteOf (aesState k x (r + 1)) (4 * c + q) =
      mixRow (a 0) (a 1) (a 2) (a 3) q ^^^ byteOf ((keyWords k).getD (4 * (r + 1) + c) 0) q := by
  have key : ∀ p, p < 4 → byteOf (shiftRows (subBytes (aesState k x r))) (4 * c + p) =
      sbox (byteOf (aesState k x r) (p + 4 * ((c + p) % 4))) := fun p hp => by
    rw [byteOf_shiftRows _ _ (by omega), show (4 * c + p) % 4 = p by omega,
      show (4 * c + p) / 4 = c by omega, byteOf_subBytes _ _ (by omega)]
  have key0 := key 0 (by omega)
  rw [Nat.add_zero] at key0
  rw [aesState, aesRound, byteOf_addRoundKey, byteOf_mixColumns _ _ _ hc hq, key0, key 1 (by omega),
    key 2 (by omega), key 3 (by omega), byteOf_roundKey _ _ _ (by omega),
    show (4 * c + q) / 4 = c by omega, show (4 * c + q) % 4 = q by omega]

end Sys2Proof.Machine
end

