-- ==== Sys2Proof/Laws/Assoc.lean ====
section
/-! SUPPORT. The laws of sparse maps: read after write, the canonical form, and that two canonical
maps that read alike are equal. -/

namespace Sys2Proof.Machine

variable {α : Type}

@[simp] theorem assocGet_nil (a : Nat) : assocGet ([] : List (Nat × α)) a = none := rfl

theorem assocGet_put (l : List (Nat × α)) (a : Nat) (x : α) (b : Nat) :
    assocGet (assocPut l a x) b = if b = a then some x else assocGet l b := by
  induction l with
  | nil => simp [assocPut, assocGet]
  | cons p r ih =>
    obtain ⟨k, y⟩ := p
    simp only [assocPut]
    split
    · simp [assocGet]
    · split
      · rename_i _ h
        subst h
        simp only [assocGet]
        split <;> rfl
      · rename_i _ h
        simp only [assocGet, ih]
        by_cases hb : b = k
        · subst hb; simp [Ne.symm h]
        · simp [hb]

@[simp] theorem assocGet_put_same (l : List (Nat × α)) (a : Nat) (x : α) :
    assocGet (assocPut l a x) a = some x := by simp [assocGet_put]

theorem assocGet_put_ne (l : List (Nat × α)) (x : α) {a b : Nat} (h : b ≠ a) :
    assocGet (assocPut l a x) b = assocGet l b := by simp [assocGet_put, h]

theorem assocGet_erase (l : List (Nat × α)) (a b : Nat) :
    assocGet (assocErase l a) b = if b = a then none else assocGet l b := by
  induction l with
  | nil => simp [assocErase]
  | cons p r ih =>
    obtain ⟨k, y⟩ := p
    unfold assocErase at ih ⊢
    by_cases hk : k = a
    · subst hk
      simp only [List.filter_cons, bne_self_eq_false, Bool.false_eq_true, if_false, ih, assocGet]
      split <;> simp_all
    · simp only [List.filter_cons, bne_iff_ne, ne_eq, hk, not_false_eq_true, if_true, assocGet, ih]
      by_cases hb : b = k
      · subst hb; simp [hk]
      · simp [hb]

@[simp] theorem assocGet_erase_same (l : List (Nat × α)) (a : Nat) :
    assocGet (assocErase l a) a = none := by simp [assocGet_erase]

theorem assocGet_erase_ne (l : List (Nat × α)) {a b : Nat} (h : b ≠ a) :
    assocGet (assocErase l a) b = assocGet l b := by simp [assocGet_erase, h]

theorem mem_of_assocGet {l : List (Nat × α)} {a : Nat} {x : α} (h : assocGet l a = some x) :
    (a, x) ∈ l := by
  induction l with
  | nil => simp at h
  | cons p r ih =>
    obtain ⟨k, y⟩ := p
    simp only [assocGet] at h
    split at h
    · rename_i hk; cases h; subst hk; simp
    · exact List.mem_cons_of_mem _ (ih h)

theorem assocGet_of_mem {l : List (Nat × α)} (hl : assocWf l) {a : Nat} {x : α} (h : (a, x) ∈ l) :
    assocGet l a = some x := by
  induction l with
  | nil => simp at h
  | cons p r ih =>
    obtain ⟨k, y⟩ := p
    obtain ⟨hlt, hr⟩ := List.pairwise_cons.mp hl
    simp only [assocGet]
    rcases List.mem_cons.mp h with h | h
    · cases h; simp
    · have hka := hlt _ h
      rw [if_neg (Nat.ne_of_gt hka)]
      exact ih hr h

theorem mem_assocPut {l : List (Nat × α)} {a : Nat} {x : α} {p : Nat × α}
    (h : p ∈ assocPut l a x) : p = (a, x) ∨ p ∈ l := by
  induction l with
  | nil => simpa [assocPut] using h
  | cons q r ih =>
    obtain ⟨k, y⟩ := q
    simp only [assocPut] at h
    split at h
    · simpa using h
    · split at h
      · rcases List.mem_cons.mp h with h | h
        · exact .inl h
        · exact .inr (List.mem_cons_of_mem _ h)
      · rcases List.mem_cons.mp h with h | h
        · exact .inr (h ▸ List.mem_cons_self)
        · exact (ih h).imp_right (List.mem_cons_of_mem _)

theorem mem_assocErase {l : List (Nat × α)} {a : Nat} {p : Nat × α} (h : p ∈ assocErase l a) :
    p ∈ l := (List.mem_filter.mp h).1

theorem assocWf_put {l : List (Nat × α)} (hl : assocWf l) (a : Nat) (x : α) :
    assocWf (assocPut l a x) := by
  induction l with
  | nil => simp [assocPut, assocWf]
  | cons q r ih =>
    obtain ⟨k, y⟩ := q
    obtain ⟨hlt, hr⟩ := List.pairwise_cons.mp hl
    simp only [assocPut]
    split
    · rename_i hak
      refine List.pairwise_cons.mpr ⟨fun p hp => ?_, hl⟩
      rcases List.mem_cons.mp hp with hp | hp
      · subst hp; exact hak
      · exact Nat.lt_trans hak (hlt p hp)
    · split
      · rename_i hak
        subst hak
        exact List.pairwise_cons.mpr ⟨fun p hp => hlt p hp, hr⟩
      · refine List.pairwise_cons.mpr ⟨fun p hp => ?_, ih hr⟩
        rcases mem_assocPut hp with hp | hp
        · subst hp; show k < a; omega
        · exact hlt p hp

theorem assocWf_erase {l : List (Nat × α)} (hl : assocWf l) (a : Nat) : assocWf (assocErase l a) :=
  List.Pairwise.filter _ hl

theorem assocGet_eq_none {l : List (Nat × α)} {a : Nat} (h : ∀ p ∈ l, p.1 ≠ a) :
    assocGet l a = none := by
  induction l with
  | nil => rfl
  | cons p r ih =>
    obtain ⟨k, y⟩ := p
    have hk : a ≠ k := fun hk => h (k, y) List.mem_cons_self hk.symm
    rw [assocGet, if_neg hk]
    exact ih fun p hp => h p (List.mem_cons_of_mem _ hp)

/-- Two canonical maps that read alike are equal. -/
theorem assoc_ext {l m : List (Nat × α)} (hl : assocWf l) (hm : assocWf m)
    (h : ∀ a, assocGet l a = assocGet m a) : l = m := by
  induction l generalizing m with
  | nil =>
    cases m with
    | nil => rfl
    | cons q t => have := h q.1; simp [assocGet] at this
  | cons p r ih =>
    obtain ⟨k, x⟩ := p
    cases m with
    | nil => have := h k; simp [assocGet] at this
    | cons q t =>
      obtain ⟨j, y⟩ := q
      obtain ⟨hlt, hr⟩ := List.pairwise_cons.mp hl
      obtain ⟨hlt', ht⟩ := List.pairwise_cons.mp hm
      have hkj : k = j := by
        rcases Nat.lt_trichotomy k j with hc | hc | hc
        · have hn : assocGet ((j, y) :: t) k = none := assocGet_eq_none fun p hp => by
            rcases List.mem_cons.mp hp with hp | hp
            · subst hp; exact Nat.ne_of_gt hc
            · exact Nat.ne_of_gt (Nat.lt_trans hc (hlt' p hp))
          have hk := h k
          rw [hn] at hk
          simp [assocGet] at hk
        · exact hc
        · have hn : assocGet ((k, x) :: r) j = none := assocGet_eq_none fun p hp => by
            rcases List.mem_cons.mp hp with hp | hp
            · subst hp; exact Nat.ne_of_gt hc
            · exact Nat.ne_of_gt (Nat.lt_trans hc (hlt p hp))
          have hj := h j
          rw [hn] at hj
          simp [assocGet] at hj
      subst hkj
      have hxy : x = y := by have := h k; simpa [assocGet] using this
      subst hxy
      congr 1
      refine ih hr ht fun a => ?_
      by_cases ha : a = k
      · subst ha
        rw [assocGet_eq_none fun p hp => Nat.ne_of_gt (hlt p hp),
          assocGet_eq_none fun p hp => Nat.ne_of_gt (hlt' p hp)]
      · have := h a
        simpa [assocGet, ha] using this

theorem length_assocPut_new {l : List (Nat × α)} {a : Nat} (x : α) (h : assocGet l a = none) :
    (assocPut l a x).length = l.length + 1 := by
  induction l with
  | nil => rfl
  | cons p r ih =>
    obtain ⟨k, y⟩ := p
    simp only [assocGet] at h
    split at h
    · cases h
    · rename_i hk
      simp only [assocPut, hk, if_false]
      split
      · simp
      · simp [ih h]

theorem length_assocPut_old {l : List (Nat × α)} (hl : assocWf l) {a : Nat} (x : α)
    (h : (assocGet l a).isSome = true) : (assocPut l a x).length = l.length := by
  induction l with
  | nil => simp at h
  | cons p r ih =>
    obtain ⟨k, y⟩ := p
    obtain ⟨hlt, hr⟩ := List.pairwise_cons.mp hl
    simp only [assocGet] at h
    simp only [assocPut]
    by_cases hk : a = k
    · subst hk; simp
    · rw [if_neg hk] at h
      obtain ⟨z, hz⟩ := Option.isSome_iff_exists.mp h
      have hka := hlt _ (mem_of_assocGet hz)
      rw [if_neg (Nat.not_lt_of_gt hka), if_neg hk]
      simp [ih hr h]

theorem length_assocErase_le (l : List (Nat × α)) (a : Nat) : (assocErase l a).length ≤ l.length :=
  List.length_filter_le _ _

end Sys2Proof.Machine
end

