-- ==== Sys2Proof/Laws/Memory.lean ====
section
/-! SUPPORT. The laws of the buffers and of block buffers: what a byte reads as after a write, and
that every memory operation keeps the canonical form. -/

namespace Sys2Proof.Machine

/-! ### IBUF and OBUF -/

@[simp] theorem Memory.read_nil (a : Nat) : Memory.read [] a = none := rfl

theorem Memory.read_write (m : Memory) (a : Nat) (b : Byte) (c : Nat) :
    (m.write a b).read c = if c = a then some b else m.read c := assocGet_put m a b c

theorem Memory.wf_nil : Memory.wf [] := List.Pairwise.nil

theorem Memory.wf_write {m : Memory} (h : m.wf) (a : Nat) (b : Byte) : (m.write a b).wf :=
  assocWf_put h a b

theorem Memory.wf_writeBytes {m : Memory} (h : m.wf) (a : Nat) (t : List Byte) :
    (m.writeBytes a t).wf := by
  induction t generalizing m a with
  | nil => exact h
  | cons b bs ih => exact ih (Memory.wf_write h a b) (a + 1)

/-- Reading after a byte sequence was written: its bytes inside, the old byte outside. -/
theorem Memory.read_writeBytes (m : Memory) (a : Nat) (t : List Byte) (c : Nat) :
    (m.writeBytes a t).read c = if a ≤ c ∧ c < a + t.length then t[c - a]? else m.read c := by
  induction t generalizing m a with
  | nil =>
    rw [if_neg (by rw [List.length_nil]; omega)]; rfl
  | cons b bs ih =>
    simp only [Memory.writeBytes, ih, Memory.read_write, List.length_cons]
    by_cases hc : c = a
    · subst hc
      rw [if_neg (by omega), if_pos rfl, if_pos (by omega)]
      simp
    · by_cases hin : a + 1 ≤ c ∧ c < a + 1 + bs.length
      · rw [if_pos hin, if_pos (by omega)]
        obtain ⟨d, rfl⟩ : ∃ d, c = a + 1 + d := ⟨c - (a + 1), by omega⟩
        rw [show a + 1 + d - (a + 1) = d by omega, show a + 1 + d - a = d + 1 by omega]
        simp
      · rw [if_neg hin, if_neg hc, if_neg (by omega)]

theorem Memory.mem_write {m : Memory} {a : Nat} {b : Byte} {p : Host.Cell} (h : p ∈ m.write a b) :
    p = (a, b) ∨ p ∈ m := mem_assocPut h

/-- The addresses listed after a byte sequence was written. -/
theorem Memory.mem_writeBytes {m : Memory} {a : Nat} {t : List Byte} {p : Host.Cell}
    (h : p ∈ m.writeBytes a t) : (a ≤ p.1 ∧ p.1 < a + t.length) ∨ p ∈ m := by
  induction t generalizing m a with
  | nil => exact .inr h
  | cons b bs ih =>
    simp only [List.length_cons]
    rcases ih h with h | h
    · exact .inl (by omega)
    · rcases Memory.mem_write h with h | h
      · subst h; exact .inl ⟨Nat.le_refl _, by show a < _; omega⟩
      · exact .inr h

/-! ### Block buffers -/

@[simp] theorem Block.read_nil (i : Nat) : Block.read [] i = 0 := rfl

theorem Block.read_write (b : Block) (i : Nat) (v : Byte) (j : Nat) :
    (b.write i v).read j = if j = i then v else b.read j := by
  unfold Block.write Block.read
  split
  · rename_i hv
    rw [assocGet_erase]
    split
    · simp [hv]
    · rfl
  · rw [assocGet_put]
    split <;> rfl

theorem Block.wf_nil (n : Nat) : Block.wf n [] := ⟨List.Pairwise.nil, by simp⟩

theorem Block.wf_write {n : Nat} {b : Block} (h : Block.wf n b) {i : Nat} (hi : i < n) (v : Byte) :
    Block.wf n (b.write i v) := by
  unfold Block.write
  split
  · exact ⟨assocWf_erase h.1 i, fun p hp => h.2 p (mem_assocErase hp)⟩
  · rename_i hv
    refine ⟨assocWf_put h.1 i v, fun p hp => ?_⟩
    rcases mem_assocPut hp with hp | hp
    · subst hp; exact ⟨hv, hi⟩
    · exact h.2 p hp

/-- A canonical buffer reads 0 from its size up. -/
theorem Block.read_of_le {n : Nat} {b : Block} (h : Block.wf n b) {i : Nat} (hi : n ≤ i) :
    b.read i = 0 := by
  rw [Block.read, assocGet_eq_none fun p hp => Nat.ne_of_lt (Nat.lt_of_lt_of_le (h.2 p hp).2 hi)]
  rfl

/-- Two canonical buffers that read alike are equal. -/
theorem Block.ext_read {n m : Nat} {b c : Block} (hb : Block.wf n b) (hc : Block.wf m c)
    (h : ∀ i, b.read i = c.read i) : b = c := by
  refine assoc_ext hb.1 hc.1 fun i => ?_
  have hi := h i
  unfold Block.read at hi
  rcases hx : assocGet b i with _ | x <;> rcases hy : assocGet c i with _ | y
  · rfl
  · rw [hx, hy] at hi
    exact absurd hi.symm (hc.2 _ (mem_of_assocGet hy)).1
  · rw [hx, hy] at hi
    exact absurd hi (hb.2 _ (mem_of_assocGet hx)).1
  · rw [hx, hy] at hi
    exact congrArg some hi

theorem Block.mem_ofBytesFrom {i : Nat} {d : List Byte} {p : Host.Cell}
    (h : p ∈ Block.ofBytesFrom i d) : p.2 ≠ 0 ∧ i ≤ p.1 ∧ p.1 < i + d.length := by
  induction d generalizing i with
  | nil => simp [Block.ofBytesFrom] at h
  | cons x xs ih =>
    simp only [Block.ofBytesFrom] at h
    simp only [List.length_cons]
    split at h
    · have := ih h; exact ⟨this.1, by omega, by omega⟩
    · rename_i hx
      rcases List.mem_cons.mp h with h | h
      · subst h; exact ⟨hx, Nat.le_refl _, by show i < _; omega⟩
      · have := ih h; exact ⟨this.1, by omega, by omega⟩

theorem Block.wf_ofBytesFrom (i : Nat) (d : List Byte) : assocWf (Block.ofBytesFrom i d) := by
  induction d generalizing i with
  | nil => exact List.Pairwise.nil
  | cons x xs ih =>
    simp only [Block.ofBytesFrom]
    split
    · exact ih (i + 1)
    · exact List.pairwise_cons.mpr ⟨fun p hp => (Block.mem_ofBytesFrom hp).2.1, ih (i + 1)⟩

/-- A buffer read from a stream is canonical. -/
theorem Block.wf_ofBytes (d : List Byte) : Block.wf d.length (Block.ofBytes d) :=
  ⟨Block.wf_ofBytesFrom 0 d, fun p hp => by
    have := Block.mem_ofBytesFrom hp; exact ⟨this.1, by omega⟩⟩

theorem Block.read_ofBytesFrom (i : Nat) (d : List Byte) (j : Nat) :
    Block.read (Block.ofBytesFrom i d) j = if i ≤ j then d.getD (j - i) 0 else 0 := by
  induction d generalizing i with
  | nil => simp [Block.ofBytesFrom]
  | cons x xs ih =>
    have tail (hj : j ≠ i) : Block.read (Block.ofBytesFrom (i + 1) xs) j =
        if i ≤ j then (x :: xs).getD (j - i) 0 else 0 := by
      rw [ih]
      by_cases hij : i + 1 ≤ j
      · rw [if_pos hij, if_pos (by omega), show j - i = (j - (i + 1)) + 1 by omega]; rfl
      · rw [if_neg hij, if_neg (by omega)]
    by_cases hx : x = 0
    · simp only [Block.ofBytesFrom, hx, if_true]
      by_cases hj : j = i
      · subst hj; rw [ih, if_neg (by omega)]; simp
      · simpa [hx] using tail hj
    · simp only [Block.ofBytesFrom, hx, if_false]
      by_cases hj : j = i
      · subst hj; simp [Block.read, assocGet]
      · rw [← tail hj]; simp [Block.read, assocGet, hj]

/-- A buffer read from a stream holds the stream's bytes. -/
theorem Block.read_ofBytes (d : List Byte) (j : Nat) : (Block.ofBytes d).read j = d.getD j 0 := by
  simp [Block.ofBytes, Block.read_ofBytesFrom]

@[simp] theorem Block.length_toBytes (b : Block) (n : Nat) : (b.toBytes n).length = n := by
  simp [Block.toBytes]

theorem Block.toBytes_ofBytes (d : List Byte) : (Block.ofBytes d).toBytes d.length = d := by
  refine List.ext_getElem (by simp) fun i h _ => ?_
  simp only [Block.length_toBytes] at h
  simp [Block.toBytes, Block.read_ofBytes, List.getD_eq_getElem?_getD, List.getElem?_eq_getElem h]

/-- Writing out a canonical buffer and reading it back gives it again. -/
theorem Block.ofBytes_toBytes {n : Nat} {b : Block} (h : Block.wf n b) :
    Block.ofBytes (b.toBytes n) = b := by
  refine Block.ext_read (Block.wf_ofBytes _) h fun i => ?_
  rw [Block.read_ofBytes]
  by_cases hi : i < n
  · simp [Block.toBytes, List.getD_eq_getElem?_getD, hi]
  · rw [Block.read_of_le h (Nat.le_of_not_lt hi)]
    simp [Block.toBytes, List.getD_eq_getElem?_getD, hi]

end Sys2Proof.Machine
end

