-- ==== Sys2Proof/Laws/State.lean ====
section
/-! SUPPORT. What each named update of State does to each field: one lemma per field per update, so
that no later proof unfolds a record update. -/

namespace Sys2Proof.Machine

section
variable (s : State)

@[simp] theorem State.report_err (code e0 e1 e2 e3 e4 : Word) :
    (s.report code e0 e1 e2 e3 e4).err = code := rfl
@[simp] theorem State.report_einfo0 (code e0 e1 e2 e3 e4 : Word) :
    (s.report code e0 e1 e2 e3 e4).einfo0 = e0 := rfl
@[simp] theorem State.report_einfo1 (code e0 e1 e2 e3 e4 : Word) :
    (s.report code e0 e1 e2 e3 e4).einfo1 = e1 := rfl
@[simp] theorem State.report_einfo2 (code e0 e1 e2 e3 e4 : Word) :
    (s.report code e0 e1 e2 e3 e4).einfo2 = e2 := rfl
@[simp] theorem State.report_einfo3 (code e0 e1 e2 e3 e4 : Word) :
    (s.report code e0 e1 e2 e3 e4).einfo3 = e3 := rfl
@[simp] theorem State.report_einfo4 (code e0 e1 e2 e3 e4 : Word) :
    (s.report code e0 e1 e2 e3 e4).einfo4 = e4 := rfl
@[simp] theorem State.report_result (code e0 e1 e2 e3 e4 : Word) :
    (s.report code e0 e1 e2 e3 e4).result = s.result := rfl
@[simp] theorem State.report_ilen (code e0 e1 e2 e3 e4 : Word) :
    (s.report code e0 e1 e2 e3 e4).ilen = s.ilen := rfl
@[simp] theorem State.report_olen (code e0 e1 e2 e3 e4 : Word) :
    (s.report code e0 e1 e2 e3 e4).olen = s.olen := rfl
@[simp] theorem State.report_mpBase (code e0 e1 e2 e3 e4 : Word) :
    (s.report code e0 e1 e2 e3 e4).mpBase = s.mpBase := rfl
@[simp] theorem State.report_mpExp (code e0 e1 e2 e3 e4 : Word) :
    (s.report code e0 e1 e2 e3 e4).mpExp = s.mpExp := rfl
@[simp] theorem State.report_mpMod (code e0 e1 e2 e3 e4 : Word) :
    (s.report code e0 e1 e2 e3 e4).mpMod = s.mpMod := rfl
@[simp] theorem State.report_mpRes (code e0 e1 e2 e3 e4 : Word) :
    (s.report code e0 e1 e2 e3 e4).mpRes = s.mpRes := rfl
@[simp] theorem State.report_esk (code e0 e1 e2 e3 e4 : Word) :
    (s.report code e0 e1 e2 e3 e4).esk = s.esk := rfl
@[simp] theorem State.report_key (code e0 e1 e2 e3 e4 : Word) :
    (s.report code e0 e1 e2 e3 e4).key = s.key := rfl
@[simp] theorem State.report_akey (code e0 e1 e2 e3 e4 : Word) :
    (s.report code e0 e1 e2 e3 e4).akey = s.akey := rfl
@[simp] theorem State.report_aiv (code e0 e1 e2 e3 e4 : Word) :
    (s.report code e0 e1 e2 e3 e4).aiv = s.aiv := rfl
@[simp] theorem State.report_mem (code e0 e1 e2 e3 e4 : Word) :
    (s.report code e0 e1 e2 e3 e4).mem = s.mem := rfl
@[simp] theorem State.report_ptrdy (code e0 e1 e2 e3 e4 : Word) :
    (s.report code e0 e1 e2 e3 e4).ptrdy = s.ptrdy := rfl
@[simp] theorem State.report_ptLength (code e0 e1 e2 e3 e4 : Word) :
    (s.report code e0 e1 e2 e3 e4).ptLength = s.ptLength := rfl
@[simp] theorem State.report_ptSprefix (code e0 e1 e2 e3 e4 : Word) :
    (s.report code e0 e1 e2 e3 e4).ptSprefix = s.ptSprefix := rfl
@[simp] theorem State.report_ptArg (code e0 e1 e2 e3 e4 : Word) :
    (s.report code e0 e1 e2 e3 e4).ptArg = s.ptArg := rfl
@[simp] theorem State.report_ptBcount (code e0 e1 e2 e3 e4 : Word) :
    (s.report code e0 e1 e2 e3 e4).ptBcount = s.ptBcount := rfl
@[simp] theorem State.report_ptBbytes (code e0 e1 e2 e3 e4 : Word) :
    (s.report code e0 e1 e2 e3 e4).ptBbytes = s.ptBbytes := rfl
@[simp] theorem State.report_ptBbits (code e0 e1 e2 e3 e4 : Word) :
    (s.report code e0 e1 e2 e3 e4).ptBbits = s.ptBbits := rfl
@[simp] theorem State.report_slots (code e0 e1 e2 e3 e4 : Word) :
    (s.report code e0 e1 e2 e3 e4).slots = s.slots := rfl
@[simp] theorem State.report_src (code e0 e1 e2 e3 e4 : Word) :
    (s.report code e0 e1 e2 e3 e4).src = s.src := rfl
@[simp] theorem State.report_snk (code e0 e1 e2 e3 e4 : Word) :
    (s.report code e0 e1 e2 e3 e4).snk = s.snk := rfl
@[simp] theorem State.report_cfg (code e0 e1 e2 e3 e4 : Word) :
    (s.report code e0 e1 e2 e3 e4).cfg = s.cfg := rfl
@[simp] theorem State.report_epoch (code e0 e1 e2 e3 e4 : Word) :
    (s.report code e0 e1 e2 e3 e4).epoch = s.epoch := rfl
@[simp] theorem State.report_draws (code e0 e1 e2 e3 e4 : Word) :
    (s.report code e0 e1 e2 e3 e4).draws = s.draws := rfl
@[simp] theorem State.report_pending (code e0 e1 e2 e3 e4 : Word) :
    (s.report code e0 e1 e2 e3 e4).pending = s.pending := rfl
@[simp] theorem State.report_trace (code e0 e1 e2 e3 e4 : Word) :
    (s.report code e0 e1 e2 e3 e4).trace = s.trace := rfl

@[simp] theorem State.ok_err : (s.ok).err = 0 := rfl
@[simp] theorem State.ok_einfo0 : (s.ok).einfo0 = 0 := rfl
@[simp] theorem State.ok_einfo1 : (s.ok).einfo1 = 0 := rfl
@[simp] theorem State.ok_einfo2 : (s.ok).einfo2 = 0 := rfl
@[simp] theorem State.ok_einfo3 : (s.ok).einfo3 = 0 := rfl
@[simp] theorem State.ok_einfo4 : (s.ok).einfo4 = 0 := rfl
@[simp] theorem State.ok_result : (s.ok).result = s.result := rfl
@[simp] theorem State.ok_ilen : (s.ok).ilen = s.ilen := rfl
@[simp] theorem State.ok_olen : (s.ok).olen = s.olen := rfl
@[simp] theorem State.ok_mpBase : (s.ok).mpBase = s.mpBase := rfl
@[simp] theorem State.ok_mpExp : (s.ok).mpExp = s.mpExp := rfl
@[simp] theorem State.ok_mpMod : (s.ok).mpMod = s.mpMod := rfl
@[simp] theorem State.ok_mpRes : (s.ok).mpRes = s.mpRes := rfl
@[simp] theorem State.ok_esk : (s.ok).esk = s.esk := rfl
@[simp] theorem State.ok_key : (s.ok).key = s.key := rfl
@[simp] theorem State.ok_akey : (s.ok).akey = s.akey := rfl
@[simp] theorem State.ok_aiv : (s.ok).aiv = s.aiv := rfl
@[simp] theorem State.ok_mem : (s.ok).mem = s.mem := rfl
@[simp] theorem State.ok_ptrdy : (s.ok).ptrdy = s.ptrdy := rfl
@[simp] theorem State.ok_ptLength : (s.ok).ptLength = s.ptLength := rfl
@[simp] theorem State.ok_ptSprefix : (s.ok).ptSprefix = s.ptSprefix := rfl
@[simp] theorem State.ok_ptArg : (s.ok).ptArg = s.ptArg := rfl
@[simp] theorem State.ok_ptBcount : (s.ok).ptBcount = s.ptBcount := rfl
@[simp] theorem State.ok_ptBbytes : (s.ok).ptBbytes = s.ptBbytes := rfl
@[simp] theorem State.ok_ptBbits : (s.ok).ptBbits = s.ptBbits := rfl
@[simp] theorem State.ok_slots : (s.ok).slots = s.slots := rfl
@[simp] theorem State.ok_src : (s.ok).src = s.src := rfl
@[simp] theorem State.ok_snk : (s.ok).snk = s.snk := rfl
@[simp] theorem State.ok_cfg : (s.ok).cfg = s.cfg := rfl
@[simp] theorem State.ok_epoch : (s.ok).epoch = s.epoch := rfl
@[simp] theorem State.ok_draws : (s.ok).draws = s.draws := rfl
@[simp] theorem State.ok_pending : (s.ok).pending = s.pending := rfl
@[simp] theorem State.ok_trace : (s.ok).trace = s.trace := rfl

@[simp] theorem State.setReport_err (code : Word) (info : List Word) :
    (s.setReport code info).err = code := rfl
@[simp] theorem State.setReport_einfo0 (code : Word) (info : List Word) :
    (s.setReport code info).einfo0 = info.getD 0 0 := rfl
@[simp] theorem State.setReport_einfo1 (code : Word) (info : List Word) :
    (s.setReport code info).einfo1 = info.getD 1 0 := rfl
@[simp] theorem State.setReport_einfo2 (code : Word) (info : List Word) :
    (s.setReport code info).einfo2 = info.getD 2 0 := rfl
@[simp] theorem State.setReport_einfo3 (code : Word) (info : List Word) :
    (s.setReport code info).einfo3 = info.getD 3 0 := rfl
@[simp] theorem State.setReport_einfo4 (code : Word) (info : List Word) :
    (s.setReport code info).einfo4 = info.getD 4 0 := rfl
@[simp] theorem State.setReport_result (code : Word) (info : List Word) :
    (s.setReport code info).result = s.result := rfl
@[simp] theorem State.setReport_ilen (code : Word) (info : List Word) :
    (s.setReport code info).ilen = s.ilen := rfl
@[simp] theorem State.setReport_olen (code : Word) (info : List Word) :
    (s.setReport code info).olen = s.olen := rfl
@[simp] theorem State.setReport_mpBase (code : Word) (info : List Word) :
    (s.setReport code info).mpBase = s.mpBase := rfl
@[simp] theorem State.setReport_mpExp (code : Word) (info : List Word) :
    (s.setReport code info).mpExp = s.mpExp := rfl
@[simp] theorem State.setReport_mpMod (code : Word) (info : List Word) :
    (s.setReport code info).mpMod = s.mpMod := rfl
@[simp] theorem State.setReport_mpRes (code : Word) (info : List Word) :
    (s.setReport code info).mpRes = s.mpRes := rfl
@[simp] theorem State.setReport_esk (code : Word) (info : List Word) :
    (s.setReport code info).esk = s.esk := rfl
@[simp] theorem State.setReport_key (code : Word) (info : List Word) :
    (s.setReport code info).key = s.key := rfl
@[simp] theorem State.setReport_akey (code : Word) (info : List Word) :
    (s.setReport code info).akey = s.akey := rfl
@[simp] theorem State.setReport_aiv (code : Word) (info : List Word) :
    (s.setReport code info).aiv = s.aiv := rfl
@[simp] theorem State.setReport_mem (code : Word) (info : List Word) :
    (s.setReport code info).mem = s.mem := rfl
@[simp] theorem State.setReport_ptrdy (code : Word) (info : List Word) :
    (s.setReport code info).ptrdy = s.ptrdy := rfl
@[simp] theorem State.setReport_ptLength (code : Word) (info : List Word) :
    (s.setReport code info).ptLength = s.ptLength := rfl
@[simp] theorem State.setReport_ptSprefix (code : Word) (info : List Word) :
    (s.setReport code info).ptSprefix = s.ptSprefix := rfl
@[simp] theorem State.setReport_ptArg (code : Word) (info : List Word) :
    (s.setReport code info).ptArg = s.ptArg := rfl
@[simp] theorem State.setReport_ptBcount (code : Word) (info : List Word) :
    (s.setReport code info).ptBcount = s.ptBcount := rfl
@[simp] theorem State.setReport_ptBbytes (code : Word) (info : List Word) :
    (s.setReport code info).ptBbytes = s.ptBbytes := rfl
@[simp] theorem State.setReport_ptBbits (code : Word) (info : List Word) :
    (s.setReport code info).ptBbits = s.ptBbits := rfl
@[simp] theorem State.setReport_slots (code : Word) (info : List Word) :
    (s.setReport code info).slots = s.slots := rfl
@[simp] theorem State.setReport_src (code : Word) (info : List Word) :
    (s.setReport code info).src = s.src := rfl
@[simp] theorem State.setReport_snk (code : Word) (info : List Word) :
    (s.setReport code info).snk = s.snk := rfl
@[simp] theorem State.setReport_cfg (code : Word) (info : List Word) :
    (s.setReport code info).cfg = s.cfg := rfl
@[simp] theorem State.setReport_epoch (code : Word) (info : List Word) :
    (s.setReport code info).epoch = s.epoch := rfl
@[simp] theorem State.setReport_draws (code : Word) (info : List Word) :
    (s.setReport code info).draws = s.draws := rfl
@[simp] theorem State.setReport_pending (code : Word) (info : List Word) :
    (s.setReport code info).pending = s.pending := rfl
@[simp] theorem State.setReport_trace (code : Word) (info : List Word) :
    (s.setReport code info).trace = s.trace := rfl

@[simp] theorem State.raise_err (e : CmdError) : (s.raise e).err = e.code := rfl
@[simp] theorem State.raise_einfo0 (e : CmdError) : (s.raise e).einfo0 = (e.info s).getD 0 0 := rfl
@[simp] theorem State.raise_einfo1 (e : CmdError) : (s.raise e).einfo1 = (e.info s).getD 1 0 := rfl
@[simp] theorem State.raise_einfo2 (e : CmdError) : (s.raise e).einfo2 = (e.info s).getD 2 0 := rfl
@[simp] theorem State.raise_einfo3 (e : CmdError) : (s.raise e).einfo3 = (e.info s).getD 3 0 := rfl
@[simp] theorem State.raise_einfo4 (e : CmdError) : (s.raise e).einfo4 = (e.info s).getD 4 0 := rfl
@[simp] theorem State.raise_result (e : CmdError) : (s.raise e).result = s.result := rfl
@[simp] theorem State.raise_ilen (e : CmdError) : (s.raise e).ilen = s.ilen := rfl
@[simp] theorem State.raise_olen (e : CmdError) : (s.raise e).olen = s.olen := rfl
@[simp] theorem State.raise_mpBase (e : CmdError) : (s.raise e).mpBase = s.mpBase := rfl
@[simp] theorem State.raise_mpExp (e : CmdError) : (s.raise e).mpExp = s.mpExp := rfl
@[simp] theorem State.raise_mpMod (e : CmdError) : (s.raise e).mpMod = s.mpMod := rfl
@[simp] theorem State.raise_mpRes (e : CmdError) : (s.raise e).mpRes = s.mpRes := rfl
@[simp] theorem State.raise_esk (e : CmdError) : (s.raise e).esk = s.esk := rfl
@[simp] theorem State.raise_key (e : CmdError) : (s.raise e).key = s.key := rfl
@[simp] theorem State.raise_akey (e : CmdError) : (s.raise e).akey = s.akey := rfl
@[simp] theorem State.raise_aiv (e : CmdError) : (s.raise e).aiv = s.aiv := rfl
@[simp] theorem State.raise_mem (e : CmdError) : (s.raise e).mem = s.mem := rfl
@[simp] theorem State.raise_ptrdy (e : CmdError) : (s.raise e).ptrdy = s.ptrdy := rfl
@[simp] theorem State.raise_ptLength (e : CmdError) : (s.raise e).ptLength = s.ptLength := rfl
@[simp] theorem State.raise_ptSprefix (e : CmdError) : (s.raise e).ptSprefix = s.ptSprefix := rfl
@[simp] theorem State.raise_ptArg (e : CmdError) : (s.raise e).ptArg = s.ptArg := rfl
@[simp] theorem State.raise_ptBcount (e : CmdError) : (s.raise e).ptBcount = s.ptBcount := rfl
@[simp] theorem State.raise_ptBbytes (e : CmdError) : (s.raise e).ptBbytes = s.ptBbytes := rfl
@[simp] theorem State.raise_ptBbits (e : CmdError) : (s.raise e).ptBbits = s.ptBbits := rfl
@[simp] theorem State.raise_slots (e : CmdError) : (s.raise e).slots = s.slots := rfl
@[simp] theorem State.raise_src (e : CmdError) : (s.raise e).src = s.src := rfl
@[simp] theorem State.raise_snk (e : CmdError) : (s.raise e).snk = s.snk := rfl
@[simp] theorem State.raise_cfg (e : CmdError) : (s.raise e).cfg = s.cfg := rfl
@[simp] theorem State.raise_epoch (e : CmdError) : (s.raise e).epoch = s.epoch := rfl
@[simp] theorem State.raise_draws (e : CmdError) : (s.raise e).draws = s.draws := rfl
@[simp] theorem State.raise_pending (e : CmdError) : (s.raise e).pending = s.pending := rfl
@[simp] theorem State.raise_trace (e : CmdError) : (s.raise e).trace = s.trace := rfl

@[simp] theorem State.succeed_err : (s.succeed).err = 0 := rfl
@[simp] theorem State.succeed_einfo0 : (s.succeed).einfo0 = 0 := rfl
@[simp] theorem State.succeed_einfo1 : (s.succeed).einfo1 = 0 := rfl
@[simp] theorem State.succeed_einfo2 : (s.succeed).einfo2 = 0 := rfl
@[simp] theorem State.succeed_einfo3 : (s.succeed).einfo3 = 0 := rfl
@[simp] theorem State.succeed_einfo4 : (s.succeed).einfo4 = 0 := rfl
@[simp] theorem State.succeed_result : (s.succeed).result = s.result := rfl
@[simp] theorem State.succeed_ilen : (s.succeed).ilen = s.ilen := rfl
@[simp] theorem State.succeed_olen : (s.succeed).olen = s.olen := rfl
@[simp] theorem State.succeed_mpBase : (s.succeed).mpBase = s.mpBase := rfl
@[simp] theorem State.succeed_mpExp : (s.succeed).mpExp = s.mpExp := rfl
@[simp] theorem State.succeed_mpMod : (s.succeed).mpMod = s.mpMod := rfl
@[simp] theorem State.succeed_mpRes : (s.succeed).mpRes = s.mpRes := rfl
@[simp] theorem State.succeed_esk : (s.succeed).esk = s.esk := rfl
@[simp] theorem State.succeed_key : (s.succeed).key = s.key := rfl
@[simp] theorem State.succeed_akey : (s.succeed).akey = s.akey := rfl
@[simp] theorem State.succeed_aiv : (s.succeed).aiv = s.aiv := rfl
@[simp] theorem State.succeed_mem : (s.succeed).mem = s.mem := rfl
@[simp] theorem State.succeed_ptrdy : (s.succeed).ptrdy = s.ptrdy := rfl
@[simp] theorem State.succeed_ptLength : (s.succeed).ptLength = s.ptLength := rfl
@[simp] theorem State.succeed_ptSprefix : (s.succeed).ptSprefix = s.ptSprefix := rfl
@[simp] theorem State.succeed_ptArg : (s.succeed).ptArg = s.ptArg := rfl
@[simp] theorem State.succeed_ptBcount : (s.succeed).ptBcount = s.ptBcount := rfl
@[simp] theorem State.succeed_ptBbytes : (s.succeed).ptBbytes = s.ptBbytes := rfl
@[simp] theorem State.succeed_ptBbits : (s.succeed).ptBbits = s.ptBbits := rfl
@[simp] theorem State.succeed_slots : (s.succeed).slots = s.slots := rfl
@[simp] theorem State.succeed_src : (s.succeed).src = s.src := rfl
@[simp] theorem State.succeed_snk : (s.succeed).snk = s.snk := rfl
@[simp] theorem State.succeed_cfg : (s.succeed).cfg = s.cfg := rfl
@[simp] theorem State.succeed_epoch : (s.succeed).epoch = s.epoch := rfl
@[simp] theorem State.succeed_draws : (s.succeed).draws = s.draws := rfl
@[simp] theorem State.succeed_pending : (s.succeed).pending = s.pending := rfl
@[simp] theorem State.succeed_trace : (s.succeed).trace = s.trace := rfl

@[simp] theorem State.respond_err (r : Response) : (s.respond r).err = s.err := rfl
@[simp] theorem State.respond_einfo0 (r : Response) : (s.respond r).einfo0 = s.einfo0 := rfl
@[simp] theorem State.respond_einfo1 (r : Response) : (s.respond r).einfo1 = s.einfo1 := rfl
@[simp] theorem State.respond_einfo2 (r : Response) : (s.respond r).einfo2 = s.einfo2 := rfl
@[simp] theorem State.respond_einfo3 (r : Response) : (s.respond r).einfo3 = s.einfo3 := rfl
@[simp] theorem State.respond_einfo4 (r : Response) : (s.respond r).einfo4 = s.einfo4 := rfl
@[simp] theorem State.respond_result (r : Response) : (s.respond r).result = s.result := rfl
@[simp] theorem State.respond_ilen (r : Response) : (s.respond r).ilen = s.ilen := rfl
@[simp] theorem State.respond_olen (r : Response) : (s.respond r).olen = s.olen := rfl
@[simp] theorem State.respond_mpBase (r : Response) : (s.respond r).mpBase = s.mpBase := rfl
@[simp] theorem State.respond_mpExp (r : Response) : (s.respond r).mpExp = s.mpExp := rfl
@[simp] theorem State.respond_mpMod (r : Response) : (s.respond r).mpMod = s.mpMod := rfl
@[simp] theorem State.respond_mpRes (r : Response) : (s.respond r).mpRes = s.mpRes := rfl
@[simp] theorem State.respond_esk (r : Response) : (s.respond r).esk = s.esk := rfl
@[simp] theorem State.respond_key (r : Response) : (s.respond r).key = s.key := rfl
@[simp] theorem State.respond_akey (r : Response) : (s.respond r).akey = s.akey := rfl
@[simp] theorem State.respond_aiv (r : Response) : (s.respond r).aiv = s.aiv := rfl
@[simp] theorem State.respond_mem (r : Response) : (s.respond r).mem = s.mem := rfl
@[simp] theorem State.respond_ptrdy (r : Response) : (s.respond r).ptrdy = s.ptrdy := rfl
@[simp] theorem State.respond_ptLength (r : Response) : (s.respond r).ptLength = s.ptLength := rfl
@[simp] theorem State.respond_ptSprefix (r : Response) :
    (s.respond r).ptSprefix = s.ptSprefix := rfl
@[simp] theorem State.respond_ptArg (r : Response) : (s.respond r).ptArg = s.ptArg := rfl
@[simp] theorem State.respond_ptBcount (r : Response) : (s.respond r).ptBcount = s.ptBcount := rfl
@[simp] theorem State.respond_ptBbytes (r : Response) : (s.respond r).ptBbytes = s.ptBbytes := rfl
@[simp] theorem State.respond_ptBbits (r : Response) : (s.respond r).ptBbits = s.ptBbits := rfl
@[simp] theorem State.respond_slots (r : Response) : (s.respond r).slots = s.slots := rfl
@[simp] theorem State.respond_src (r : Response) : (s.respond r).src = s.src := rfl
@[simp] theorem State.respond_snk (r : Response) : (s.respond r).snk = s.snk := rfl
@[simp] theorem State.respond_cfg (r : Response) : (s.respond r).cfg = s.cfg := rfl
@[simp] theorem State.respond_epoch (r : Response) : (s.respond r).epoch = s.epoch := rfl
@[simp] theorem State.respond_draws (r : Response) : (s.respond r).draws = s.draws := rfl
@[simp] theorem State.respond_pending (r : Response) : (s.respond r).pending = s.pending := rfl
@[simp] theorem State.respond_trace (r : Response) : (s.respond r).trace = r :: s.trace := rfl

@[simp] theorem State.popAction_err (rest : List HostAction) : (s.popAction rest).err = s.err := rfl
@[simp] theorem State.popAction_einfo0 (rest : List HostAction) :
    (s.popAction rest).einfo0 = s.einfo0 := rfl
@[simp] theorem State.popAction_einfo1 (rest : List HostAction) :
    (s.popAction rest).einfo1 = s.einfo1 := rfl
@[simp] theorem State.popAction_einfo2 (rest : List HostAction) :
    (s.popAction rest).einfo2 = s.einfo2 := rfl
@[simp] theorem State.popAction_einfo3 (rest : List HostAction) :
    (s.popAction rest).einfo3 = s.einfo3 := rfl
@[simp] theorem State.popAction_einfo4 (rest : List HostAction) :
    (s.popAction rest).einfo4 = s.einfo4 := rfl
@[simp] theorem State.popAction_result (rest : List HostAction) :
    (s.popAction rest).result = s.result := rfl
@[simp] theorem State.popAction_ilen (rest : List HostAction) :
    (s.popAction rest).ilen = s.ilen := rfl
@[simp] theorem State.popAction_olen (rest : List HostAction) :
    (s.popAction rest).olen = s.olen := rfl
@[simp] theorem State.popAction_mpBase (rest : List HostAction) :
    (s.popAction rest).mpBase = s.mpBase := rfl
@[simp] theorem State.popAction_mpExp (rest : List HostAction) :
    (s.popAction rest).mpExp = s.mpExp := rfl
@[simp] theorem State.popAction_mpMod (rest : List HostAction) :
    (s.popAction rest).mpMod = s.mpMod := rfl
@[simp] theorem State.popAction_mpRes (rest : List HostAction) :
    (s.popAction rest).mpRes = s.mpRes := rfl
@[simp] theorem State.popAction_esk (rest : List HostAction) : (s.popAction rest).esk = s.esk := rfl
@[simp] theorem State.popAction_key (rest : List HostAction) : (s.popAction rest).key = s.key := rfl
@[simp] theorem State.popAction_akey (rest : List HostAction) :
    (s.popAction rest).akey = s.akey := rfl
@[simp] theorem State.popAction_aiv (rest : List HostAction) : (s.popAction rest).aiv = s.aiv := rfl
@[simp] theorem State.popAction_mem (rest : List HostAction) : (s.popAction rest).mem = s.mem := rfl
@[simp] theorem State.popAction_ptrdy (rest : List HostAction) :
    (s.popAction rest).ptrdy = s.ptrdy := rfl
@[simp] theorem State.popAction_ptLength (rest : List HostAction) :
    (s.popAction rest).ptLength = s.ptLength := rfl
@[simp] theorem State.popAction_ptSprefix (rest : List HostAction) :
    (s.popAction rest).ptSprefix = s.ptSprefix := rfl
@[simp] theorem State.popAction_ptArg (rest : List HostAction) :
    (s.popAction rest).ptArg = s.ptArg := rfl
@[simp] theorem State.popAction_ptBcount (rest : List HostAction) :
    (s.popAction rest).ptBcount = s.ptBcount := rfl
@[simp] theorem State.popAction_ptBbytes (rest : List HostAction) :
    (s.popAction rest).ptBbytes = s.ptBbytes := rfl
@[simp] theorem State.popAction_ptBbits (rest : List HostAction) :
    (s.popAction rest).ptBbits = s.ptBbits := rfl
@[simp] theorem State.popAction_slots (rest : List HostAction) :
    (s.popAction rest).slots = s.slots := rfl
@[simp] theorem State.popAction_src (rest : List HostAction) : (s.popAction rest).src = s.src := rfl
@[simp] theorem State.popAction_snk (rest : List HostAction) : (s.popAction rest).snk = s.snk := rfl
@[simp] theorem State.popAction_cfg (rest : List HostAction) : (s.popAction rest).cfg = s.cfg := rfl
@[simp] theorem State.popAction_epoch (rest : List HostAction) :
    (s.popAction rest).epoch = s.epoch := rfl
@[simp] theorem State.popAction_draws (rest : List HostAction) :
    (s.popAction rest).draws = s.draws := rfl
@[simp] theorem State.popAction_pending (rest : List HostAction) :
    (s.popAction rest).pending = rest := rfl
@[simp] theorem State.popAction_trace (rest : List HostAction) :
    (s.popAction rest).trace = s.trace := rfl

@[simp] theorem State.putOutput_err (t : List Byte) (n : Nat) : (s.putOutput t n).err = s.err := rfl
@[simp] theorem State.putOutput_einfo0 (t : List Byte) (n : Nat) :
    (s.putOutput t n).einfo0 = s.einfo0 := rfl
@[simp] theorem State.putOutput_einfo1 (t : List Byte) (n : Nat) :
    (s.putOutput t n).einfo1 = s.einfo1 := rfl
@[simp] theorem State.putOutput_einfo2 (t : List Byte) (n : Nat) :
    (s.putOutput t n).einfo2 = s.einfo2 := rfl
@[simp] theorem State.putOutput_einfo3 (t : List Byte) (n : Nat) :
    (s.putOutput t n).einfo3 = s.einfo3 := rfl
@[simp] theorem State.putOutput_einfo4 (t : List Byte) (n : Nat) :
    (s.putOutput t n).einfo4 = s.einfo4 := rfl
@[simp] theorem State.putOutput_result (t : List Byte) (n : Nat) :
    (s.putOutput t n).result = s.result := rfl
@[simp] theorem State.putOutput_ilen (t : List Byte) (n : Nat) :
    (s.putOutput t n).ilen = s.ilen := rfl
@[simp] theorem State.putOutput_olen (t : List Byte) (n : Nat) :
    (s.putOutput t n).olen = BitVec.ofNat 32 n := rfl
@[simp] theorem State.putOutput_mpBase (t : List Byte) (n : Nat) :
    (s.putOutput t n).mpBase = s.mpBase := rfl
@[simp] theorem State.putOutput_mpExp (t : List Byte) (n : Nat) :
    (s.putOutput t n).mpExp = s.mpExp := rfl
@[simp] theorem State.putOutput_mpMod (t : List Byte) (n : Nat) :
    (s.putOutput t n).mpMod = s.mpMod := rfl
@[simp] theorem State.putOutput_mpRes (t : List Byte) (n : Nat) :
    (s.putOutput t n).mpRes = s.mpRes := rfl
@[simp] theorem State.putOutput_esk (t : List Byte) (n : Nat) : (s.putOutput t n).esk = s.esk := rfl
@[simp] theorem State.putOutput_key (t : List Byte) (n : Nat) : (s.putOutput t n).key = s.key := rfl
@[simp] theorem State.putOutput_akey (t : List Byte) (n : Nat) :
    (s.putOutput t n).akey = s.akey := rfl
@[simp] theorem State.putOutput_aiv (t : List Byte) (n : Nat) : (s.putOutput t n).aiv = s.aiv := rfl
@[simp] theorem State.putOutput_mem (t : List Byte) (n : Nat) :
    (s.putOutput t n).mem = s.mem.writeBytes obufBase t := rfl
@[simp] theorem State.putOutput_ptrdy (t : List Byte) (n : Nat) :
    (s.putOutput t n).ptrdy = s.ptrdy := rfl
@[simp] theorem State.putOutput_ptLength (t : List Byte) (n : Nat) :
    (s.putOutput t n).ptLength = s.ptLength := rfl
@[simp] theorem State.putOutput_ptSprefix (t : List Byte) (n : Nat) :
    (s.putOutput t n).ptSprefix = s.ptSprefix := rfl
@[simp] theorem State.putOutput_ptArg (t : List Byte) (n : Nat) :
    (s.putOutput t n).ptArg = s.ptArg := rfl
@[simp] theorem State.putOutput_ptBcount (t : List Byte) (n : Nat) :
    (s.putOutput t n).ptBcount = s.ptBcount := rfl
@[simp] theorem State.putOutput_ptBbytes (t : List Byte) (n : Nat) :
    (s.putOutput t n).ptBbytes = s.ptBbytes := rfl
@[simp] theorem State.putOutput_ptBbits (t : List Byte) (n : Nat) :
    (s.putOutput t n).ptBbits = s.ptBbits := rfl
@[simp] theorem State.putOutput_slots (t : List Byte) (n : Nat) :
    (s.putOutput t n).slots = s.slots := rfl
@[simp] theorem State.putOutput_src (t : List Byte) (n : Nat) : (s.putOutput t n).src = s.src := rfl
@[simp] theorem State.putOutput_snk (t : List Byte) (n : Nat) : (s.putOutput t n).snk = s.snk := rfl
@[simp] theorem State.putOutput_cfg (t : List Byte) (n : Nat) : (s.putOutput t n).cfg = s.cfg := rfl
@[simp] theorem State.putOutput_epoch (t : List Byte) (n : Nat) :
    (s.putOutput t n).epoch = s.epoch := rfl
@[simp] theorem State.putOutput_draws (t : List Byte) (n : Nat) :
    (s.putOutput t n).draws = s.draws := rfl
@[simp] theorem State.putOutput_pending (t : List Byte) (n : Nat) :
    (s.putOutput t n).pending = s.pending := rfl
@[simp] theorem State.putOutput_trace (t : List Byte) (n : Nat) :
    (s.putOutput t n).trace = s.trace := rfl

@[simp] theorem State.encryptInput_err (n : Nat) : (s.encryptInput n).err = s.err := rfl
@[simp] theorem State.encryptInput_einfo0 (n : Nat) : (s.encryptInput n).einfo0 = s.einfo0 := rfl
@[simp] theorem State.encryptInput_einfo1 (n : Nat) : (s.encryptInput n).einfo1 = s.einfo1 := rfl
@[simp] theorem State.encryptInput_einfo2 (n : Nat) : (s.encryptInput n).einfo2 = s.einfo2 := rfl
@[simp] theorem State.encryptInput_einfo3 (n : Nat) : (s.encryptInput n).einfo3 = s.einfo3 := rfl
@[simp] theorem State.encryptInput_einfo4 (n : Nat) : (s.encryptInput n).einfo4 = s.einfo4 := rfl
@[simp] theorem State.encryptInput_result (n : Nat) : (s.encryptInput n).result = s.result := rfl
@[simp] theorem State.encryptInput_ilen (n : Nat) : (s.encryptInput n).ilen = s.ilen := rfl
@[simp] theorem State.encryptInput_olen (n : Nat) :
    (s.encryptInput n).olen = BitVec.ofNat 32 (dlen n) := rfl
@[simp] theorem State.encryptInput_mpBase (n : Nat) : (s.encryptInput n).mpBase = s.mpBase := rfl
@[simp] theorem State.encryptInput_mpExp (n : Nat) : (s.encryptInput n).mpExp = s.mpExp := rfl
@[simp] theorem State.encryptInput_mpMod (n : Nat) : (s.encryptInput n).mpMod = s.mpMod := rfl
@[simp] theorem State.encryptInput_mpRes (n : Nat) : (s.encryptInput n).mpRes = s.mpRes := rfl
@[simp] theorem State.encryptInput_esk (n : Nat) : (s.encryptInput n).esk = s.esk := rfl
@[simp] theorem State.encryptInput_key (n : Nat) : (s.encryptInput n).key = s.key := rfl
@[simp] theorem State.encryptInput_akey (n : Nat) : (s.encryptInput n).akey = s.akey := rfl
@[simp] theorem State.encryptInput_aiv (n : Nat) : (s.encryptInput n).aiv = s.aiv := rfl
@[simp] theorem State.encryptInput_mem (n : Nat) :
    (s.encryptInput n).mem = s.mem.writeBytes obufBase (doubleEncrypt (s.input n) s.key) := rfl
@[simp] theorem State.encryptInput_ptrdy (n : Nat) : (s.encryptInput n).ptrdy = s.ptrdy := rfl
@[simp] theorem State.encryptInput_ptLength (n : Nat) :
    (s.encryptInput n).ptLength = s.ptLength := rfl
@[simp] theorem State.encryptInput_ptSprefix (n : Nat) :
    (s.encryptInput n).ptSprefix = s.ptSprefix := rfl
@[simp] theorem State.encryptInput_ptArg (n : Nat) : (s.encryptInput n).ptArg = s.ptArg := rfl
@[simp] theorem State.encryptInput_ptBcount (n : Nat) :
    (s.encryptInput n).ptBcount = s.ptBcount := rfl
@[simp] theorem State.encryptInput_ptBbytes (n : Nat) :
    (s.encryptInput n).ptBbytes = s.ptBbytes := rfl
@[simp] theorem State.encryptInput_ptBbits (n : Nat) : (s.encryptInput n).ptBbits = s.ptBbits := rfl
@[simp] theorem State.encryptInput_slots (n : Nat) : (s.encryptInput n).slots = s.slots := rfl
@[simp] theorem State.encryptInput_src (n : Nat) : (s.encryptInput n).src = s.src := rfl
@[simp] theorem State.encryptInput_snk (n : Nat) : (s.encryptInput n).snk = s.snk := rfl
@[simp] theorem State.encryptInput_cfg (n : Nat) : (s.encryptInput n).cfg = s.cfg := rfl
@[simp] theorem State.encryptInput_epoch (n : Nat) : (s.encryptInput n).epoch = s.epoch := rfl
@[simp] theorem State.encryptInput_draws (n : Nat) : (s.encryptInput n).draws = s.draws := rfl
@[simp] theorem State.encryptInput_pending (n : Nat) : (s.encryptInput n).pending = s.pending := rfl
@[simp] theorem State.encryptInput_trace (n : Nat) : (s.encryptInput n).trace = s.trace := rfl

@[simp] theorem State.encodeKey_err : (s.encodeKey).err = s.err := by simp only [State.encodeKey]
@[simp] theorem State.encodeKey_einfo0 :
    (s.encodeKey).einfo0 = s.einfo0 := by simp only [State.encodeKey]
@[simp] theorem State.encodeKey_einfo1 :
    (s.encodeKey).einfo1 = s.einfo1 := by simp only [State.encodeKey]
@[simp] theorem State.encodeKey_einfo2 :
    (s.encodeKey).einfo2 = s.einfo2 := by simp only [State.encodeKey]
@[simp] theorem State.encodeKey_einfo3 :
    (s.encodeKey).einfo3 = s.einfo3 := by simp only [State.encodeKey]
@[simp] theorem State.encodeKey_einfo4 :
    (s.encodeKey).einfo4 = s.einfo4 := by simp only [State.encodeKey]
@[simp] theorem State.encodeKey_result :
    (s.encodeKey).result = s.result := by simp only [State.encodeKey]
@[simp] theorem State.encodeKey_ilen : (s.encodeKey).ilen = s.ilen := by simp only [State.encodeKey]
@[simp] theorem State.encodeKey_olen : (s.encodeKey).olen = s.olen := by simp only [State.encodeKey]
@[simp] theorem State.encodeKey_mpBase :
    (s.encodeKey).mpBase = s.mpBase := by simp only [State.encodeKey]
@[simp] theorem State.encodeKey_mpExp :
    (s.encodeKey).mpExp = s.mpExp := by simp only [State.encodeKey]
@[simp] theorem State.encodeKey_mpMod :
    (s.encodeKey).mpMod = s.mpMod := by simp only [State.encodeKey]
@[simp] theorem State.encodeKey_mpRes :
    (s.encodeKey).mpRes = s.mpRes := by simp only [State.encodeKey]
@[simp] theorem State.encodeKey_esk :
    (s.encodeKey).esk = BitVec.ofNat 1024 (encryptKey s.cfg s.key) := by simp only [State.encodeKey]
@[simp] theorem State.encodeKey_key : (s.encodeKey).key = s.key := by simp only [State.encodeKey]
@[simp] theorem State.encodeKey_akey : (s.encodeKey).akey = s.akey := by simp only [State.encodeKey]
@[simp] theorem State.encodeKey_aiv : (s.encodeKey).aiv = s.aiv := by simp only [State.encodeKey]
@[simp] theorem State.encodeKey_mem : (s.encodeKey).mem = s.mem := by simp only [State.encodeKey]
@[simp] theorem State.encodeKey_ptrdy :
    (s.encodeKey).ptrdy = s.ptrdy := by simp only [State.encodeKey]
@[simp] theorem State.encodeKey_ptLength :
    (s.encodeKey).ptLength = s.ptLength := by simp only [State.encodeKey]
@[simp] theorem State.encodeKey_ptSprefix :
    (s.encodeKey).ptSprefix = s.ptSprefix := by simp only [State.encodeKey]
@[simp] theorem State.encodeKey_ptArg :
    (s.encodeKey).ptArg = s.ptArg := by simp only [State.encodeKey]
@[simp] theorem State.encodeKey_ptBcount :
    (s.encodeKey).ptBcount = s.ptBcount := by simp only [State.encodeKey]
@[simp] theorem State.encodeKey_ptBbytes :
    (s.encodeKey).ptBbytes = s.ptBbytes := by simp only [State.encodeKey]
@[simp] theorem State.encodeKey_ptBbits :
    (s.encodeKey).ptBbits = s.ptBbits := by simp only [State.encodeKey]
@[simp] theorem State.encodeKey_slots :
    (s.encodeKey).slots = s.slots := by simp only [State.encodeKey]
@[simp] theorem State.encodeKey_src : (s.encodeKey).src = s.src := by simp only [State.encodeKey]
@[simp] theorem State.encodeKey_snk : (s.encodeKey).snk = s.snk := by simp only [State.encodeKey]
@[simp] theorem State.encodeKey_cfg : (s.encodeKey).cfg = s.cfg := by simp only [State.encodeKey]
@[simp] theorem State.encodeKey_epoch :
    (s.encodeKey).epoch = s.epoch := by simp only [State.encodeKey]
@[simp] theorem State.encodeKey_draws :
    (s.encodeKey).draws = s.draws := by simp only [State.encodeKey]
@[simp] theorem State.encodeKey_pending :
    (s.encodeKey).pending = s.pending := by simp only [State.encodeKey]
@[simp] theorem State.encodeKey_trace :
    (s.encodeKey).trace = s.trace := by simp only [State.encodeKey]

@[simp] theorem State.drawKey_err : (s.drawKey).err = s.err := by simp only [State.drawKey]
@[simp] theorem State.drawKey_einfo0 : (s.drawKey).einfo0 = s.einfo0 := by simp only [State.drawKey]
@[simp] theorem State.drawKey_einfo1 : (s.drawKey).einfo1 = s.einfo1 := by simp only [State.drawKey]
@[simp] theorem State.drawKey_einfo2 : (s.drawKey).einfo2 = s.einfo2 := by simp only [State.drawKey]
@[simp] theorem State.drawKey_einfo3 : (s.drawKey).einfo3 = s.einfo3 := by simp only [State.drawKey]
@[simp] theorem State.drawKey_einfo4 : (s.drawKey).einfo4 = s.einfo4 := by simp only [State.drawKey]
@[simp] theorem State.drawKey_result : (s.drawKey).result = s.result := by simp only [State.drawKey]
@[simp] theorem State.drawKey_ilen : (s.drawKey).ilen = s.ilen := by simp only [State.drawKey]
@[simp] theorem State.drawKey_olen : (s.drawKey).olen = s.olen := by simp only [State.drawKey]
@[simp] theorem State.drawKey_mpBase : (s.drawKey).mpBase = s.mpBase := by simp only [State.drawKey]
@[simp] theorem State.drawKey_mpExp : (s.drawKey).mpExp = s.mpExp := by simp only [State.drawKey]
@[simp] theorem State.drawKey_mpMod : (s.drawKey).mpMod = s.mpMod := by simp only [State.drawKey]
@[simp] theorem State.drawKey_mpRes : (s.drawKey).mpRes = s.mpRes := by simp only [State.drawKey]
@[simp] theorem State.drawKey_esk : (s.drawKey).esk = s.esk := by simp only [State.drawKey]
@[simp] theorem State.drawKey_key : (s.drawKey).key = genKey s.draws := by simp only [State.drawKey]
@[simp] theorem State.drawKey_akey : (s.drawKey).akey = s.akey := by simp only [State.drawKey]
@[simp] theorem State.drawKey_aiv : (s.drawKey).aiv = s.aiv := by simp only [State.drawKey]
@[simp] theorem State.drawKey_mem : (s.drawKey).mem = s.mem := by simp only [State.drawKey]
@[simp] theorem State.drawKey_ptrdy : (s.drawKey).ptrdy = s.ptrdy := by simp only [State.drawKey]
@[simp] theorem State.drawKey_ptLength :
    (s.drawKey).ptLength = s.ptLength := by simp only [State.drawKey]
@[simp] theorem State.drawKey_ptSprefix :
    (s.drawKey).ptSprefix = s.ptSprefix := by simp only [State.drawKey]
@[simp] theorem State.drawKey_ptArg : (s.drawKey).ptArg = s.ptArg := by simp only [State.drawKey]
@[simp] theorem State.drawKey_ptBcount :
    (s.drawKey).ptBcount = s.ptBcount := by simp only [State.drawKey]
@[simp] theorem State.drawKey_ptBbytes :
    (s.drawKey).ptBbytes = s.ptBbytes := by simp only [State.drawKey]
@[simp] theorem State.drawKey_ptBbits :
    (s.drawKey).ptBbits = s.ptBbits := by simp only [State.drawKey]
@[simp] theorem State.drawKey_slots : (s.drawKey).slots = s.slots := by simp only [State.drawKey]
@[simp] theorem State.drawKey_src : (s.drawKey).src = s.src := by simp only [State.drawKey]
@[simp] theorem State.drawKey_snk : (s.drawKey).snk = s.snk := by simp only [State.drawKey]
@[simp] theorem State.drawKey_cfg : (s.drawKey).cfg = s.cfg := by simp only [State.drawKey]
@[simp] theorem State.drawKey_epoch : (s.drawKey).epoch = s.epoch := by simp only [State.drawKey]
@[simp] theorem State.drawKey_draws :
    (s.drawKey).draws = s.draws + 16 := by simp only [State.drawKey]
@[simp] theorem State.drawKey_pending :
    (s.drawKey).pending = s.pending := by simp only [State.drawKey]
@[simp] theorem State.drawKey_trace : (s.drawKey).trace = s.trace := by simp only [State.drawKey]

@[simp] theorem State.setSlot_err (blk : Nat) (b : Block) : (s.setSlot blk b).err = s.err := rfl
@[simp] theorem State.setSlot_einfo0 (blk : Nat) (b : Block) :
    (s.setSlot blk b).einfo0 = s.einfo0 := rfl
@[simp] theorem State.setSlot_einfo1 (blk : Nat) (b : Block) :
    (s.setSlot blk b).einfo1 = s.einfo1 := rfl
@[simp] theorem State.setSlot_einfo2 (blk : Nat) (b : Block) :
    (s.setSlot blk b).einfo2 = s.einfo2 := rfl
@[simp] theorem State.setSlot_einfo3 (blk : Nat) (b : Block) :
    (s.setSlot blk b).einfo3 = s.einfo3 := rfl
@[simp] theorem State.setSlot_einfo4 (blk : Nat) (b : Block) :
    (s.setSlot blk b).einfo4 = s.einfo4 := rfl
@[simp] theorem State.setSlot_result (blk : Nat) (b : Block) :
    (s.setSlot blk b).result = s.result := rfl
@[simp] theorem State.setSlot_ilen (blk : Nat) (b : Block) : (s.setSlot blk b).ilen = s.ilen := rfl
@[simp] theorem State.setSlot_olen (blk : Nat) (b : Block) : (s.setSlot blk b).olen = s.olen := rfl
@[simp] theorem State.setSlot_mpBase (blk : Nat) (b : Block) :
    (s.setSlot blk b).mpBase = s.mpBase := rfl
@[simp] theorem State.setSlot_mpExp (blk : Nat) (b : Block) :
    (s.setSlot blk b).mpExp = s.mpExp := rfl
@[simp] theorem State.setSlot_mpMod (blk : Nat) (b : Block) :
    (s.setSlot blk b).mpMod = s.mpMod := rfl
@[simp] theorem State.setSlot_mpRes (blk : Nat) (b : Block) :
    (s.setSlot blk b).mpRes = s.mpRes := rfl
@[simp] theorem State.setSlot_esk (blk : Nat) (b : Block) : (s.setSlot blk b).esk = s.esk := rfl
@[simp] theorem State.setSlot_key (blk : Nat) (b : Block) : (s.setSlot blk b).key = s.key := rfl
@[simp] theorem State.setSlot_akey (blk : Nat) (b : Block) : (s.setSlot blk b).akey = s.akey := rfl
@[simp] theorem State.setSlot_aiv (blk : Nat) (b : Block) : (s.setSlot blk b).aiv = s.aiv := rfl
@[simp] theorem State.setSlot_mem (blk : Nat) (b : Block) : (s.setSlot blk b).mem = s.mem := rfl
@[simp] theorem State.setSlot_ptrdy (blk : Nat) (b : Block) :
    (s.setSlot blk b).ptrdy = s.ptrdy := rfl
@[simp] theorem State.setSlot_ptLength (blk : Nat) (b : Block) :
    (s.setSlot blk b).ptLength = s.ptLength := rfl
@[simp] theorem State.setSlot_ptSprefix (blk : Nat) (b : Block) :
    (s.setSlot blk b).ptSprefix = s.ptSprefix := rfl
@[simp] theorem State.setSlot_ptArg (blk : Nat) (b : Block) :
    (s.setSlot blk b).ptArg = s.ptArg := rfl
@[simp] theorem State.setSlot_ptBcount (blk : Nat) (b : Block) :
    (s.setSlot blk b).ptBcount = s.ptBcount := rfl
@[simp] theorem State.setSlot_ptBbytes (blk : Nat) (b : Block) :
    (s.setSlot blk b).ptBbytes = s.ptBbytes := rfl
@[simp] theorem State.setSlot_ptBbits (blk : Nat) (b : Block) :
    (s.setSlot blk b).ptBbits = s.ptBbits := rfl
@[simp] theorem State.setSlot_slots (blk : Nat) (b : Block) :
    (s.setSlot blk b).slots = assocPut s.slots blk b := rfl
@[simp] theorem State.setSlot_src (blk : Nat) (b : Block) : (s.setSlot blk b).src = s.src := rfl
@[simp] theorem State.setSlot_snk (blk : Nat) (b : Block) : (s.setSlot blk b).snk = s.snk := rfl
@[simp] theorem State.setSlot_cfg (blk : Nat) (b : Block) : (s.setSlot blk b).cfg = s.cfg := rfl
@[simp] theorem State.setSlot_epoch (blk : Nat) (b : Block) :
    (s.setSlot blk b).epoch = s.epoch := rfl
@[simp] theorem State.setSlot_draws (blk : Nat) (b : Block) :
    (s.setSlot blk b).draws = s.draws := rfl
@[simp] theorem State.setSlot_pending (blk : Nat) (b : Block) :
    (s.setSlot blk b).pending = s.pending := rfl
@[simp] theorem State.setSlot_trace (blk : Nat) (b : Block) :
    (s.setSlot blk b).trace = s.trace := rfl

@[simp] theorem State.clearSlot_err (blk : Nat) : (s.clearSlot blk).err = s.err := rfl
@[simp] theorem State.clearSlot_einfo0 (blk : Nat) : (s.clearSlot blk).einfo0 = s.einfo0 := rfl
@[simp] theorem State.clearSlot_einfo1 (blk : Nat) : (s.clearSlot blk).einfo1 = s.einfo1 := rfl
@[simp] theorem State.clearSlot_einfo2 (blk : Nat) : (s.clearSlot blk).einfo2 = s.einfo2 := rfl
@[simp] theorem State.clearSlot_einfo3 (blk : Nat) : (s.clearSlot blk).einfo3 = s.einfo3 := rfl
@[simp] theorem State.clearSlot_einfo4 (blk : Nat) : (s.clearSlot blk).einfo4 = s.einfo4 := rfl
@[simp] theorem State.clearSlot_result (blk : Nat) : (s.clearSlot blk).result = s.result := rfl
@[simp] theorem State.clearSlot_ilen (blk : Nat) : (s.clearSlot blk).ilen = s.ilen := rfl
@[simp] theorem State.clearSlot_olen (blk : Nat) : (s.clearSlot blk).olen = s.olen := rfl
@[simp] theorem State.clearSlot_mpBase (blk : Nat) : (s.clearSlot blk).mpBase = s.mpBase := rfl
@[simp] theorem State.clearSlot_mpExp (blk : Nat) : (s.clearSlot blk).mpExp = s.mpExp := rfl
@[simp] theorem State.clearSlot_mpMod (blk : Nat) : (s.clearSlot blk).mpMod = s.mpMod := rfl
@[simp] theorem State.clearSlot_mpRes (blk : Nat) : (s.clearSlot blk).mpRes = s.mpRes := rfl
@[simp] theorem State.clearSlot_esk (blk : Nat) : (s.clearSlot blk).esk = s.esk := rfl
@[simp] theorem State.clearSlot_key (blk : Nat) : (s.clearSlot blk).key = s.key := rfl
@[simp] theorem State.clearSlot_akey (blk : Nat) : (s.clearSlot blk).akey = s.akey := rfl
@[simp] theorem State.clearSlot_aiv (blk : Nat) : (s.clearSlot blk).aiv = s.aiv := rfl
@[simp] theorem State.clearSlot_mem (blk : Nat) : (s.clearSlot blk).mem = s.mem := rfl
@[simp] theorem State.clearSlot_ptrdy (blk : Nat) : (s.clearSlot blk).ptrdy = s.ptrdy := rfl
@[simp] theorem State.clearSlot_ptLength (blk : Nat) :
    (s.clearSlot blk).ptLength = s.ptLength := rfl
@[simp] theorem State.clearSlot_ptSprefix (blk : Nat) :
    (s.clearSlot blk).ptSprefix = s.ptSprefix := rfl
@[simp] theorem State.clearSlot_ptArg (blk : Nat) : (s.clearSlot blk).ptArg = s.ptArg := rfl
@[simp] theorem State.clearSlot_ptBcount (blk : Nat) :
    (s.clearSlot blk).ptBcount = s.ptBcount := rfl
@[simp] theorem State.clearSlot_ptBbytes (blk : Nat) :
    (s.clearSlot blk).ptBbytes = s.ptBbytes := rfl
@[simp] theorem State.clearSlot_ptBbits (blk : Nat) : (s.clearSlot blk).ptBbits = s.ptBbits := rfl
@[simp] theorem State.clearSlot_slots (blk : Nat) :
    (s.clearSlot blk).slots = assocErase s.slots blk := rfl
@[simp] theorem State.clearSlot_src (blk : Nat) : (s.clearSlot blk).src = s.src := rfl
@[simp] theorem State.clearSlot_snk (blk : Nat) : (s.clearSlot blk).snk = s.snk := rfl
@[simp] theorem State.clearSlot_cfg (blk : Nat) : (s.clearSlot blk).cfg = s.cfg := rfl
@[simp] theorem State.clearSlot_epoch (blk : Nat) : (s.clearSlot blk).epoch = s.epoch := rfl
@[simp] theorem State.clearSlot_draws (blk : Nat) : (s.clearSlot blk).draws = s.draws := rfl
@[simp] theorem State.clearSlot_pending (blk : Nat) : (s.clearSlot blk).pending = s.pending := rfl
@[simp] theorem State.clearSlot_trace (blk : Nat) : (s.clearSlot blk).trace = s.trace := rfl

@[simp] theorem State.putBool_err (b : Bool) : (s.putBool b).err = s.err := rfl
@[simp] theorem State.putBool_einfo0 (b : Bool) : (s.putBool b).einfo0 = s.einfo0 := rfl
@[simp] theorem State.putBool_einfo1 (b : Bool) : (s.putBool b).einfo1 = s.einfo1 := rfl
@[simp] theorem State.putBool_einfo2 (b : Bool) : (s.putBool b).einfo2 = s.einfo2 := rfl
@[simp] theorem State.putBool_einfo3 (b : Bool) : (s.putBool b).einfo3 = s.einfo3 := rfl
@[simp] theorem State.putBool_einfo4 (b : Bool) : (s.putBool b).einfo4 = s.einfo4 := rfl
@[simp] theorem State.putBool_result (b : Bool) : (s.putBool b).result = if b then 1 else 0 := rfl
@[simp] theorem State.putBool_ilen (b : Bool) : (s.putBool b).ilen = s.ilen := rfl
@[simp] theorem State.putBool_olen (b : Bool) : (s.putBool b).olen = s.olen := rfl
@[simp] theorem State.putBool_mpBase (b : Bool) : (s.putBool b).mpBase = s.mpBase := rfl
@[simp] theorem State.putBool_mpExp (b : Bool) : (s.putBool b).mpExp = s.mpExp := rfl
@[simp] theorem State.putBool_mpMod (b : Bool) : (s.putBool b).mpMod = s.mpMod := rfl
@[simp] theorem State.putBool_mpRes (b : Bool) : (s.putBool b).mpRes = s.mpRes := rfl
@[simp] theorem State.putBool_esk (b : Bool) : (s.putBool b).esk = s.esk := rfl
@[simp] theorem State.putBool_key (b : Bool) : (s.putBool b).key = s.key := rfl
@[simp] theorem State.putBool_akey (b : Bool) : (s.putBool b).akey = s.akey := rfl
@[simp] theorem State.putBool_aiv (b : Bool) : (s.putBool b).aiv = s.aiv := rfl
@[simp] theorem State.putBool_mem (b : Bool) : (s.putBool b).mem = s.mem := rfl
@[simp] theorem State.putBool_ptrdy (b : Bool) : (s.putBool b).ptrdy = s.ptrdy := rfl
@[simp] theorem State.putBool_ptLength (b : Bool) : (s.putBool b).ptLength = s.ptLength := rfl
@[simp] theorem State.putBool_ptSprefix (b : Bool) : (s.putBool b).ptSprefix = s.ptSprefix := rfl
@[simp] theorem State.putBool_ptArg (b : Bool) : (s.putBool b).ptArg = s.ptArg := rfl
@[simp] theorem State.putBool_ptBcount (b : Bool) : (s.putBool b).ptBcount = s.ptBcount := rfl
@[simp] theorem State.putBool_ptBbytes (b : Bool) : (s.putBool b).ptBbytes = s.ptBbytes := rfl
@[simp] theorem State.putBool_ptBbits (b : Bool) : (s.putBool b).ptBbits = s.ptBbits := rfl
@[simp] theorem State.putBool_slots (b : Bool) : (s.putBool b).slots = s.slots := rfl
@[simp] theorem State.putBool_src (b : Bool) : (s.putBool b).src = s.src := rfl
@[simp] theorem State.putBool_snk (b : Bool) : (s.putBool b).snk = s.snk := rfl
@[simp] theorem State.putBool_cfg (b : Bool) : (s.putBool b).cfg = s.cfg := rfl
@[simp] theorem State.putBool_epoch (b : Bool) : (s.putBool b).epoch = s.epoch := rfl
@[simp] theorem State.putBool_draws (b : Bool) : (s.putBool b).draws = s.draws := rfl
@[simp] theorem State.putBool_pending (b : Bool) : (s.putBool b).pending = s.pending := rfl
@[simp] theorem State.putBool_trace (b : Bool) : (s.putBool b).trace = s.trace := rfl

@[simp] theorem State.putCount_err (n : Nat) : (s.putCount n).err = s.err := rfl
@[simp] theorem State.putCount_einfo0 (n : Nat) : (s.putCount n).einfo0 = s.einfo0 := rfl
@[simp] theorem State.putCount_einfo1 (n : Nat) : (s.putCount n).einfo1 = s.einfo1 := rfl
@[simp] theorem State.putCount_einfo2 (n : Nat) : (s.putCount n).einfo2 = s.einfo2 := rfl
@[simp] theorem State.putCount_einfo3 (n : Nat) : (s.putCount n).einfo3 = s.einfo3 := rfl
@[simp] theorem State.putCount_einfo4 (n : Nat) : (s.putCount n).einfo4 = s.einfo4 := rfl
@[simp] theorem State.putCount_result (n : Nat) : (s.putCount n).result = BitVec.ofNat 64 n := rfl
@[simp] theorem State.putCount_ilen (n : Nat) : (s.putCount n).ilen = s.ilen := rfl
@[simp] theorem State.putCount_olen (n : Nat) : (s.putCount n).olen = s.olen := rfl
@[simp] theorem State.putCount_mpBase (n : Nat) : (s.putCount n).mpBase = s.mpBase := rfl
@[simp] theorem State.putCount_mpExp (n : Nat) : (s.putCount n).mpExp = s.mpExp := rfl
@[simp] theorem State.putCount_mpMod (n : Nat) : (s.putCount n).mpMod = s.mpMod := rfl
@[simp] theorem State.putCount_mpRes (n : Nat) : (s.putCount n).mpRes = s.mpRes := rfl
@[simp] theorem State.putCount_esk (n : Nat) : (s.putCount n).esk = s.esk := rfl
@[simp] theorem State.putCount_key (n : Nat) : (s.putCount n).key = s.key := rfl
@[simp] theorem State.putCount_akey (n : Nat) : (s.putCount n).akey = s.akey := rfl
@[simp] theorem State.putCount_aiv (n : Nat) : (s.putCount n).aiv = s.aiv := rfl
@[simp] theorem State.putCount_mem (n : Nat) : (s.putCount n).mem = s.mem := rfl
@[simp] theorem State.putCount_ptrdy (n : Nat) : (s.putCount n).ptrdy = s.ptrdy := rfl
@[simp] theorem State.putCount_ptLength (n : Nat) : (s.putCount n).ptLength = s.ptLength := rfl
@[simp] theorem State.putCount_ptSprefix (n : Nat) : (s.putCount n).ptSprefix = s.ptSprefix := rfl
@[simp] theorem State.putCount_ptArg (n : Nat) : (s.putCount n).ptArg = s.ptArg := rfl
@[simp] theorem State.putCount_ptBcount (n : Nat) : (s.putCount n).ptBcount = s.ptBcount := rfl
@[simp] theorem State.putCount_ptBbytes (n : Nat) : (s.putCount n).ptBbytes = s.ptBbytes := rfl
@[simp] theorem State.putCount_ptBbits (n : Nat) : (s.putCount n).ptBbits = s.ptBbits := rfl
@[simp] theorem State.putCount_slots (n : Nat) : (s.putCount n).slots = s.slots := rfl
@[simp] theorem State.putCount_src (n : Nat) : (s.putCount n).src = s.src := rfl
@[simp] theorem State.putCount_snk (n : Nat) : (s.putCount n).snk = s.snk := rfl
@[simp] theorem State.putCount_cfg (n : Nat) : (s.putCount n).cfg = s.cfg := rfl
@[simp] theorem State.putCount_epoch (n : Nat) : (s.putCount n).epoch = s.epoch := rfl
@[simp] theorem State.putCount_draws (n : Nat) : (s.putCount n).draws = s.draws := rfl
@[simp] theorem State.putCount_pending (n : Nat) : (s.putCount n).pending = s.pending := rfl
@[simp] theorem State.putCount_trace (n : Nat) : (s.putCount n).trace = s.trace := rfl

@[simp] theorem State.snkWrite_err (t : List Byte) : (s.snkWrite t).err = s.err := rfl
@[simp] theorem State.snkWrite_einfo0 (t : List Byte) : (s.snkWrite t).einfo0 = s.einfo0 := rfl
@[simp] theorem State.snkWrite_einfo1 (t : List Byte) : (s.snkWrite t).einfo1 = s.einfo1 := rfl
@[simp] theorem State.snkWrite_einfo2 (t : List Byte) : (s.snkWrite t).einfo2 = s.einfo2 := rfl
@[simp] theorem State.snkWrite_einfo3 (t : List Byte) : (s.snkWrite t).einfo3 = s.einfo3 := rfl
@[simp] theorem State.snkWrite_einfo4 (t : List Byte) : (s.snkWrite t).einfo4 = s.einfo4 := rfl
@[simp] theorem State.snkWrite_result (t : List Byte) : (s.snkWrite t).result = s.result := rfl
@[simp] theorem State.snkWrite_ilen (t : List Byte) : (s.snkWrite t).ilen = s.ilen := rfl
@[simp] theorem State.snkWrite_olen (t : List Byte) : (s.snkWrite t).olen = s.olen := rfl
@[simp] theorem State.snkWrite_mpBase (t : List Byte) : (s.snkWrite t).mpBase = s.mpBase := rfl
@[simp] theorem State.snkWrite_mpExp (t : List Byte) : (s.snkWrite t).mpExp = s.mpExp := rfl
@[simp] theorem State.snkWrite_mpMod (t : List Byte) : (s.snkWrite t).mpMod = s.mpMod := rfl
@[simp] theorem State.snkWrite_mpRes (t : List Byte) : (s.snkWrite t).mpRes = s.mpRes := rfl
@[simp] theorem State.snkWrite_esk (t : List Byte) : (s.snkWrite t).esk = s.esk := rfl
@[simp] theorem State.snkWrite_key (t : List Byte) : (s.snkWrite t).key = s.key := rfl
@[simp] theorem State.snkWrite_akey (t : List Byte) : (s.snkWrite t).akey = s.akey := rfl
@[simp] theorem State.snkWrite_aiv (t : List Byte) : (s.snkWrite t).aiv = s.aiv := rfl
@[simp] theorem State.snkWrite_mem (t : List Byte) : (s.snkWrite t).mem = s.mem := rfl
@[simp] theorem State.snkWrite_ptrdy (t : List Byte) : (s.snkWrite t).ptrdy = s.ptrdy := rfl
@[simp] theorem State.snkWrite_ptLength (t : List Byte) :
    (s.snkWrite t).ptLength = s.ptLength := rfl
@[simp] theorem State.snkWrite_ptSprefix (t : List Byte) :
    (s.snkWrite t).ptSprefix = s.ptSprefix := rfl
@[simp] theorem State.snkWrite_ptArg (t : List Byte) : (s.snkWrite t).ptArg = s.ptArg := rfl
@[simp] theorem State.snkWrite_ptBcount (t : List Byte) :
    (s.snkWrite t).ptBcount = s.ptBcount := rfl
@[simp] theorem State.snkWrite_ptBbytes (t : List Byte) :
    (s.snkWrite t).ptBbytes = s.ptBbytes := rfl
@[simp] theorem State.snkWrite_ptBbits (t : List Byte) : (s.snkWrite t).ptBbits = s.ptBbits := rfl
@[simp] theorem State.snkWrite_slots (t : List Byte) : (s.snkWrite t).slots = s.slots := rfl
@[simp] theorem State.snkWrite_src (t : List Byte) : (s.snkWrite t).src = s.src := rfl
@[simp] theorem State.snkWrite_snk (t : List Byte) : (s.snkWrite t).snk = s.snk ++ t := rfl
@[simp] theorem State.snkWrite_cfg (t : List Byte) : (s.snkWrite t).cfg = s.cfg := rfl
@[simp] theorem State.snkWrite_epoch (t : List Byte) : (s.snkWrite t).epoch = s.epoch := rfl
@[simp] theorem State.snkWrite_draws (t : List Byte) : (s.snkWrite t).draws = s.draws := rfl
@[simp] theorem State.snkWrite_pending (t : List Byte) : (s.snkWrite t).pending = s.pending := rfl
@[simp] theorem State.snkWrite_trace (t : List Byte) : (s.snkWrite t).trace = s.trace := rfl

end

end Sys2Proof.Machine
end

