-- ==== Sys2Proof/Laws/Codec.lean ====
section
/-! SUPPORT. The laws of the codec's shared operations: the input bytes, the lengths a chain and a
group of characters have, the characters of a group, a drawn key, and the key encoding. -/

namespace Sys2Proof.Machine

/-! ### The input -/

@[simp] theorem State.length_input (s : State) (n : Nat) : (s.input n).length = n := by
  simp [State.input]

/-- The input is the bytes of `IBUF` and nothing else, R30. -/
theorem State.input_congr {s t : State} {n : Nat}
    (h : ∀ i, i < n → s.bufByte (ibufBase + i) = t.bufByte (ibufBase + i)) :
    s.input n = t.input n := by
  unfold State.input
  exact List.map_congr_left fun i hi => h i (List.mem_range.mp hi)

/-! ### The cipher's text lengths -/

theorem length_cbcChain (k : Bytes16) (bs : List Bytes16) :
    ∀ c, (cbcChain k c bs).length = bs.length := by
  induction bs with
  | nil => intro c; rfl
  | cons b bs ih => intro c; simp [cbcChain, ih]

theorem length_flatMap_bytes16 (l : List Bytes16) : (l.flatMap bytes16).length = 16 * l.length := by
  induction l with
  | nil => rfl
  | cons b bs ih => simp [ih]; omega

@[simp] theorem length_toBlocks (p : List Byte) : (toBlocks p).length = p.length / 16 := by
  simp [toBlocks]

@[simp] theorem length_b64Quad (v : Nat) : (b64Quad v).length = 4 := rfl

/-- The characters of the alphabet, R134. -/
theorem b64Char_eq (d : Nat) (h : d < 64) : b64Char d = base64Alphabet.getD d 0 := by
  interval_cases d <;> rfl

/-- Three bytes are a 24-bit number, R134. -/
theorem beInt_three_lt (a b c : Byte) : beInt [a, b, c] < 2 ^ 24 := by
  have := a.isLt; have := b.isLt; have := c.isLt
  simp only [beInt, List.foldl]; omega

/-- The four characters of a 24-bit group by their indices, R134. -/
theorem b64Quad_eq (v : Nat) (h : v < 2 ^ 24) : b64Quad v =
    [base64Alphabet.getD (v / 2 ^ 18) 0, base64Alphabet.getD (v / 2 ^ 12 % 64) 0,
      base64Alphabet.getD (v / 2 ^ 6 % 64) 0, base64Alphabet.getD (v % 64) 0] := by
  rw [b64Quad, b64Char_eq _ (by omega), b64Char_eq _ (by omega), b64Char_eq _ (by omega),
    b64Char_eq _ (by omega), Nat.mod_eq_of_lt (by omega : v / 2 ^ 18 < 64)]

/-- A chain of blocks, one after the other: what follows does not change what went before, R132. -/
theorem cbcChain_append (k : Bytes16) (xs ys : List Bytes16) : ∀ c,
    cbcChain k c (xs ++ ys) =
      cbcChain k c xs ++ cbcChain k ((c :: cbcChain k c xs).getLastD c) ys := by
  induction xs with
  | nil => intro c; rfl
  | cons x xs ih =>
    intro c
    simp only [List.cons_append, cbcChain, ih]
    cases hx : cbcChain k (aes128 k (x ^^^ c)) xs <;> simp [List.getLastD]

/-! ### Drawn keys and the key encoding -/

theorem isAlnum_alnumByte (i : Fin 62) : isAlnum (alnumByte i) = true := by
  revert i; decide

/-- Everything drawing a key can do, R150: sixteen symbols of `ALNUM` in `KEY`, sixteen draws
used. -/
theorem State.drawKey_cases (s : State) :
    ∃ k, (∀ i, i < 16 → isAlnum (byteOf k i) = true) ∧
      s.drawKey = { s with key := k, draws := s.draws + 16 } := by
  refine ⟨genKey s.draws, fun i hi => ?_, rfl⟩
  rw [genKey, byteOf_ofBytes16 _ _ hi]
  simp [List.getD_eq_getElem?_getD, hi, drawByte, isAlnum_alnumByte]

theorem nModulus_bounds (c : Config) : 2 ^ 1023 ≤ c.nModulus ∧ c.nModulus < 2 ^ 1024 := by
  have h := c.modulusLow.isLt
  have h2 : (2 : Nat) ^ 1024 = 2 ^ 1023 + 2 ^ 1023 := by rw [← Nat.two_mul, ← Nat.pow_succ']
  unfold Config.nModulus
  omega

/-- A power modulo a modulus that fits a register fits it too: nothing is cut off, R102. -/
theorem modPow_fits (b e m : Nat) (h1 : 1 ≤ m) (h2 : m ≤ 2 ^ 1024) :
    (BitVec.ofNat 1024 (modPow b e m)).toNat = modPow b e m := by
  have h : modPow b e m < m := Nat.mod_lt _ h1
  rw [BitVec.toNat_ofNat, Nat.mod_eq_of_lt (Nat.lt_of_lt_of_le h h2)]

/-- What the key encoding leaves in `ESK`, R106. -/
theorem State.encodeKey_esk_toNat (s : State) :
    s.encodeKey.esk.toNat = modPow (leInt (bytes16 s.key)) ePub s.cfg.nModulus := by
  have h := nModulus_bounds s.cfg
  have h0 : 0 < 2 ^ 1023 := Nat.two_pow_pos _
  rw [← beInt_reverse]
  exact modPow_fits _ _ _ (by omega) (by omega)

end Sys2Proof.Machine
end

