-- ==== Sys2Proof/Laws/Ops.lean ====
section
/-! SUPPORT. One lemma for each shared operation, saying once everything it can do: the endings of a
command, the checks, allocation, setting a bit, reading a record. -/

namespace Sys2Proof.Machine

/-! ### The endings of a command -/

theorem State.succeed_eq (s : State) : s.succeed = s.ok := rfl

theorem State.raise_illcmd (s : State) (w : Word) : s.raise (.illcmd w) = s.report 1 w 0 0 0 0 := rfl
theorem State.raise_modzero (s : State) : s.raise .modzero = s.report 2 0 0 0 0 0 := rfl
theorem State.raise_len (s : State) (n r : Nat) :
    s.raise (.len n r) = s.report 3 (BitVec.ofNat 32 n) (BitVec.ofNat 32 r)
      (BitVec.ofNat 32 s.cfg.ibufCap) (BitVec.ofNat 32 s.cfg.obufCap) 0 := rfl
theorem State.raise_state (s : State) :
    s.raise .state = s.report 4 (if s.ptrdy then 1 else 0) 0 0 0 0 := rfl
theorem State.raise_shape (s : State) :
    s.raise .shape = s.report 5 s.ptLength s.ptSprefix 0 0 0 := rfl
theorem State.raise_range (s : State) : s.raise .range = s.rangeReport := rfl
theorem State.raise_serShape (s : State) (bc bb : Nat) :
    s.raise (.serShape bc bb) = s.report 7 1 s.ptBcount s.ptBbytes (BitVec.ofNat 32 bc)
      (BitVec.ofNat 32 bb) := rfl
theorem State.raise_serTrunc (s : State) (b e r p : Nat) :
    s.raise (.serTrunc b e r p) = s.report 7 2 (BitVec.ofNat 32 b) (BitVec.ofNat 32 e)
      (BitVec.ofNat 32 r) (BitVec.ofNat 32 p) := rfl
theorem State.raise_serBadflag (s : State) (b : Nat) (f : Byte) :
    s.raise (.serBadflag b f) = s.report 7 3 (BitVec.ofNat 32 b) (f.setWidth 32) 0 0 := rfl
theorem State.raise_nomem (s : State) (b : Nat) :
    s.raise (.nomem b) = s.report 8 0 (BitVec.ofNat 32 b) 0 0 0 := rfl

/-- Every error has a code from 1 to 8, R201. -/
theorem CmdError.code_bounds (e : CmdError) : e.code ≠ 0 ∧ e.code.toNat ≤ 8 := by
  cases e <;> simp [CmdError.code]

/-- A raise changes the report and nothing else. -/
theorem State.raise_eq (s : State) (e : CmdError) :
    ∃ a b c d f, s.raise e = s.report e.code a b c d f := ⟨_, _, _, _, _, rfl⟩

theorem State.report_self (s : State) :
    s.report s.err s.einfo0 s.einfo1 s.einfo2 s.einfo3 s.einfo4 = s := rfl

/-! ### The checks -/

/-- Everything the LEN check can answer, R135. -/
theorem State.lenCheck_cases (s : State) (L : Nat → Nat) :
    (s.cfg.ibufCap < s.ilen.toNat ∧ s.lenCheck L = some (.len s.ilen.toNat 0)) ∨
    (s.ilen.toNat ≤ s.cfg.ibufCap ∧ s.cfg.obufCap < L s.ilen.toNat ∧
      s.lenCheck L = some (.len s.ilen.toNat (L s.ilen.toNat))) ∨
    (s.ilen.toNat ≤ s.cfg.ibufCap ∧ L s.ilen.toNat ≤ s.cfg.obufCap ∧ s.lenCheck L = none) := by
  unfold State.lenCheck
  by_cases h1 : s.cfg.ibufCap < s.ilen.toNat
  · exact .inl ⟨h1, by simp [h1]⟩
  · by_cases h2 : s.cfg.obufCap < L s.ilen.toNat
    · exact .inr (.inl ⟨by omega, h2, by simp [h1, h2]⟩)
    · exact .inr (.inr ⟨by omega, by omega, by simp [h1, h2]⟩)

/-- Everything the checks of an id command can answer, R205. -/
theorem State.idCheck_cases (s : State) :
    (s.ptrdy = false ∧ s.idCheck = some .state) ∨
    (s.ptrdy = true ∧ s.ptBcount.toNat * s.ptBbits.toNat ≤ s.ptArg.toNat ∧
      s.idCheck = some .range) ∨
    (s.ptrdy = true ∧ s.ptArg.toNat < s.ptBcount.toNat * s.ptBbits.toNat ∧ s.idCheck = none) := by
  unfold State.idCheck State.idInRange
  cases hp : s.ptrdy
  · exact .inl ⟨rfl, by simp⟩
  · by_cases h : s.ptArg.toNat < s.ptBcount.toNat * s.ptBbits.toNat
    · exact .inr (.inr ⟨rfl, h, by simp [h]⟩)
    · exact .inr (.inl ⟨rfl, by omega, by simp [h]⟩)

theorem State.roomForBlock_iff (s : State) : s.roomForBlock = true ↔ s.HasRoom := by
  unfold State.roomForBlock State.HasRoom
  cases s.cfg.ptMaxAlloc <;> simp

/-! ### Slots -/

theorem State.slot_setSlot (s : State) (blk : Nat) (b : Block) (c : Nat) :
    (s.setSlot blk b).slot c = if c = blk then some b else s.slot c := assocGet_put _ _ _ _

theorem State.slot_clearSlot (s : State) (blk c : Nat) :
    (s.clearSlot blk).slot c = if c = blk then none else s.slot c := assocGet_erase _ _ _

/-- `slot` and everything built on it look at the slots alone. -/
theorem State.slot_congr {s t : State} (h : t.slots = s.slots) (c : Nat) : t.slot c = s.slot c := by
  rw [State.slot, State.slot, h]

theorem State.bitAt_congr {s t : State} {c : Nat} (h : t.slot c = s.slot c) (i k : Nat) :
    t.bitAt c i k = s.bitAt c i k := by rw [State.bitAt, State.bitAt, h]

theorem State.allocated_iff (s : State) (c : Nat) : s.allocated c = true ↔ s.slot c ≠ none := by
  rw [State.allocated, Option.isSome_iff_ne_none]

/-- Everything `allocate` can do, R163. -/
theorem State.allocate_cases (s : State) (blk : Nat) :
    (s.slot blk ≠ none ∧ s.allocate blk = .ok s) ∨
    (s.slot blk = none ∧ s.HasRoom ∧ s.allocate blk = .ok (s.setSlot blk [])) ∨
    (s.slot blk = none ∧ ¬ s.HasRoom ∧ s.allocate blk = .error (.nomem blk)) := by
  unfold State.allocate
  rcases h : s.slot blk with _ | b
  · by_cases hr : s.HasRoom
    · exact .inr (.inl ⟨rfl, hr, by simp [(s.roomForBlock_iff).mpr hr]⟩)
    · refine .inr (.inr ⟨rfl, hr, ?_⟩)
      rw [← s.roomForBlock_iff] at hr
      simp [hr]
  · exact .inl ⟨by simp, rfl⟩

/-- The buffer of a slot, all zeros when it is unallocated: what PTSET and PTTAS start from. -/
def State.bufferOf (s : State) (blk : Nat) : Block := (s.slot blk).getD []

/-- Everything allocating a block and setting a bit in it can do, R167. -/
theorem State.allocateAndSet_cases (s : State) (p : BitPlace) :
    (s.slot p.blk = none ∧ ¬ s.HasRoom ∧ s.allocateAndSet p = .error (.nomem p.blk)) ∨
    ((s.slot p.blk ≠ none ∨ s.HasRoom) ∧ ∃ t, s.allocateAndSet p = .ok t ∧
      t = { s with slots := t.slots } ∧
      t.slot p.blk = some (Block.write (s.bufferOf p.blk) p.byteIdx
        ((s.bufferOf p.blk).read p.byteIdx ||| p.mask)) ∧
      (∀ c, c ≠ p.blk → t.slot c = s.slot c)) := by
  rcases s.allocate_cases p.blk with ⟨hs, ha⟩ | ⟨hs, hr, ha⟩ | ⟨hs, hr, ha⟩
  · obtain ⟨b, hb⟩ := Option.ne_none_iff_exists'.mp hs
    refine .inr ⟨.inl hs, s.setBit p, by rw [State.allocateAndSet, ha], ?_, ?_, ?_⟩
    · simp only [State.setBit, hb]; rfl
    · simp only [State.setBit, hb, State.slot_setSlot, State.bufferOf, if_true, Option.getD_some]
    · intro c hc
      simp only [State.setBit, hb, State.slot_setSlot, if_neg hc]
  · have hb : (s.setSlot p.blk []).slot p.blk = some [] := by rw [State.slot_setSlot, if_pos rfl]
    refine .inr ⟨.inr hr, (s.setSlot p.blk []).setBit p, by rw [State.allocateAndSet, ha], ?_, ?_, ?_⟩
    · simp only [State.setBit, hb]; rfl
    · simp only [State.setBit, hb, State.slot_setSlot, State.bufferOf, if_true, hs, Option.getD_none]
    · intro c hc
      simp only [State.setBit, hb, State.slot_setSlot, if_neg hc]
  · exact .inl ⟨hs, hr, by rw [State.allocateAndSet, ha]⟩

/-! ### The mask of an id -/

/-- The mask of a bit position, as bits, R162. -/
theorem mask_getLsbD (n k : Nat) (hn : n < 8) (hk : k < 8) :
    (BitVec.ofNat 8 (2 ^ n)).getLsbD k = decide (k = n) := by
  interval_cases n <;> interval_cases k <;> rfl

/-- A masked byte is not 0 exactly when the bit is set, R162. -/
theorem and_mask_ne_zero (b : Byte) (n : Nat) (hn : n < 8) :
    (b &&& BitVec.ofNat 8 (2 ^ n) != 0) = b.getLsbD n := by
  rw [Bool.eq_iff_iff, bne_iff_ne]
  constructor
  · intro h
    by_contra hb
    refine h (BitVec.eq_of_getLsbD_eq fun k hk => ?_)
    rw [BitVec.getLsbD_and, mask_getLsbD n k hn hk]
    by_cases hkn : k = n
    · subst hkn; simp [hb]
    · simp [hkn]
  · intro h h0
    have := congrArg (fun x : Byte => x.getLsbD n) h0
    simp only [BitVec.getLsbD_and, mask_getLsbD n n hn hn, h] at this
    simp at this

/-- Setting a masked bit sets that bit and no other, R162. -/
theorem or_mask_getLsbD (b : Byte) (n k : Nat) (hn : n < 8) (hk : k < 8) :
    (b ||| BitVec.ofNat 8 (2 ^ n)).getLsbD k = (b.getLsbD k || decide (k = n)) := by
  rw [BitVec.getLsbD_or, mask_getLsbD n k hn hk]

/-- The tested bit of an id is the bit of the store at its place, R162 R166. -/
theorem State.present_place (s : State) : s.present s.place = s.idBit s.ptArg.toNat := by
  unfold State.present State.place State.idBit State.slotBit State.bitAt locate
  dsimp only
  cases s.slot (s.ptArg.toNat / s.ptBbits.toNat) with
  | none => rfl
  | some b => exact and_mask_ne_zero _ _ (by omega)

/-- The bits of the store after `allocateAndSet`: the placed bit is set, the others are as before. -/
theorem State.bitAt_of_set {s t : State} {blk i n : Nat} (hn : n < 8)
    (h : t.slot blk = some (Block.write (s.bufferOf blk) i
      ((s.bufferOf blk).read i ||| BitVec.ofNat 8 (2 ^ n))))
    (hother : ∀ c, c ≠ blk → t.slot c = s.slot c) (c j k : Nat) (hk : k < 8) :
    t.bitAt c j k = (s.bitAt c j k || decide (c = blk ∧ j = i ∧ k = n)) := by
  by_cases hc : c = blk
  · subst hc
    have hs : ∀ j k, s.bitAt c j k = ((s.bufferOf c).read j).getLsbD k := by
      intro j k
      unfold State.bitAt State.bufferOf
      cases s.slot c <;> simp
    rw [hs, State.bitAt, h]
    dsimp only
    rw [Block.read_write]
    by_cases hj : j = i
    · subst hj
      rw [if_pos rfl, or_mask_getLsbD _ _ _ hn hk]
      simp
    · simp [hj]
  · rw [State.bitAt_congr (hother c hc)]
    simp [hc]

/-! ### The output buffer -/

/-- Reading the buffers after an output was stored, R31. -/
theorem State.read_putOutput (s : State) (t : List Byte) (n a : Nat) :
    (s.putOutput t n).mem.read a =
      if obufBase ≤ a ∧ a < obufBase + t.length then t[a - obufBase]? else s.mem.read a :=
  Memory.read_writeBytes _ _ _ _

theorem State.bufByte_congr {s t : State} {a : Nat} (h : t.mem.read a = s.mem.read a)
    (he : t.epoch = s.epoch) : t.bufByte a = s.bufByte a := by
  rw [State.bufByte, State.bufByte, h, he]

/-! ### Reading a record of an image -/

/-- A state with another stream in `SRC`, R39. -/
def State.withSrc (s : State) (r : List Byte) : State := { s with src := r }

@[simp] theorem State.withSrc_src (s : State) (r : List Byte) : (s.withSrc r).src = r := rfl
@[simp] theorem State.withSrc_withSrc (s : State) (r q : List Byte) :
    (s.withSrc r).withSrc q = s.withSrc q := rfl
@[simp] theorem State.withSrc_slot (s : State) (r : List Byte) (c : Nat) :
    (s.withSrc r).slot c = s.slot c := rfl
@[simp] theorem State.withSrc_ptBbytes (s : State) (r : List Byte) :
    (s.withSrc r).ptBbytes = s.ptBbytes := rfl
@[simp] theorem State.withSrc_ptBcount (s : State) (r : List Byte) :
    (s.withSrc r).ptBcount = s.ptBcount := rfl
@[simp] theorem State.withSrc_hasRoom (s : State) (r : List Byte) :
    (s.withSrc r).HasRoom ↔ s.HasRoom := Iff.rfl
theorem State.withSrc_setSlot (s : State) (r : List Byte) (i : Nat) (b : Block) :
    (s.withSrc r).setSlot i b = (s.setSlot i b).withSrc r := rfl
theorem State.withSrc_clearSlot (s : State) (r : List Byte) (i : Nat) :
    (s.withSrc r).clearSlot i = (s.clearSlot i).withSrc r := rfl
theorem State.withSrc_self (s : State) : s.withSrc s.src = s := rfl
theorem State.srcRead_eq (s : State) (n : Nat) :
    s.srcRead n = (s.src.take n, s.withSrc (s.src.drop n)) := rfl

/-- Everything reading the record of a block can do, R184 R185. -/
theorem State.loadRecord_cases (s : State) (i : Nat) :
    (s.src = [] ∧ s.loadRecord i = .error (s, .serTrunc i 1 0 1)) ∨
    (∃ rest, s.src = 0 :: rest ∧
      s.loadRecord i = .ok ((s.clearSlot i).withSrc rest, 0)) ∨
    (∃ rest, s.src = 1 :: rest ∧ rest.length < s.ptBbytes.toNat ∧
      s.loadRecord i =
        .error (s.withSrc [], .serTrunc i s.ptBbytes.toNat rest.length 2)) ∨
    (∃ d rest, s.src = 1 :: (d ++ rest) ∧ d.length = s.ptBbytes.toNat ∧ s.slot i = none ∧
      ¬ s.HasRoom ∧ s.loadRecord i = .error (s.withSrc rest, .nomem i)) ∨
    (∃ d rest, s.src = 1 :: (d ++ rest) ∧ d.length = s.ptBbytes.toNat ∧
      (s.slot i ≠ none ∨ s.HasRoom) ∧
      s.loadRecord i =
        .ok ((s.setSlot i (Block.ofBytes d)).withSrc rest, s.ptBbytes.toNat)) ∨
    (∃ f rest, s.src = f :: rest ∧ f ≠ 0 ∧ f ≠ 1 ∧
      s.loadRecord i = .error (s.withSrc rest, .serBadflag i f)) := by
  rcases hsrc : s.src with _ | ⟨f, rest⟩
  · refine .inl ⟨rfl, ?_⟩
    simp only [State.loadRecord, State.srcRead_eq, hsrc, List.take_nil, List.drop_nil]
    rw [← hsrc, State.withSrc_self]
  · by_cases h0 : f = 0
    · subst h0
      refine .inr (.inl ⟨rest, rfl, ?_⟩)
      simp [State.loadRecord, State.srcRead_eq, hsrc, State.withSrc_clearSlot]
    · by_cases h1 : f = 1
      · subst h1
        refine .inr (.inr ?_)
        by_cases hlen : rest.length < s.ptBbytes.toNat
        · refine .inl ⟨rest, rfl, hlen, ?_⟩
          have ht : List.take s.ptBbytes.toNat rest = rest := List.take_of_length_le (by omega)
          have hd : List.drop s.ptBbytes.toNat rest = [] := List.drop_of_length_le (by omega)
          simp [State.loadRecord, State.srcRead_eq, hsrc, ht, hd, hlen]
        · refine .inr ?_
          have hsplit : rest = rest.take s.ptBbytes.toNat ++ rest.drop s.ptBbytes.toNat :=
            (List.take_append_drop _ _).symm
          have htl : (rest.take s.ptBbytes.toNat).length = s.ptBbytes.toNat := by
            rw [List.length_take]; omega
          have hroom : ∀ r, (s.withSrc r).roomForBlock = s.roomForBlock := fun _ => rfl
          have hall : ∀ r, (s.withSrc r).allocated i = s.allocated i := fun _ => rfl
          by_cases hc : s.slot i ≠ none ∨ s.HasRoom
          · refine .inr (.inl ⟨_, _, congrArg (List.cons 1) hsplit, htl, hc, ?_⟩)
            have hc' : (!s.allocated i && !s.roomForBlock) = false := by
              rcases hc with hc | hc
              · simp [(s.allocated_iff i).mpr hc]
              · simp [s.roomForBlock_iff.mpr hc]
            simp [State.loadRecord, State.srcRead_eq, hsrc, htl, hroom, hall, hc',
              State.withSrc_setSlot]
          · refine .inl ⟨_, _, congrArg (List.cons 1) hsplit, htl, ?_, ?_, ?_⟩
            · by_contra h; exact hc (.inl h)
            · exact fun h => hc (.inr h)
            · have hc' : (!s.allocated i && !s.roomForBlock) = true := by
                rw [← s.roomForBlock_iff, ← s.allocated_iff] at hc
                simpa using hc
              simp [State.loadRecord, State.srcRead_eq, hsrc, htl, hroom, hall, hc']
      · refine .inr (.inr (.inr (.inr (.inr ⟨f, rest, rfl, h0, h1, ?_⟩))))
        simp only [State.loadRecord, State.srcRead_eq, hsrc, List.take_succ_cons, List.take_zero,
          List.drop_succ_cons, List.drop_zero]
        rw [if_neg h0, if_neg h1]

end Sys2Proof.Machine
end

