-- ==== Sys2Proof/Laws/PerInstr.lean ====
section
/-! SUPPORT. Statements about every command as syntax, one lemma for each constructor of `Instr`. -/

namespace Sys2Proof.Laws.LegalEncoding

/-- The word of a command is one of the fourteen legal words, and it carries the command's opcode in
its low byte, 30_encoding.md R82 R87. -/
def Statement (i : Instr) : Prop :=
  legalWord (encode i) = true ∧ (encode i).toNat % 256 = i.opcode.toNat

theorem modpow : Statement .modpow := ⟨by decide, by decide⟩
theorem enckey : Statement .enckey := ⟨by decide, by decide⟩
theorem aescbc : Statement .aescbc := ⟨by decide, by decide⟩
theorem dblenc : Statement .dblenc := ⟨by decide, by decide⟩
theorem keygen : Statement .keygen := ⟨by decide, by decide⟩
theorem encrypt (g : Bool) : Statement (.encrypt g) := by
  cases g <;> exact ⟨by decide, by decide⟩
theorem ptinit : Statement .ptinit := ⟨by decide, by decide⟩
theorem ptalloc : Statement .ptalloc := ⟨by decide, by decide⟩
theorem pttest : Statement .pttest := ⟨by decide, by decide⟩
theorem ptset : Statement .ptset := ⟨by decide, by decide⟩
theorem pttas : Statement .pttas := ⟨by decide, by decide⟩
theorem ptdump : Statement .ptdump := ⟨by decide, by decide⟩
theorem ptload : Statement .ptload := ⟨by decide, by decide⟩

end Sys2Proof.Laws.LegalEncoding
end

