-- ==== Sys2Proof/Laws/Port.lean ====
section
/-! SUPPORT. The laws of the host port: what `mapAddr` can answer, seen through the address of a
location, and what one host action can do. -/

namespace Sys2Proof.Machine

/-- The bus address of a location, 20_memory.md R51. -/
def Loc.addr : Loc → Nat
  | .cmd => 0x00 | .status => 0x04 | .err => 0x08 | .resultLo => 0x0C | .resultHi => 0x10
  | .einfo0 => 0x14 | .einfo1 => 0x18 | .einfo2 => 0x1C | .einfo3 => 0x20 | .einfo4 => 0x24
  | .ilen => 0x28 | .olen => 0x2C | .ptLength => 0x30 | .ptSprefix => 0x34
  | .ptArgLo => 0x38 | .ptArgHi => 0x3C | .ptBcount => 0x40 | .ptBbytes => 0x44
  | .ptBbitsLo => 0x48 | .ptBbitsHi => 0x4C | .ptNalloc => 0x50 | .exponent => 0x54
  | .key j => 0x60 + 4 * j | .akey j => 0x70 + 4 * j | .aiv j => 0x80 + 4 * j
  | .nonce j => 0x90 + 4 * j | .iv j => 0xA0 + 4 * j
  | .mpBase k => 0x100 + 4 * k | .mpExp k => 0x180 + 4 * k | .mpMod k => 0x200 + 4 * k
  | .mpRes k => 0x280 + 4 * k | .esk k => 0x300 + 4 * k | .modulus k => 0x380 + 4 * k
  | .eskhex j => 0x400 + 4 * j | .ibuf j => 0x10000 + 4 * j | .obuf j => 0x20000 + 4 * j

/-- The indices a location may have in a device, R51. -/
def Loc.Ok (c : Config) : Loc → Prop
  | .key j | .akey j | .aiv j | .nonce j | .iv j => j < 4
  | .mpBase k | .mpExp k | .mpMod k | .mpRes k | .esk k | .modulus k => k < 32
  | .eskhex j => j < 64
  | .ibuf j => 4 * j < c.ibufCap
  | .obuf j => 4 * j < c.obufCap
  | _ => True

theorem ibufCap_le (c : Config) : c.ibufCap ≤ 65536 := by
  have := c.ibufIdx.isLt; unfold Config.ibufCap; omega

theorem obufCap_le (c : Config) : c.obufCap ≤ 65536 := by
  have := c.obufIdx.isLt; unfold Config.obufCap; omega

/-- The capacities are whole numbers of words, 00_scope.md R5. -/
theorem cap_mod (c : Config) : c.ibufCap % 4 = 0 ∧ c.obufCap % 4 = 0 := by
  unfold Config.ibufCap Config.obufCap; omega

theorem of_ite {α : Type} {p : Prop} [Decidable p] {x y z : α} (h : (if p then x else y) = z) :
    (p ∧ x = z) ∨ (¬ p ∧ y = z) := by
  by_cases hp : p
  · exact .inl ⟨hp, by rwa [if_pos hp] at h⟩
  · exact .inr ⟨hp, by rwa [if_neg hp] at h⟩

/-- What an answer of the address map says of the address. -/
def MapAnswer (c : Config) (n : Nat) : Option Loc → Prop
  | none => n % 4 ≠ 0 ∨ ¬ Mapped c n
  | some l => n % 4 = 0 ∧ Mapped c n ∧ n = l.addr ∧ l.Ok c

theorem mapAnswer_single {c : Config} {n : Nat} {r : Option Loc} (h4 : n % 4 = 0) (hn : n < 0x58)
    (h : singleLocs[n / 4]? = r) : MapAnswer c n r := by
  obtain ⟨k, rfl⟩ : ∃ k, n = 4 * k := ⟨n / 4, by omega⟩
  have hk : k < 22 := by omega
  rw [show 4 * k / 4 = k by omega] at h
  have hm : Mapped c (4 * k) := .inl (by omega)
  interval_cases k <;> (cases h; exact ⟨rfl, hm, rfl, trivial⟩)

/-- Everything the address map can answer, R51 R52: a location, with its own address and an index
in range, or nothing at a misaligned or unmapped address. -/
theorem mapAddr_answer (c : Config) (a : Word) : MapAnswer c a.toNat (mapAddr c a) := by
  have hc := cap_mod c
  have hi := ibufCap_le c
  obtain ⟨r, h⟩ : ∃ r, mapAddr c a = r := ⟨_, rfl⟩
  rw [h]
  unfold mapAddr ibufBase obufBase at h
  dsimp only at h
  generalize a.toNat = n at h ⊢
  rcases of_ite h with ⟨h4, h⟩ | ⟨h4, h⟩
  · subst h; exact .inl h4
  have h4 : n % 4 = 0 := by omega
  rcases of_ite h with ⟨h1, h⟩ | ⟨h1, h⟩
  · exact mapAnswer_single h4 h1 h
  iterate 17
    rcases of_ite h with ⟨h2, h⟩ | ⟨h2, h⟩
    · subst h
      simp only [MapAnswer, Mapped, Loc.addr, Loc.Ok]
      omega
    clear h1
    have h1 := h2
    clear h2
  rcases of_ite h with ⟨h2, h⟩ | ⟨h2, h⟩ <;>
    (subst h; simp only [MapAnswer, Mapped, Loc.addr, Loc.Ok]; omega)

/-- A store at a writable location is read back there, R56 R59. -/
theorem readLoc_writeLoc_same {s t : State} {v : Word} {l : Loc} (hl : l.Ok s.cfg) (hc : l ≠ .cmd)
    (h : s.writeLoc v l = some t) : t.readLoc l = some v := by
  have bytes (j : Nat) : lanes (State.bufByte { s with
      mem := s.mem.writeBytes (ibufBase + 4 * j) (laneBytes v) }) (ibufBase + 4 * j) = v := by
    refine word_ext_bytes fun i hi => ?_
    rw [byteOf_lanes _ _ _ hi, State.bufByte]
    dsimp only
    rw [Memory.read_writeBytes, if_pos (by rw [length_laneBytes]; omega),
      Nat.add_sub_cancel_left, laneBytes_getElem? v i hi]
    rfl
  cases l
  case cmd => exact absurd rfl hc
  all_goals
    simp only [State.writeLoc, Loc.Ok, Option.some.injEq, reduceCtorEq] at h hl
    try (split at h <;> simp only [Option.some.injEq, reduceCtorEq] at h)
    try (subst h; simp only [State.readLoc])
  all_goals first
    | rw [wordOf_setWord_same _ _ _ (by omega)]
    | rw [bytes]

/-- The four lanes of a buffer word that a store elsewhere leaves alone. -/
theorem lanes_writeBytes_ne {s : State} {a b : Nat} {v : Word} (h : a + 4 ≤ b ∨ b + 4 ≤ a) :
    lanes (State.bufByte { s with mem := s.mem.writeBytes a (laneBytes v) }) b
      = lanes s.bufByte b := by
  refine word_ext_bytes fun i hi => ?_
  rw [byteOf_lanes _ _ _ hi, byteOf_lanes _ _ _ hi, State.bufByte, State.bufByte]
  dsimp only
  rw [Memory.read_writeBytes, if_neg (by rw [length_laneBytes]; omega)]

/-- A store at a writable location changes nothing that is read elsewhere, R43. -/
theorem readLoc_writeLoc_ne {s t : State} {v : Word} {l m : Loc} (hl : l.Ok s.cfg)
    (hm : m.Ok s.cfg) (hne : m ≠ l) (h : s.writeLoc v l = some t) : t.readLoc m = s.readLoc m := by
  have hi := ibufCap_le s.cfg
  cases l
  all_goals
    simp only [State.writeLoc, Option.some.injEq, reduceCtorEq] at h
    try (split at h <;> simp only [Option.some.injEq, reduceCtorEq] at h)
    try subst h
  all_goals cases m
  all_goals first
    | rfl
    | exact absurd rfl hne
    | (simp only [State.readLoc]; rw [wordOf_setWord_ne _ _ _ _ (by omega)])
    | (simp only [State.readLoc]
       rw [wordOf_setWord_ne _ _ _ _ (fun hj => hne (by rw [hj]))])
    | (simp only [State.readLoc, Loc.Ok, ibufBase, obufBase, ne_eq, Loc.ibuf.injEq] at hl hm hne ⊢
       rw [lanes_writeBytes_ne (by omega)])

/-- The address map takes the address of a location to that location, R51. -/
theorem mapAddr_addr {c : Config} {l : Loc} (hl : l.Ok c) :
    mapAddr c (BitVec.ofNat 32 l.addr) = some l := by
  have hi := ibufCap_le c
  have ho := obufCap_le c
  have hlt : l.addr < 2 ^ 32 := by
    cases l <;> simp only [Loc.Ok, Loc.addr] at hl ⊢ <;> omega
  unfold mapAddr ibufBase obufBase
  dsimp only
  rw [BitVec.toNat_ofNat, Nat.mod_eq_of_lt hlt]
  clear hlt
  generalize hn : l.addr = n
  cases l
  all_goals simp only [Loc.Ok, Loc.addr] at hl hn
  iterate 22 (subst hn; rfl)
  all_goals
    repeat rw [if_neg (by omega)]
    rw [if_pos (by omega)]
    congr 2
    omega

/-- What reading the address of a location answers, R51 R55 to R58. -/
theorem busRead_addr {s : State} {l : Loc} {v : Word} (hl : l.Ok s.cfg)
    (hv : s.readLoc l = some v) : busRead s (BitVec.ofNat 32 l.addr) = .data v := by
  rw [busRead, mapAddr_addr hl]
  simp only [hv]

/-- A store at the port is the store of its location, and the write is accepted, R53 R57. -/
theorem busWrite_writeLoc {s t : State} {a v : Word} {l : Loc} (hm : mapAddr s.cfg a = some l)
    (hl : l ≠ .cmd) (h : s.writeLoc v l = some t) :
    perform (.memWrite a v) s = .next (t.respond .accepted) := by
  simp only [perform, busWrite, hm]
  cases l <;> simp_all

/-- Everything a store can change: the elements the host may write, and in the buffers only the four
bytes at its address, R57. -/
theorem writeLoc_frame {s t : State} {v : Word} {l : Loc} (h : s.writeLoc v l = some t) :
    t = { s with
      ilen := t.ilen, ptLength := t.ptLength, ptSprefix := t.ptSprefix, ptArg := t.ptArg,
      key := t.key, akey := t.akey, aiv := t.aiv,
      mpBase := t.mpBase, mpExp := t.mpExp, mpMod := t.mpMod, mem := t.mem } ∧
    ∀ x, ¬ (l.addr ≤ x ∧ x < l.addr + 4) → t.mem.read x = s.mem.read x := by
  cases l
  all_goals
    simp only [State.writeLoc, Option.some.injEq, reduceCtorEq] at h
    try (split at h <;> simp only [Option.some.injEq, reduceCtorEq] at h)
    try subst h
  all_goals refine ⟨rfl, fun x hx => ?_⟩
  case ibuf j =>
    simp only [Loc.addr, ibufBase] at hx ⊢
    rw [Memory.read_writeBytes, if_neg (by rw [length_laneBytes]; omega)]
  all_goals rfl

end Sys2Proof.Machine
end

