-- ==== Sys2Proof/Laws/Serial.lean ====
section
/-! SUPPORT. The laws of the binary image: what reading a list of records in turn does, and the
header. -/

namespace Sys2Proof.Machine

/-- Reading a record with flag 0, R184. -/
theorem State.loadRecord_none (s : State) (i : Nat) (rest : List Byte) :
    (s.withSrc (0 :: rest)).loadRecord i = .ok ((s.clearSlot i).withSrc rest, 0) := by
  simp [State.loadRecord, State.srcRead_eq, State.withSrc_clearSlot]

/-- Reading a whole record with flag 1 when there is room, R184. -/
theorem State.loadRecord_some {s : State} {i : Nat} {d : List Byte} (rest : List Byte)
    (hd : d.length = s.ptBbytes.toNat) (hr : (s.allocated i || s.roomForBlock) = true) :
    (s.withSrc (1 :: (d ++ rest))).loadRecord i =
      .ok ((s.setSlot i (Block.ofBytes d)).withSrc rest, s.ptBbytes.toNat) := by
  have hroom : ∀ r, (s.withSrc r).roomForBlock = s.roomForBlock := fun _ => rfl
  have hall : ∀ r, (s.withSrc r).allocated i = s.allocated i := fun _ => rfl
  have hc : (!s.allocated i && !s.roomForBlock) = false := by
    rw [← Bool.not_or, hr]; rfl
  have ht : (d ++ rest).take s.ptBbytes.toNat = d := List.take_left' hd
  have hdr : (d ++ rest).drop s.ptBbytes.toNat = rest := List.drop_left' hd
  simp [State.loadRecord, State.srcRead_eq, ht, hdr, hd, hroom, hall, hc, State.withSrc_setSlot]

/-- Reading the records of a list in turn and going on after them, R184. -/
theorem State.loadRecords_assign (rs : List Record) : ∀ (n i c : Nat) (s t : State) (tail : List Byte),
    rs.length ≤ n → (∀ d, some d ∈ rs → d.length = s.ptBbytes.toNat) → s.assignRecords i rs = some t →
    State.loadRecords n i c (s.withSrc (rs.flatMap Record.bytes ++ tail)) =
      State.loadRecords (n - rs.length) (i + rs.length) (c + contentBytes s.ptBbytes.toNat rs)
        (t.withSrc tail) := by
  induction rs with
  | nil =>
    intro n i c s t tail _ _ h
    simp only [State.assignRecords, Option.some.injEq] at h
    subst h
    simp [contentBytes]
  | cons r rs ih =>
    intro n i c s t tail hn hd h
    obtain ⟨n, rfl⟩ : ∃ m, n = m + 1 := ⟨n - 1, by simp at hn; omega⟩
    simp only [List.length_cons, Nat.add_le_add_iff_right] at hn
    rw [State.loadRecords]
    cases r with
    | none =>
      simp only [State.assignRecords] at h
      rw [List.flatMap_cons, Record.bytes, List.append_assoc, List.singleton_append,
        State.loadRecord_none]
      dsimp only
      rw [ih n (i + 1) (c + 0) (s.clearSlot i) t tail hn (fun d hm => hd d (List.mem_cons_of_mem _ hm)) h]
      simp only [List.length_cons, Nat.add_sub_add_right, contentBytes]
      congr 1
      omega
    | some d =>
      simp only [State.assignRecords] at h
      split at h
      case isFalse => cases h
      rename_i hroom
      rw [List.flatMap_cons, Record.bytes, List.append_assoc, List.cons_append, State.loadRecord_some _ (hd d (by simp)) hroom]
      dsimp only
      rw [ih n (i + 1) (c + s.ptBbytes.toNat) (s.setSlot i (Block.ofBytes d)) t tail hn (fun d hm => hd d (List.mem_cons_of_mem _ hm)) h]
      simp only [List.length_cons, Nat.add_sub_add_right, contentBytes]
      congr 1
      · omega
      · simp [Nat.succ_mul, State.setSlot]; omega

/-- What assigning records does to the slots, R184. -/
theorem State.assignRecords_slots (rs : List Record) : ∀ (i : Nat) (s t : State), s.assignRecords i rs = some t →
    t = { s with slots := t.slots } ∧
    ∀ j, t.slot j = if i ≤ j ∧ j < i + rs.length then (rs.getD (j - i) none).map Block.ofBytes else s.slot j := by
  induction rs with
  | nil => intro i s t h; cases h; exact ⟨rfl, fun j => by rw [if_neg (by simp)]⟩
  | cons r rs ih =>
    intro i s t h
    have step : ∀ u : State, u = { s with slots := u.slots } → (∀ j, u.slot j = if j = i then r.map Block.ofBytes else s.slot j) → u.assignRecords (i+1) rs = some t →
       t = { s with slots := t.slots } ∧
    ∀ j, t.slot j = if i ≤ j ∧ j < i + (r :: rs).length then ((r :: rs).getD (j - i) none).map Block.ofBytes else s.slot j := by
      intro u hu hus h
      obtain ⟨h1, h2⟩ := ih _ _ _ h
      refine ⟨?_, fun j => ?_⟩
      · rw [h1, hu]
      · rw [h2, hus]
        by_cases hj : j = i
        · subst hj
          rw [if_neg (by omega), if_pos rfl, if_pos (by simp)]; simp
        · by_cases hj2 : i + 1 ≤ j ∧ j < i + 1 + rs.length
          · rw [if_pos hj2, if_pos (by simp; omega)]
            rw [show j - i = (j - (i+1)) + 1 by omega]; simp
          · rw [if_neg hj2, if_neg hj, if_neg (by simp; omega)]
    cases r with
    | none => exact step _ rfl (fun j => by rw [State.slot_clearSlot]; rfl) h
    | some d =>
      simp only [State.assignRecords] at h
      split at h
      · exact step _ rfl (fun j => by rw [State.slot_setSlot]; rfl) h
      · cases h

theorem header_len (a b) : (headerBytes a b).length = 6 := rfl
theorem header_be (a b : Nat) (ha : a < 65536) (hb : b < 4294967296) : beInt ((headerBytes a b).take 2) = a ∧ beInt ((headerBytes a b).drop 2) = b := by
  simp [headerBytes, beInt]
  omega

theorem State.load_header {s : State} {body} (h : s.src = headerBytes s.ptBcount.toNat s.ptBbytes.toNat ++ body) (hc : s.ptBcount.toNat < 65536) :
  s.load = State.loadRecords s.ptBcount.toNat 0 0 (s.withSrc body) := by
  have hb := header_be s.ptBcount.toNat s.ptBbytes.toNat hc s.ptBbytes.isLt
  simp only [State.load, State.srcRead_eq, h]
  rw [List.take_append_of_le_length (by simp [header_len]), List.drop_append_of_le_length (by simp [header_len])]
  rw [show ∀ a b, (headerBytes a b).take 6 = headerBytes a b from fun a b => rfl]
  rw [show ∀ a b, (headerBytes a b).drop 6 = [] from fun a b => rfl]
  rw [if_neg (by simp [header_len]), hb.1, hb.2, if_neg (by simp)]
  rfl

end Sys2Proof.Machine
end

