-- ==== Sys2Proof/Tests/Slice0.lean ====
section
/-! SUPPORT. Tests. Expected values are the spec's: the words of 30_encoding.md R87 written out bit by
bit from R81 R82, and the vectors of 95_test_vectors.md, each named in its theorem's comment. The
second half is the witnesses: for every statement with hypotheses, a state that meets them. -/

namespace Sys2Proof.Tests

set_option Elab.async false

open Sys2Proof Sys2Proof.Machine

/-! ### Helpers -/

/-- A device with the default capacities, modulus `2^1023`, and a given limit on blocks. -/
def device (limit : Option Nat) : Config :=
  { modulusLow := 0, ibufIdx := 1023, obufIdx := 2037, ptMaxAlloc := limit }

/-- The device whose modulus is `N_T = 2^1024 - 1`, 95_test_vectors.md. -/
def deviceT : Config := { device none with modulusLow := BitVec.allOnes 1023 }

/-- The smallest device: `IBUF_CAP` 64 and `OBUF_CAP` 44. -/
def deviceSmall : Config := { device none with ibufIdx := 15, obufIdx := 0 }

/-- A device right after reset. -/
def boot (c : Config) : State := State.atReset c 0 0 [] []

/-- A device with an empty table of shape L = 2, S = 1. -/
def table (limit : Option Nat) : State :=
  { boot (device limit) with
    ptrdy := true, ptLength := 2, ptSprefix := 1, ptBcount := 10, ptBbits := 10, ptBbytes := 2 }

/-- The same with blocks 1 and 9 as PTSET 12 and PTSET 95 leave them, 95_test_vectors.md section 6. -/
def used (limit : Option Nat) : State :=
  { table limit with slots := [(1, [(0, 0x20)]), (9, [(0, 0x04)])] }

/-- The state after an outcome that is a next state, else the one given. -/
def after (o : Host.Outcome State Fault Refusal) (s : State) : State :=
  match o with
  | .next t => t
  | _ => s

/-- The state after a command. -/
def did (i : Instr) (s : State) : State := after (exec i s) s

/-- `ERR` and `EINFO0..4`. -/
def info (s : State) : List Word := [s.err, s.einfo0, s.einfo1, s.einfo2, s.einfo3, s.einfo4]

/-! ### Decoding: every word of R87 bit by bit, format N `rsv(23) g(1) op(8)` -/

theorem test_word_modpow : decode 0b00000000000000000000000_0_00000001 = .ok .modpow := by decide
theorem test_word_enckey : decode 0b00000000000000000000000_0_00000010 = .ok .enckey := by decide
theorem test_word_aescbc : decode 0b00000000000000000000000_0_00010000 = .ok .aescbc := by decide
theorem test_word_dblenc : decode 0b00000000000000000000000_0_00010001 = .ok .dblenc := by decide
theorem test_word_keygen : decode 0b00000000000000000000000_0_00100000 = .ok .keygen := by decide
theorem test_word_encrypt :
    decode 0b00000000000000000000000_0_00100001 = .ok (.encrypt false) := by decide
theorem test_word_encrypt_g :
    decode 0b00000000000000000000000_1_00100001 = .ok (.encrypt true) := by decide
theorem test_word_ptinit : decode 0b00000000000000000000000_0_00110000 = .ok .ptinit := by decide
theorem test_word_ptalloc : decode 0b00000000000000000000000_0_00110001 = .ok .ptalloc := by decide
theorem test_word_pttest : decode 0b00000000000000000000000_0_00110010 = .ok .pttest := by decide
theorem test_word_ptset : decode 0b00000000000000000000000_0_00110011 = .ok .ptset := by decide
theorem test_word_pttas : decode 0b00000000000000000000000_0_00110100 = .ok .pttas := by decide
theorem test_word_ptdump : decode 0b00000000000000000000000_0_00110101 = .ok .ptdump := by decide
theorem test_word_ptload : decode 0b00000000000000000000000_0_00110110 = .ok .ptload := by decide

/-- A table word of `spec/opcode_table.json` through the fixed interface. -/
theorem test_table_word : decodeTableWord 32 0x121 = some (.encrypt true) ∧
    decodeTableWord 32 0x130 = none := by decide +kernel

/-! ### WellFormed: each check refuses an ill-formed word, and accepts its neighbour -/

/-- The undefined words of 95_test_vectors.md section 7: reserved bits 9 and 31. -/
theorem test_reserved_refused : reservedClear 0x200 = false ∧ reservedClear 0x80000021 = false ∧
    reservedClear 0x121 = true := by decide
/-- Undefined opcodes. -/
theorem test_opcode_refused : ([0, 0x37, 0x03, 0x12, 0x22, 0xFF, 0x36] : List Word).map opcodeKnown =
    [false, false, false, false, false, false, true] := by decide
/-- Bit 8 on a command without the `g` field. -/
theorem test_generate_refused : generateAllowed 0x130 = false ∧ generateAllowed 0x101 = false ∧
    generateAllowed 0x121 = true := by decide
/-- A legal word passes all three. -/
theorem test_legal : legalWord 0x121 = true ∧ legalWord 0x130 = false := by decide
/-- Every command is well formed. -/
theorem test_wf : (Instr.encrypt true).wf = true ∧ Instr.ptload.wf = true := by decide

/-! ### The modexp unit -/

/-- M1: 4^13 mod 497 = 445. -/
theorem test_modpow_m1 :
    (did .modpow { boot (device none) with mpBase := 4, mpExp := 13, mpMod := 497 }).mpRes = 445 := by
  decide +kernel
/-- M13 and H2: modulus 0 is `MODZERO`, and `MP_RES` stays. -/
theorem test_modpow_zero : (did .modpow { boot (device none) with mpRes := 7 }).mpRes = 7 ∧
    info (did .modpow (boot (device none))) = [2, 0, 0, 0, 0, 0] := by decide +kernel
/-- K5 under `N_T`: the last byte of the key is the most significant, so `ESK` = 2^120. -/
theorem test_enckey_k5 :
    (did .enckey { boot deviceT with key := 0x01 <<< 120 }).esk.toNat = 2 ^ 120 := by decide +kernel
/-- K1 under `N_T`: words 0 and 31 of `ESK`. -/
theorem test_enckey_k1 :
    let t := did .enckey { boot deviceT with key := 0x6c583772794276504a6471614d667265 }
    wordOf t.esk 0 = 0x7f3e2320 ∧ wordOf t.esk 31 = 0xeabf6666 := by decide +kernel

/-! ### The symmetric unit -/

/-- The FIPS-197 example of section 4. -/
theorem test_aes : bytes16 (aes128 (ofBytes16 (beBytes 16 0x000102030405060708090a0b0c0d0e0f))
    (ofBytes16 (beBytes 16 0x00112233445566778899aabbccddeeff)))
    = beBytes 16 0x69c4e0d86a7b0430d8cdb78070b4c55a := by decide +kernel
/-- The base64 rows of section 4: one, two and three bytes, and index 63. -/
theorem test_base64 : b64 [0x66] = [0x5a, 0x67, 0x3d, 0x3d] ∧
    b64 [0x66, 0x6f] = [0x5a, 0x6d, 0x38, 0x3d] ∧ b64 [0xff, 0xff, 0xff] = [0x2f, 0x2f, 0x2f, 0x2f] ∧
    b64 [0xfb, 0xff] = [0x2b, 0x2f, 0x38, 0x3d] := by decide +kernel
/-- A3: three bytes become one block; the words of `OBUF`. -/
theorem test_aescbc_a3 :
    let t := did .aescbc { boot (device none) with
      akey := ofBytes16 (beBytes 16 0x000102030405060708090a0b0c0d0e0f), ilen := 3,
      mem := [(0x10000, 0x61), (0x10001, 0x62), (0x10002, 0x63)] }
    t.olen = 16 ∧ busRead t 0x20000 = .data 0x801f8bb0 ∧ busRead t 0x2000C = .data 0x55ab2240 := by
  decide +kernel
/-- X2: the first LEN check. -/
theorem test_aescbc_x2 :
    info (did .aescbc { boot (device none) with ilen := 4097 }) = [3, 4097, 0, 4096, 8192, 0] := by
  decide +kernel
/-- Y4 and H4: the empty payload under the key of zeros, `JmNo` and `7AQ=`. -/
theorem test_dblenc_y4 : let t := did .dblenc (boot (device none))
    t.olen = 44 ∧ busRead t 0x20000 = .data 0x6f4e6d4a ∧ busRead t 0x20028 = .data 0x3d514137 := by
  decide +kernel
/-- X9's second check, on a device with `OBUF_CAP` 44: 16 bytes would need 64. -/
theorem test_dblenc_len :
    info (did .dblenc { boot deviceSmall with ilen := 16 }) = [3, 16, 64, 64, 44, 0] := by
  decide +kernel

/-! ### The request sequencer -/

/-- KEYGEN uses sixteen draws and succeeds; which key it is stays free (R150). -/
theorem test_keygen : (did .keygen (boot (device none))).draws = 16 ∧
    info (did .keygen { boot (device none) with err := 3 }) = [0, 0, 0, 0, 0, 0] := by decide +kernel
/-- P2, S1: the source's reference vector, first and last word of `params`, and `ESK` under `N_T`. -/
theorem test_encrypt_p2 :
    let t := did (.encrypt false) { boot deviceT with
      key := 0x6c583772794276504a6471614d667265, ilen := 17,
      mem := Memory.writeBytes [] 0x10000 (beBytes 17 0x7b22637372665f746f6b656e223a22227d) }
    t.olen = 64 ∧ busRead t 0x20000 = .data 0x6B764B37 ∧ busRead t 0x2003C = .data 0x33566844 ∧
      busRead t 0x300 = .data 0x7F3E2320 ∧ busRead t 0x4FC = .data 0x30323332 := by
  decide +kernel
/-- X4: a failing ENCRYPT draws no key. -/
theorem test_encrypt_x4 : let t := did (.encrypt true) { boot (device none) with ilen := 5000 }
    info t = [3, 0x1388, 0, 0x1000, 0x2000, 0] ∧ t.key = 0 ∧ t.draws = 0 := by decide +kernel

/-! ### The presence table -/

/-- T1: the largest legal shape. -/
theorem test_ptinit_largest :
    let t := did .ptinit { boot (device none) with ptLength := 14, ptSprefix := 4 }
    t.ptBcount = 10000 ∧ t.ptBbits = 10000000000 ∧ t.ptBbytes = 1250000000 ∧ t.statusWord = 1 := by
  decide +kernel
/-- T1: (5, 5) is no shape. -/
theorem test_ptinit_shape :
    let t := did .ptinit { boot (device none) with ptLength := 5, ptSprefix := 5 }
    info t = [5, 5, 5, 0, 0, 0] ∧ t.statusWord = 2 := by decide +kernel
/-- T2: ids of the tables L = 3, S = 1 and L = 14, S = 4. -/
theorem test_locate : locate 100 999 = ⟨9, 12, 0x10⟩ ∧ locate 100 8 = ⟨0, 1, 0x80⟩ ∧
    locate (10 ^ 10) (10 ^ 14 - 1) = ⟨9999, 1249999999, 0x01⟩ := by decide +kernel
/-- T3: the index `PT_BCOUNT` is out of range. -/
theorem test_ptalloc_range :
    info (did .ptalloc { table none with ptArg := 10 }) = [6, 10, 0, 0, 0, 0] := by decide +kernel
/-- T3: allocating block 9 makes `PT_NALLOC` 1, and PTTEST of an id in it gives 0. -/
theorem test_ptalloc : let t := did .ptalloc { table none with ptArg := 9 }
    t.nalloc = 1 ∧ (did .pttest { t with ptArg := 99 }).result = 0 := by decide +kernel
/-- T3: 2^32 as an id is out of range, not 0. -/
theorem test_pttest_range :
    info (did .pttest { table none with ptArg := 0x100000000 }) = [6, 0, 1, 0, 0, 0] := by
  decide +kernel
/-- Id 95 is set, id 96 of the same block is not. -/
theorem test_pttest : (did .pttest { used none with ptArg := 95 }).result = 1 ∧
    (did .pttest { used none with ptArg := 96, result := 1 }).result = 0 := by decide +kernel
/-- DU2: PTSET 5 and PTSET 37. -/
theorem test_ptset : (did .ptset { did .ptset { table none with ptArg := 5 } with ptArg := 37 }).slots
    = [(0, [(0, 0x04)]), (3, [(0, 0x01)])] := by decide +kernel
/-- T5: the third block of a device that has two. -/
theorem test_ptset_nomem :
    info (did .ptset { used (some 2) with ptArg := 55 }) = [8, 0, 5, 0, 0, 0] ∧
    info (did .ptset { used (some 2) with ptArg := 96 }) = [0, 0, 0, 0, 0, 0] := by decide +kernel
/-- T4: 0, then 1. -/
theorem test_pttas : let t := did .pttas { table none with ptArg := 25, result := 9 }
    t.result = 0 ∧ (did .pttas t).result = 1 ∧ (did .pttas t).nalloc = 1 := by decide +kernel

/-! ### The image -/

/-- DU2's image, 20 bytes. -/
def image2 : List Byte := beBytes 20 0x000a000000020104000000010100000000000000

/-- DU2: the image and the count. -/
theorem test_ptdump :
    let t := did .ptdump { table none with slots := [(0, [(0, 0x04)]), (3, [(0, 0x01)])] }
    t.snk = image2 ∧ t.result = 4 := by decide +kernel
/-- L7: the image replaces what the table held. -/
theorem test_ptload : let t := did .ptload { used none with src := image2 }
    t.slots = [(0, [(0, 0x04)]), (3, [(0, 0x01)])] ∧ t.result = 4 ∧ t.src = [] ∧ t.err = 0 := by
  decide +kernel
/-- L5: a flag byte 2 at block 2; blocks 0 and 1 stay assigned, and `ffff` stays in `SRC`. -/
theorem test_ptload_badflag :
    let t := did .ptload { used none with src := beBytes 11 0x000a00000002000002ffff }
    info t = [7, 3, 2, 2, 0, 0] ∧ t.slots = [(9, [(0, 0x04)])] ∧ t.src = [0xff, 0xff] := by
  decide +kernel

/-! ### The port -/

/-- Section 7: an illegal word. -/
theorem test_illcmd :
    let t := after (step { boot (device none) with pending := [.memWrite 0 0x130] }) State.reset
    info t = [1, 0x130, 0, 0, 0, 0] ∧ t.statusWord = 2 ∧ t.trace = [.accepted] := by decide +kernel
/-- Section 7: constants, and the refused reads. -/
theorem test_bus_reads :
    ([0x54, 0x90, 0xA0, 0x04, 0x400, 0x00, 0x02, 0x58, 0xB0, 0x500, 0x11000, 0x22000] : List Word).map
      (busRead (boot (device none))) =
    [.data 0x00010001, .data 0x4A6F4330, .data 0x32303130, .data 0, .data 0x30303030, .busError,
      .busError, .busError, .busError, .busError, .busError, .busError] := by decide +kernel
/-- R58's example: the words of `KEY` are its bytes, the first in the low lane. -/
theorem test_bus_key :
    let s := { boot (device none) with key := 0x6c583772794276504a6471614d667265 }
    busRead s 0x60 = .data 0x4D667265 ∧ busRead s 0x6C = .data 0x6C583772 := by decide +kernel
/-- The interface's command word is the very next thing the machine runs. -/
theorem test_withFetchWord :
    info (after (step ((boot (device none)).withFetchWord 32 0x1)) (boot (device none)))
      = [2, 0, 0, 0, 0, 0] := by decide +kernel

/-! ### Witnesses: every statement's hypotheses hold of something -/

/-- What an outcome that is a next state leads to. -/
theorem next_of (i : Instr) (s : State) : exec i s = .next (did i s) := by cases i <;> rfl

/-- The invariant holds of a table in use. -/
theorem used_inv : (used none).Inv where
  mem := ⟨by decide +kernel, by decide +kernel⟩
  shape := by rw [State.ShapeOk, if_pos (by decide +kernel)]; decide +kernel
  store := ⟨by decide +kernel, fun m h => by cases h⟩
  report := by unfold State.ReportOk; decide +kernel
  output := by unfold State.OutputOk; exact ⟨by decide +kernel, fun i hi => absurd hi (by
    rw [show (used none).olen.toNat = 0 by decide +kernel]; omega)⟩
  values := by unfold State.ValuesOk; decide +kernel

/-- A state whose next host action is `a`. -/
def asked (a : HostAction) (s : State) : State := { s with pending := [a] }

theorem witness_DecodeOfEncodeIsTheCommand : (Instr.encrypt true).wf = true := rfl

theorem witness_EncodeOfDecodeIsTheWord : decode 0x121 = .ok (.encrypt true) := by decide

/-- Each clause of the decoding order at the edges: bit 9 and bit 31; the opcodes next to legal ones;
bit 8 on 0x36; both forms of 0x21 and the last opcode. -/
theorem witness_DecodingGoesInTheOrderOfTheRule :
    ((0x200 : Word).toNat / 512 ≠ 0 ∧ (0x80000021 : Word).toNat / 512 ≠ 0) ∧
    ((0x1FF : Word).toNat / 512 = 0 ∧ (0x1FF : Word).toNat % 256 = 0xFF) ∧
    ((0x136 : Word).toNat / 512 = 0 ∧ (0x136 : Word).toNat % 256 = 0x36 ∧
      (0x136 : Word).toNat / 256 % 2 = 1) ∧
    ((0x121 : Word).toNat / 512 = 0 ∧ (0x121 : Word).toNat % 256 = 0x21) ∧
    (0x36 : Word).toNat / 256 % 2 = 0 := by decide

theorem witness_StepRunsTheDecodedCommand :
    (asked (.memWrite 0 0x36) (used none)).pending = .memWrite 0 0x36 :: [] ∧
    decode 0x36 = .ok .ptload ∧ Instr.ptload.wf = true := ⟨rfl, by decide, rfl⟩

theorem witness_IllegalWordChangesOnlyTheReport :
    (asked (.memWrite 0 0) (used none)).pending = .memWrite 0 0 :: [] ∧
    ((0 : Word) ∉ ([0x01, 0x02, 0x10, 0x11, 0x20, 0x21, 0x121, 0x30, 0x31, 0x32, 0x33, 0x34, 0x35,
      0x36] : List Word)) := ⟨rfl, by decide⟩

theorem witness_EveryStepCompletes : (used none).pending = [] := rfl

theorem witness_EveryStepKeepsTheInvariant :
    (used none).Inv ∧ ∃ t, step (used none) = .next t := ⟨used_inv, _, rfl⟩

theorem witness_ResetEventRestoresEveryElement :
    (asked .reset (used none)).pending = .reset :: [] := rfl

theorem witness_OnlyResetEndsATableOrChangesItsShape :
    let s := asked (.memWrite 0x30 5) (used none)
    s.ptrdy = true ∧ (∀ rest, s.pending ≠ .reset :: rest) ∧ ∃ t, step s = .next t :=
  ⟨rfl, fun _ h => by simp [asked] at h, _, rfl⟩

/-- Reads the port refuses and reads it accepts, at the edges of the ranges of R51. -/
theorem witness_BusErrors_reads :
    (∀ n ∈ [0x00, 0x01, 0x02, 0x58, 0x5C, 0xB0, 0xFC, 0x500, 0xFFFC, 0x11000, 0x22000],
      (BitVec.ofNat 32 n).toNat % 4 ≠ 0 ∨ ¬ Mapped (device none) (BitVec.ofNat 32 n).toNat ∨
        (BitVec.ofNat 32 n).toNat = 0) ∧
    ∀ n ∈ [0x04, 0x54, 0x60, 0xAC, 0x100, 0x4FC, 0x10000, 0x10FFC, 0x20000, 0x21FFC],
      ¬ ((BitVec.ofNat 32 n).toNat % 4 ≠ 0 ∨ ¬ Mapped (device none) (BitVec.ofNat 32 n).toNat ∨
        (BitVec.ofNat 32 n).toNat = 0) := by
  unfold Mapped; decide +kernel

/-- Writes the port refuses when a table exists, and writes it accepts when none does. -/
theorem witness_BusErrors_writes :
    (∀ n ∈ [0x62, 0x04, 0x2C, 0x30, 0x34, 0x40, 0x54, 0x58, 0x90, 0x280, 0x11000, 0x20000],
      (BitVec.ofNat 32 n).toNat % 4 ≠ 0 ∨ ¬ Mapped (device none) (BitVec.ofNat 32 n).toNat ∨
        ¬ Writable (used none) (BitVec.ofNat 32 n).toNat) ∧
    ∀ n ∈ [0x00, 0x28, 0x30, 0x34, 0x38, 0x3C, 0x60, 0x8C, 0x100, 0x27C, 0x10000, 0x10FFC],
      ¬ ((BitVec.ofNat 32 n).toNat % 4 ≠ 0 ∨ ¬ Mapped (device none) (BitVec.ofNat 32 n).toNat ∨
        ¬ Writable (boot (device none)) (BitVec.ofNat 32 n).toNat) := by
  unfold Mapped Writable; decide +kernel

theorem witness_BusErrorChangesNothing :
    let s := asked (.memRead 2) (used none)
    s.pending = .memRead 2 :: [] ∧ ∃ t, step s = .next t ∧ t.trace = .busError :: s.trace :=
  ⟨rfl, _, rfl, rfl⟩

theorem witness_ReadingChangesNothing :
    (asked (.memRead 4) (used none)).pending = .memRead 4 :: [] := rfl

/-- The kinds of writable element: a single register, the lockable pair, both halves of `PT_ARG`, a
byte array, an integer register, the last word of `IBUF`. -/
theorem witness_WrittenWordIsReadBack :
    ∀ n ∈ [0x28, 0x30, 0x34, 0x38, 0x3C, 0x60, 0x8C, 0x100, 0x27C, 0x10FFC],
      (BitVec.ofNat 32 n).toNat % 4 = 0 ∧ (BitVec.ofNat 32 n).toNat ≠ 0 ∧
        Writable (boot (device none)) (BitVec.ofNat 32 n).toNat := by
  unfold Writable; decide +kernel

theorem witness_AddressesDoNotAlias : mapAddr (device none) 0x6C = some (.key 3) := by decide +kernel

/-- The ends of the arrays' ranges. -/
theorem witness_ReadableAddressesShowTheirElements :
    3 < 4 ∧ 31 < 32 ∧ 4 * 1023 < (boot (device none)).cfg.ibufCap ∧
    4 * 2047 < (boot (device none)).cfg.obufCap := by decide +kernel

/-- The ends of the ranges of words, bytes and rounds. -/
theorem witness_Aes128MeetsItsByteEquations :
    3 < 4 ∧ (4 ≤ 43 ∧ 43 < 44 ∧ 43 % 4 ≠ 0) ∧ (4 ≤ 4 ∧ 4 < 44 ∧ 4 % 4 = 0) ∧
    (4 ≤ 40 ∧ 40 < 44 ∧ 40 % 4 = 0) ∧ 15 < 16 ∧ (1 ≤ 1 ∧ 9 < 10) := by decide

/-- The ends of the constants' ranges. -/
theorem witness_ConstantsReadAsTheRuleSays : 31 < 32 ∧
    (0x54 : Word).toNat = 0x54 ∧ (0x90 ≤ (0x90 : Word).toNat ∧ (0xAC : Word).toNat < 0xB0) ∧
    (0x380 ≤ (0x380 : Word).toNat ∧ (0x3FC : Word).toNat < 0x400) := by decide

theorem witness_EskhexSpellsEsk : 63 < 64 ∧ 3 < 4 ∧ 255 < 256 := by decide

theorem witness_StreamPortsSupplyAndTake :
    (asked (.srcSupply [1]) (used none)).pending = .srcSupply [1] :: [] ∧
    (asked .snkTake (used none)).pending = .snkTake :: [] := ⟨rfl, rfl⟩

theorem witness_SetkeyAndPtargPresentTheirOperands :
    let k := List.replicate 16 (0xAB : Byte)
    k.length = 16 ∧ ({ used none with pending := Script.setkey k }).pending = Script.setkey k ∧
    ({ used none with pending := Script.ptarg 95 }).pending = Script.ptarg 95 := ⟨rfl, rfl, rfl⟩

theorem witness_ModPowIsThePowerModuloTheModulus : 1 ≤ 1 := Nat.le_refl 1

theorem witness_ModpowWritesThePowerOrReportsModzero :
    ({ boot (device none) with mpMod := 1 }).mpMod ≠ 0 ∧ (boot (device none)).mpMod = 0 := by
  decide +kernel

theorem witness_CbcChainsItsBlocks :
    (List.replicate 32 (0x41 : Byte)).length = 16 * 2 ∧ 1 ≤ 2 ∧ 0 < 2 ∧ 1 < 2 := by decide

theorem witness_Base64IsInjectiveAndInItsAlphabet :
    3 * 1 < [1, 2, 3, (4 : Byte)].length ∧ b64 [0] = b64 [0] ∧ (0x3d : Byte) ∈ b64 [0] := by
  decide +kernel

/-- Both refusals and the success of AESCBC, each at its edge. -/
theorem witness_AescbcEncryptsOrReportsLen :
    deviceSmall.ibufCap < 65 ∧ (32 ≤ deviceSmall.ibufCap ∧ deviceSmall.obufCap < clen 32) ∧
    (31 ≤ deviceSmall.ibufCap ∧ clen 31 ≤ deviceSmall.obufCap) := by decide +kernel

/-- Both refusals and the success of DBLENC and ENCRYPT, each at its edge. -/
theorem witness_DblencEncryptsOrReportsLen :
    deviceSmall.ibufCap < 65 ∧ (16 ≤ deviceSmall.ibufCap ∧ deviceSmall.obufCap < dlen 16) ∧
    (15 ≤ deviceSmall.ibufCap ∧ dlen 15 ≤ deviceSmall.obufCap) := by decide +kernel

theorem witness_EncryptWritesBothHalvesOrReportsLen :
    let s := fun n : Word => { boot deviceSmall with ilen := n }
    (s 65).cfg.ibufCap < (s 65).ilen.toNat ∧
    ((s 16).ilen.toNat ≤ (s 16).cfg.ibufCap ∧ (s 16).cfg.obufCap < dlen (s 16).ilen.toNat) ∧
    ((s 15).ilen.toNat ≤ (s 15).cfg.ibufCap ∧ dlen (s 15).ilen.toNat ≤ (s 15).cfg.obufCap) := by
  decide +kernel

/-- Two devices that differ in everything else but the input, the key and the capacities. -/
theorem witness_DblencDependsOnlyOnInputAndKey :
    let s := boot (device none)
    let t := { used (some 3) with result := 5, akey := 1 }
    s.ilen = t.ilen ∧ s.key = t.key ∧ s.cfg.ibufCap = t.cfg.ibufCap ∧ s.cfg.obufCap = t.cfg.obufCap ∧
    (∀ i, i < s.ilen.toNat → s.bufByte (ibufBase + i) = t.bufByte (ibufBase + i)) ∧
    exec .dblenc s = .next (did .dblenc s) ∧ exec .dblenc t = .next (did .dblenc t) ∧
    (did .dblenc s).err = 0 := by
  refine ⟨by decide +kernel, by decide +kernel, by decide +kernel, by decide +kernel,
    fun i hi => ?_, next_of _ _, next_of _ _, by decide +kernel⟩
  rw [show (boot (device none)).ilen.toNat = 0 by decide +kernel] at hi
  exact absurd hi (Nat.not_lt_zero i)

theorem witness_EncryptIsDblencThenEnckey :
    (boot deviceSmall).ilen.toNat ≤ (boot deviceSmall).cfg.ibufCap ∧
    dlen (boot deviceSmall).ilen.toNat ≤ (boot deviceSmall).cfg.obufCap := by decide +kernel

theorem witness_GeneratingEncryptIsKeygenThenEncrypt :
    let s := { boot deviceSmall with ilen := 15 }
    s.ilen.toNat ≤ s.cfg.ibufCap ∧ dlen s.ilen.toNat ≤ s.cfg.obufCap := by decide +kernel

theorem witness_TableCommandsNeedATable :
    Instr.ptload ∈ [Instr.ptalloc, .pttest, .ptset, .pttas, .ptdump, .ptload] ∧
    (boot (device none)).ptrdy = false := by decide +kernel

/-- The three outcomes of PTINIT: a table exists; shapes just outside; shapes just inside. -/
theorem witness_PtinitBuildsAnEmptyTableOrReports :
    (used none).ptrdy = true ∧
    (∀ p ∈ ([(5, 5), (1, 2), (11, 0), (15, 4)] : List (Nat × Nat)),
      ¬ (p.2 ≤ 4 ∧ p.2 ≤ p.1 ∧ p.1 - p.2 ≤ 10)) ∧
    (∀ p ∈ ([(0, 0), (4, 4), (10, 0), (14, 4)] : List (Nat × Nat)),
      p.2 ≤ 4 ∧ p.2 ≤ p.1 ∧ p.1 - p.2 ≤ 10) ∧
    (boot (device none)).ptrdy = false := by decide +kernel

/-- No room, and room, in a device with a limit of two blocks. -/
theorem full_hasNoRoom : ¬ (used (some 2)).HasRoom := fun h =>
  absurd (h 2 rfl) (by decide +kernel)
theorem used_hasRoom : (used (some 3)).HasRoom := fun m h => by
  cases h; decide +kernel

/-- The outcomes of PTALLOC: index 10, block 9 allocated, block 0 without and with room. -/
theorem witness_PtallocAllocatesOneBlockOrReports :
    (used none).ptrdy = true ∧ (used none).ptBcount.toNat ≤ 10 ∧ 9 < (used none).ptBcount.toNat ∧
    (used none).slot 9 ≠ none ∧ (used none).slot 0 = none ∧ (used (some 2)).slot 0 = none ∧
    ¬ (used (some 2)).HasRoom ∧ (used (some 3)).HasRoom :=
  ⟨rfl, by decide +kernel, by decide +kernel, by decide +kernel, by decide +kernel,
    by decide +kernel, full_hasNoRoom, used_hasRoom⟩

/-- The last id in range and the first out of range. -/
theorem witness_PttestReadsTheBitOrReports :
    (used none).ptrdy = true ∧ 99 < (used none).ptBcount.toNat * (used none).ptBbits.toNat ∧
    (used none).ptBcount.toNat * (used none).ptBbits.toNat ≤ 100 := by decide +kernel

/-- The outcomes of PTSET and PTTAS: id 100; id 99 in an allocated block; id 0 in an unallocated one
without and with room. -/
theorem witness_PtsetSetsOneBitOrReports :
    (used none).ptBcount.toNat * (used none).ptBbits.toNat ≤ 100 ∧
    (used none).slot (99 / (used none).ptBbits.toNat) ≠ none ∧
    (used none).slot (0 / (used none).ptBbits.toNat) = none ∧
    ¬ (used (some 2)).HasRoom ∧ (used (some 3)).HasRoom :=
  ⟨by decide +kernel, by decide +kernel, by decide +kernel, full_hasNoRoom, used_hasRoom⟩

theorem witness_PttasTestsAndSetsOrReports :
    let s := { used (some 2) with ptArg := 95 }
    s.ptrdy = true ∧ s.ptArg.toNat < s.ptBcount.toNat * s.ptBbits.toNat ∧
    s.slot (s.ptArg.toNat / s.ptBbits.toNat) ≠ none := by decide +kernel

theorem witness_PttasIsPttestAndPtset :
    let s := { used none with ptArg := 7 }
    exec .pttas s = .next (did .pttas s) ∧ exec .ptset s = .next (did .ptset s) ∧
    exec .pttest s = .next (did .pttest s) ∧ (did .pttas s).err = 0 :=
  ⟨next_of _ _, next_of _ _, next_of _ _, by decide +kernel⟩

theorem witness_PtsetIsIdempotent :
    (used none).Inv ∧ exec .ptset (used none) = .next (did .ptset (used none)) ∧
    (did .ptset (used none)).err = 0 := ⟨used_inv, next_of _ _, by decide +kernel⟩

theorem witness_DifferentIdsHaveDifferentBits :
    0 < 10 * 10 ∧ 99 < 10 * 10 ∧ locate 10 99 = locate 10 99 := by decide +kernel

/-- The same id and the id next to it. -/
theorem witness_SetThenTestSeesExactlyThatId :
    exec .ptset (used none) = .next (did .ptset (used none)) ∧ (did .ptset (used none)).err = 0 ∧
    (1 : DWord).toNat < (used none).ptBcount.toNat * (used none).ptBbits.toNat ∧
    (0 : DWord) = (used none).ptArg ∧ (1 : DWord) ≠ (used none).ptArg :=
  ⟨next_of _ _, by decide +kernel, by decide +kernel, by decide +kernel, by decide +kernel⟩

theorem witness_SlotsAndBitsAreOneWay :
    exec .pttas (used none) = .next (did .pttas (used none)) ∧
    Instr.pttas ∈ [Instr.ptalloc, .ptset, .pttas] ∧ Instr.ptdump ∈ [Instr.pttest, .ptdump] ∧
    (used none).slot 9 ≠ none ∧ (used none).bitAt 9 0 2 = true :=
  ⟨next_of _ _, by decide, by decide, by decide +kernel, by decide +kernel⟩

theorem witness_TailBitsAreNeverSet :
    (table none).TailClear ∧ Instr.ptset ∈ [Instr.ptalloc, .ptset, .pttas] ∧
    exec .ptset (table none) = .next (did .ptset (table none)) :=
  ⟨fun _ _ _ _ _ => rfl, by decide, next_of _ _⟩

theorem witness_PtdumpAppendsTheImageOrReports :
    (boot (device none)).ptrdy = false ∧ (used none).ptrdy = true := ⟨rfl, rfl⟩

theorem witness_ImageLengthCountsTheAllocatedBlocks :
    (used none).Inv ∧ (used none).ptrdy = true := ⟨used_inv, rfl⟩

/-- Five bytes of header; six bytes with another count, and with another size. -/
theorem witness_PtloadRefusesABadHeader :
    (image2.take 5).length < 6 ∧ 6 ≤ (beBytes 6 0x000b00000002).length ∧
    beInt ((beBytes 6 0x000b00000002).take 2) ≠ (used none).ptBcount.toNat ∧
    beInt (((beBytes 6 0x000a0000000d).drop 2).take 4) ≠ (used none).ptBbytes.toNat := by
  decide +kernel

/-- The invariant does not look at the streams or at the limit, as long as it holds the blocks. -/
theorem used_src_inv (r : List Byte) (m : Nat) (hm : 2 ≤ m) :
    State.Inv { used (some m) with src := r } where
  mem := used_inv.mem
  shape := used_inv.shape
  store := ⟨used_inv.store.1, fun k h => by cases h; exact hm⟩
  report := used_inv.report
  output := used_inv.output
  values := used_inv.values

/-- The records of the failing loads: two blocks with flag 0 assigned, eight still to come. -/
def firstTwo : List Record := [none, none]

/-- PTLOAD after two records: whatever follows, the common hypotheses hold. -/
theorem witness_PtloadAssigns_stops (tail : List Byte) :
    let s := { used (some 2) with
      src := headerBytes 10 2 ++ firstTwo.flatMap Record.bytes ++ tail }
    s.Inv ∧ s.ptrdy = true ∧ firstTwo.length < s.ptBcount.toNat ∧
    (∀ d, some d ∈ firstTwo → d.length = s.ptBbytes.toNat) ∧
    (∃ t, s.assignRecords 0 firstTwo = some t) ∧
    s.src = headerBytes s.ptBcount.toNat s.ptBbytes.toNat ++ firstTwo.flatMap Record.bytes ++ tail :=
  ⟨used_src_inv _ 2 (by decide), rfl, by show 2 < (10 : Word).toNat; decide,
    fun d h => by simp [firstTwo] at h, ⟨_, rfl⟩, rfl⟩

/-- What may follow them: nothing, the flag 2 or 255, flag 1 and one content byte of two. -/
theorem witness_PtloadAssigns_tails :
    ([] : List Byte) = [] ∧ (2 : Byte) ≠ 0 ∧ (2 : Byte) ≠ 1 ∧ (255 : Byte) ≠ 0 ∧ (255 : Byte) ≠ 1 ∧
    [(7 : Byte)].length < (used (some 2)).ptBbytes.toNat := by decide +kernel

/-- PTLOAD without room for block 0, at the first record. -/
theorem witness_PtloadAssigns_nomem :
    let s := { used (some 2) with src := headerBytes 10 2 ++ [] ++ (1 :: ([4, 0] ++ [0])) }
    s.Inv ∧ s.ptrdy = true ∧ s.assignRecords 0 [] = some s ∧ [(4 : Byte), 0].length = s.ptBbytes.toNat ∧
    s.slot ([] : List Record).length = none ∧ ¬ s.HasRoom :=
  ⟨used_src_inv _ 2 (by decide), rfl, rfl, by decide +kernel, by decide +kernel, full_hasNoRoom⟩

/-- A whole image: block 0 with content, the others unallocated. -/
def wholeImage : List Record := some [4, 0] :: List.replicate 9 none

/-- PTLOAD of ten records, with a byte left over: the success clause. -/
theorem witness_PtloadAssigns_whole :
    let s := { used (some 3) with src := headerBytes 10 2 ++ wholeImage.flatMap Record.bytes ++ [9] }
    s.Inv ∧ s.ptrdy = true ∧ wholeImage.length = s.ptBcount.toNat ∧
    (∀ d, some d ∈ wholeImage → d.length = s.ptBbytes.toNat) ∧
    (∃ t, s.assignRecords 0 wholeImage = some t) ∧
    s.src = headerBytes s.ptBcount.toNat s.ptBbytes.toNat ++ wholeImage.flatMap Record.bytes ++ [9] :=
  ⟨used_src_inv _ 3 (by decide), rfl, by decide +kernel, fun d h => by
    simp [wholeImage] at h; subst h; decide +kernel,
    Option.isSome_iff_exists.mp (by decide +kernel), by decide +kernel⟩

/-- The same stream in a device whose limit is the number of blocks. -/
theorem witness_PtloadOfAWholeImageAssignsEverySlot :
    let s := { used (some 10) with src := headerBytes 10 2 ++ wholeImage.flatMap Record.bytes ++ [] }
    s.Inv ∧ s.ptrdy = true ∧ wholeImage.length = s.ptBcount.toNat ∧
    (∀ d, some d ∈ wholeImage → d.length = s.ptBbytes.toNat) ∧
    (∀ m, s.cfg.ptMaxAlloc = some m → s.ptBcount.toNat ≤ m) ∧
    s.src = headerBytes s.ptBcount.toNat s.ptBbytes.toNat ++ wholeImage.flatMap Record.bytes ++ [] :=
  ⟨used_src_inv _ 10 (by decide), rfl, by decide +kernel, fun d h => by
    simp [wholeImage] at h; subst h; decide +kernel, fun m h => by cases h; decide +kernel,
    by decide +kernel⟩

/-- A table in use dumped, and loaded into a table in use whose limit holds both. -/
theorem witness_DumpThenLoadReproducesTheTable :
    let s := used none
    let s' := { used (some 4) with src := (did .ptdump s).snk }
    s.Inv ∧ s'.Inv ∧ s.ptrdy = true ∧ s'.ptrdy = true ∧ s'.ptBcount = s.ptBcount ∧
    s'.ptBbytes = s.ptBbytes ∧
    (∀ m, s'.cfg.ptMaxAlloc = some m → s.nalloc + s'.nalloc ≤ m) ∧
    exec .ptdump s = .next (did .ptdump s) ∧
    (did .ptdump s).snk = s.snk ++ (did .ptdump s).snk ∧ s'.src = (did .ptdump s).snk :=
  ⟨used_inv, used_src_inv _ 4 (by decide), rfl, rfl, rfl, rfl,
    fun m h => by cases h; decide +kernel, next_of _ _, rfl, rfl⟩

/-- An error of PTLOAD and an error of another command. -/
theorem witness_ErrorsArePrecise :
    exec .ptload (used none) = .next (did .ptload (used none)) ∧ (did .ptload (used none)).err ≠ 0 ∧
    exec .ptinit (used none) = .next (did .ptinit (used none)) ∧ (did .ptinit (used none)).err ≠ 0 :=
  ⟨next_of _ _, by decide +kernel, next_of _ _, by decide +kernel⟩

theorem witness_CommandsWriteOnlyTheirOwnRegisters :
    exec (.encrypt true) (used none) = .next (did (.encrypt true) (used none)) := next_of _ _

end Sys2Proof.Tests
end

/-! # Proofs of the state family (10_state.md)

The reset state, the host port's constants and refusals, the step that issues a command, and what
each command may write. -/

section
namespace Sys2Proof.Machine

/-! ### The reset state, R42 -/

@[simp] theorem State.atReset_statusWord (c : Config) (e d : Nat) (p : List HostAction)
    (r : List Response) : (State.atReset c e d p r).statusWord = 0 := rfl

/-- `ESKHEX` of the value 0 is 256 characters `0`, R42 R105. -/
theorem hex256_zero : hex256 0 = List.replicate 256 0x30 := by
  have hdigit : ∀ i ∈ List.range 256, hexByte 0 i = 0x30 := fun i _ => by
    simp only [hexByte, BitVec.ofNat_eq_ofNat, BitVec.toNat_ofNat, Nat.zero_mod, Nat.zero_div]
    rfl
  rw [hex256, List.map_congr_left hdigit, List.map_const', List.length_range]

theorem nModulus_pos (c : Config) : 0 < c.nModulus :=
  Nat.lt_of_lt_of_le (Nat.two_pow_pos 1023) (nModulus_bounds c).1

/-- A reset state meets the invariant whatever the device and the model's own fields are. -/
theorem State.atReset_inv (c : Config) (e d : Nat) (p : List HostAction) (r : List Response) :
    (State.atReset c e d p r).Inv where
  mem := ⟨Memory.wf_nil, fun _ h => absurd h List.not_mem_nil⟩
  shape := ⟨rfl, rfl, rfl⟩
  store := ⟨⟨List.Pairwise.nil, fun _ h => absurd h List.not_mem_nil⟩, fun m _ => Nat.zero_le m⟩
  report := ⟨Nat.zero_le 8, fun _ => ⟨rfl, rfl, rfl, rfl, rfl⟩⟩
  output := ⟨Nat.zero_le _, fun i h => absurd h (Nat.not_lt_zero i)⟩
  values := ⟨Nat.zero_le _, by simpa [State.atReset] using nModulus_pos c⟩

/-- Settles O10: `State.reset` is one of the states of `State.atReset`. -/
theorem resetMeetsTheInvariant : Obligations.ResetMeetsTheInvariant :=
  State.atReset_inv _ _ _ _ _

/-- Settles O12, value by value of the table of R42. -/
theorem resetStateIsTheSpecs : Obligations.ResetStateIsTheSpecs :=
  ⟨State.atReset_statusWord .., rfl, rfl, rfl, rfl, rfl, rfl, rfl, rfl, rfl, rfl, rfl, rfl, rfl,
    rfl, rfl, rfl, rfl, rfl, rfl, rfl, rfl, rfl, rfl, rfl, rfl, rfl, rfl⟩

/-! ### The step -/

/-- A step performs the oldest pending host action, log 1. -/
theorem step_pending {s : State} {a : HostAction} {rest : List HostAction}
    (h : s.pending = a :: rest) : step s = perform a (s.popAction rest) := by
  simp only [step, stepHost, h]

/-- A `MemWrite` to `CMD` issues the word, and is then accepted, R22 R62. -/
theorem perform_memWrite_cmd (s : State) (w : Word) :
    perform (.memWrite 0 w) s = andThen (runCommand w s) fun t => t.respond .accepted := by
  have hm : mapAddr s.cfg 0 = some .cmd := rfl
  simp only [perform, busWrite, hm]

theorem runCommand_ok {w : Word} {i : Instr} (h : decode w = .ok i) (s : State) :
    runCommand w s = exec i s := by
  simp only [runCommand, h]

/-- Settles O6: the step performs the write to `CMD`, and the write runs `exec`. -/
theorem stepRunsTheDecodedCommand : Obligations.StepRunsTheDecodedCommand := by
  intro s w rest i hp hd _
  rw [step_pending hp, perform_memWrite_cmd, runCommand_ok hd, State.popAction]
  cases exec i { s with pending := rest } <;> rfl

/-- Settles O11: the event gives `State.atReset`, which takes only `cfg` from the device. -/
theorem resetEventRestoresEveryElement : Obligations.ResetEventRestoresEveryElement := by
  intro s rest hp
  refine ⟨(s.popAction rest).resetEvent, step_pending hp, State.atReset_statusWord .., ?_⟩
  exact ⟨rfl, rfl, rfl, rfl, rfl, rfl, rfl, rfl, rfl, rfl, rfl, rfl, rfl, rfl, rfl, hex256_zero,
    rfl, rfl, rfl, fun _ => rfl, rfl, rfl, rfl, rfl, rfl, rfl, rfl, fun _ => rfl, rfl, rfl, rfl, rfl,
    rfl, rfl, rfl⟩

/-! ### The host port -/

/-- Settles O18: a location has one address (`Loc.addr`). -/
theorem addressesDoNotAlias : Obligations.AddressesDoNotAlias := by
  intro c a b l ha hb
  have hal : MapAnswer c a.toNat (some l) := ha ▸ mapAddr_answer c a
  have hbl : MapAnswer c b.toNat (some l) := hb ▸ mapAddr_answer c b
  obtain ⟨_, _, haddr_a, _⟩ := hal
  obtain ⟨_, _, haddr_b, _⟩ := hbl
  exact BitVec.eq_of_toNat_eq (haddr_a.trans haddr_b.symm)

/-- A location outside the writable addresses takes no store, R51 R53. -/
theorem writeLoc_eq_none {s : State} {l : Loc} (v : Word) (hl : l.Ok s.cfg)
    (h : ¬ Writable s l.addr) : s.writeLoc v l = none := by
  unfold Writable at h
  cases l
  case ptLength | ptSprefix =>
    cases hp : s.ptrdy
    · exact absurd (by simp [Loc.addr, hp]) h
    · simp [State.writeLoc, hp]
  case cmd | ilen | ptArgLo | ptArgHi => exact absurd (by simp [Loc.addr]) h
  case key | akey | aiv | mpBase | mpExp | mpMod | ibuf =>
    simp only [Loc.addr, Loc.Ok] at h hl
    omega
  all_goals rfl

/-- A `MemWrite` outside the writable addresses is a bus error and changes nothing, R53 R54. -/
theorem perform_memWrite_refused {s : State} {a : Word} (v : Word) (h : ¬ Writable s a.toNat) :
    perform (.memWrite a v) s = .next (s.respond .busError) := by
  have hans := mapAddr_answer s.cfg a
  cases hm : mapAddr s.cfg a with
  | none => simp only [perform, busWrite, hm]
  | some l =>
    rw [hm] at hans
    obtain ⟨_, _, haddr, hok⟩ := hans
    rw [haddr] at h
    have hw := writeLoc_eq_none v hok h
    cases l
    case cmd => exact absurd (.inl rfl) h
    all_goals simp only [perform, busWrite, hm, hw]

/-- The constants' addresses are not writable, R26. -/
theorem not_writable_constant (s : State) {n : Nat}
    (h : n = 0x54 ∨ (0x90 ≤ n ∧ n < 0xB0) ∨ (0x380 ≤ n ∧ n < 0x400)) : ¬ Writable s n := by
  unfold Writable
  omega

/-- Word `k` of `MODULUS`, R26 R56. -/
theorem busRead_modulus (s : State) {k : Nat} (hk : k < 32) :
    busRead s (BitVec.ofNat 32 (0x380 + 4 * k)) =
      .data (BitVec.ofNat 32 (s.cfg.nModulus / 2 ^ (32 * k))) := by
  have hfit : (BitVec.ofNat 1024 s.cfg.nModulus).toNat = s.cfg.nModulus := by
    rw [BitVec.toNat_ofNat, Nat.mod_eq_of_lt (nModulus_bounds s.cfg).2]
  have hread := busRead_addr (s := s) (l := .modulus k) hk rfl
  rwa [wordOf_eq_ofNat, hfit] at hread

/-- Word `j` of `NONCE`, R26 R58. -/
theorem busRead_nonce (s : State) {j : Nat} (hj : j < 4) :
    busRead s (BitVec.ofNat 32 (0x90 + 4 * j)) = .data (wordOf nonce j) :=
  busRead_addr (l := .nonce j) hj rfl

/-- Word `j` of `IV`, R26 R58. -/
theorem busRead_iv (s : State) {j : Nat} (hj : j < 4) :
    busRead s (BitVec.ofNat 32 (0xA0 + 4 * j)) = .data (wordOf fixedIv j) :=
  busRead_addr (l := .iv j) hj rfl

/-- The words of `NONCE` and `IV`, from the characters of R5, the first in the lowest lane. -/
theorem wordOf_nonce_iv :
    wordOf nonce 0 = 0x4A6F4330 ∧ wordOf nonce 1 = 0x51366D55 ∧
    wordOf nonce 2 = 0x57387779 ∧ wordOf nonce 3 = 0x64756A38 ∧
    wordOf fixedIv 0 = 0x32303130 ∧ wordOf fixedIv 1 = 0x34303330 ∧
    wordOf fixedIv 2 = 0x36303530 ∧ wordOf fixedIv 3 = 0x38303730 := by decide

/-- Settles O19: reads through `busRead_addr`, writes as stores outside `Writable`. -/
theorem constantsReadAsTheRuleSays : Obligations.ConstantsReadAsTheRuleSays := by
  intro s
  obtain ⟨n0, n1, n2, n3, v0, v1, v2, v3⟩ := wordOf_nonce_iv
  refine ⟨fun k hk => busRead_modulus s hk, busRead_addr (l := .exponent) trivial rfl,
    n0 ▸ busRead_nonce s (j := 0) (by decide), n1 ▸ busRead_nonce s (j := 1) (by decide),
    n2 ▸ busRead_nonce s (j := 2) (by decide), n3 ▸ busRead_nonce s (j := 3) (by decide),
    v0 ▸ busRead_iv s (j := 0) (by decide), v1 ▸ busRead_iv s (j := 1) (by decide),
    v2 ▸ busRead_iv s (j := 2) (by decide), v3 ▸ busRead_iv s (j := 3) (by decide),
    (nModulus_bounds s.cfg).1, (nModulus_bounds s.cfg).2, fun a v ha => ?_⟩
  exact perform_memWrite_refused v (not_writable_constant s ha)

/-! ### STATUS, R23 -/

theorem State.errf_iff (s : State) : s.errf = true ↔ s.err ≠ 0 := bne_iff_ne

/-- The two bits of `STATUS` and the zeros above them. -/
theorem State.statusWord_bits (s : State) :
    s.statusWord.getLsbD 0 = s.ptrdy ∧ s.statusWord.getLsbD 1 = s.errf ∧
      s.statusWord.toNat < 4 := by
  unfold State.statusWord
  cases s.ptrdy <;> cases s.errf <;> decide

/-- Settles O20. The address of `STATUS` reads `State.statusWord`. -/
theorem statusShowsItsTwoFlags : Obligations.StatusShowsItsTwoFlags := by
  intro s
  obtain ⟨hready, herr, hhigh⟩ := s.statusWord_bits
  exact ⟨s.statusWord, busRead_addr (l := .status) trivial rfl, hready, herr ▸ s.errf_iff, hhigh⟩

/-! ### What a command may write, R20 -/

/-- `t` is `s` with some report in `ERR` and `EINFO0..4`, R202. -/
def State.Reported (s t : State) : Prop := ∃ code a b c d e, t = s.report code a b c d e

theorem State.reported_raise (s : State) (e : CmdError) : s.Reported (s.raise e) :=
  ⟨_, _, _, _, _, _, rfl⟩

theorem State.reported_succeed (s : State) : s.Reported s.succeed := ⟨_, _, _, _, _, _, rfl⟩

/-- `u` is `s` with elements that the command may write changed, the report apart: one row for each
command, 10_state.md R20. -/
def CommandWrites : Instr → State → State → Prop
  | .modpow, s, u => ∃ v, u = { s with mpRes := v }
  | .enckey, s, u => ∃ v, u = { s with esk := v }
  | .aescbc, s, u | .dblenc, s, u =>
    ∃ m n, (∀ a, a < obufBase → Memory.read m a = s.mem.read a) ∧ u = { s with mem := m, olen := n }
  | .keygen, s, u => ∃ k n, u = { s with key := k, draws := n }
  | .encrypt g, s, u =>
    ∃ k d m n v, (∀ a, a < obufBase → Memory.read m a = s.mem.read a) ∧
      (g = false → k = s.key ∧ d = s.draws) ∧
      u = { s with key := k, draws := d, mem := m, olen := n, esk := v }
  | .ptinit, s, u =>
    ∃ c b n l r, u = { s with ptBcount := c, ptBbits := b, ptBbytes := n, slots := l, ptrdy := r }
  | .ptalloc, s, u | .ptset, s, u => ∃ l, u = { s with slots := l }
  | .pttest, s, u => ∃ v, u = { s with result := v }
  | .pttas, s, u => ∃ v l, u = { s with result := v, slots := l }
  | .ptdump, s, u => ∃ v q, u = { s with result := v, snk := q }
  | .ptload, s, u => ∃ v l r, u = { s with result := v, slots := l, src := r }

/-- The output goes to `OBUF`: no byte below it is written, R31. -/
theorem Memory.read_writeOutput_of_lt (m : Memory) (o : List Byte) {a : Nat} (ha : a < obufBase) :
    (m.writeBytes obufBase o).read a = m.read a := by
  rw [Memory.read_writeBytes, if_neg (by omega)]

/-- Setting an id's bit writes only the slots, R167. -/
theorem State.allocateAndSet_slots {s t : State} {p : BitPlace}
    (h : s.allocateAndSet p = .ok t) : t = { s with slots := t.slots } := by
  rcases s.allocateAndSet_cases p with ⟨_, _, herr⟩ | ⟨_, u, hok, hu, _⟩
  · rw [herr] at h; cases h
  · rw [hok] at h; cases h; exact hu

/-! ### Reading an image

It writes only the slots and `SRC`, R184 R185. -/

/-- `t` is `s` with some slots and some stream in `SRC`. -/
def State.Loaded (s t : State) : Prop := ∃ l r, t = { s with slots := l, src := r }

/-- The state a load ends in, with an error or without. -/
def loadEnd : Except (State × CmdError) (State × Nat) → State
  | .error (t, _) => t
  | .ok (t, _) => t

theorem State.Loaded.trans {s t u : State} (hst : s.Loaded t) (htu : t.Loaded u) : s.Loaded u := by
  obtain ⟨_, _, rfl⟩ := hst
  obtain ⟨l, r, rfl⟩ := htu
  exact ⟨l, r, rfl⟩

theorem State.loaded_loadRecord (s : State) (i : Nat) : s.Loaded (loadEnd (s.loadRecord i)) := by
  rcases s.loadRecord_cases i with ⟨_, h⟩ | ⟨_, _, h⟩ | ⟨_, _, _, h⟩ | ⟨_, _, _, _, _, _, h⟩ |
    ⟨_, _, _, _, _, h⟩ | ⟨_, _, _, _, _, h⟩
  all_goals rw [h]; exact ⟨_, _, rfl⟩

theorem State.loaded_loadRecords (n : Nat) : ∀ (i c : Nat) (s : State),
    s.Loaded (loadEnd (State.loadRecords n i c s)) := by
  induction n with
  | zero => exact fun _ _ _ => ⟨_, _, rfl⟩
  | succ n ih =>
    intro i c s
    have hrec := s.loaded_loadRecord i
    rw [State.loadRecords]
    cases h : s.loadRecord i with
    | error e => rwa [h] at hrec
    | ok p => exact (h ▸ hrec).trans (ih _ _ p.1)

theorem State.loaded_load (s : State) : s.Loaded (loadEnd s.load) := by
  have hheader : s.Loaded (s.withSrc (s.src.drop 6)) := ⟨_, _, rfl⟩
  unfold State.load
  rw [State.srcRead_eq]
  dsimp only
  split_ifs
  · exact hheader
  · exact hheader
  · exact hheader.trans (State.loaded_loadRecords ..)

/-! ### How a command ends, R203 -/

/-- The outcome of a command: a next state, which differs from `s` in what the command may write and
in the report. -/
def CommandEnds (i : Instr) (s : State) (o : Host.Outcome State Fault Refusal) : Prop :=
  ∃ u t, CommandWrites i s u ∧ u.Reported t ∧ o = .next t

/-- A command may leave all that it may write as it is. -/
theorem commandWrites_self (i : Instr) (s : State) : CommandWrites i s s := by
  cases i
  case aescbc | dblenc => exact ⟨_, _, fun _ _ => rfl, rfl⟩
  case encrypt g => exact ⟨_, _, _, _, _, fun _ _ => rfl, fun _ => ⟨rfl, rfl⟩, rfl⟩
  case modpow | enckey | ptalloc | ptset | pttest => exact ⟨_, rfl⟩
  case keygen | pttas | ptdump => exact ⟨_, _, rfl⟩
  case ptload => exact ⟨_, _, _, rfl⟩
  case ptinit => exact ⟨_, _, _, _, _, rfl⟩

theorem commandEnds_raise (i : Instr) (s : State) (e : CmdError) :
    CommandEnds i s (.next (s.raise e)) :=
  ⟨s, _, commandWrites_self i s, s.reported_raise e, rfl⟩

theorem commandEnds_succeed {i : Instr} {s u : State} (h : CommandWrites i s u) :
    CommandEnds i s (.next u.succeed) :=
  ⟨u, _, h, u.reported_succeed, rfl⟩

/-- ENCRYPT writes `KEY` with `g` set only, R152. -/
theorem encrypt_writes (g : Bool) (s : State) (n : Nat) :
    CommandWrites (.encrypt g) s ((if g then s.drawKey else s).encryptInput n).encodeKey := by
  cases g
  · exact ⟨_, _, _, _, _, fun _ ha => s.mem.read_writeOutput_of_lt _ ha, fun _ => ⟨rfl, rfl⟩, rfl⟩
  · obtain ⟨k, _, hk⟩ := s.drawKey_cases
    rw [if_pos rfl, hk]
    exact ⟨_, _, _, _, _, fun _ ha => s.mem.read_writeOutput_of_lt _ ha, nofun, rfl⟩

theorem execModpow_ends (s : State) : CommandEnds .modpow s (execModpow s) := by
  unfold execModpow
  split
  · exact commandEnds_raise _ s _
  · exact commandEnds_succeed ⟨_, rfl⟩

theorem execAescbc_ends (s : State) : CommandEnds .aescbc s (execAescbc s) := by
  unfold execAescbc
  cases s.lenCheck clen with
  | some e => exact commandEnds_raise _ s e
  | none => exact commandEnds_succeed ⟨_, _, fun _ ha => s.mem.read_writeOutput_of_lt _ ha, rfl⟩

theorem execDblenc_ends (s : State) : CommandEnds .dblenc s (execDblenc s) := by
  unfold execDblenc
  cases s.lenCheck dlen with
  | some e => exact commandEnds_raise _ s e
  | none => exact commandEnds_succeed ⟨_, _, fun _ ha => s.mem.read_writeOutput_of_lt _ ha, rfl⟩

theorem execKeygen_ends (s : State) : CommandEnds .keygen s (execKeygen s) := by
  obtain ⟨k, _, hk⟩ := s.drawKey_cases
  rw [execKeygen, hk]
  exact commandEnds_succeed ⟨_, _, rfl⟩

theorem execEncrypt_ends (g : Bool) (s : State) :
    CommandEnds (.encrypt g) s (execEncrypt g s) := by
  unfold execEncrypt
  cases s.lenCheck dlen with
  | some e => exact commandEnds_raise _ s e
  | none => exact commandEnds_succeed (encrypt_writes g s _)

theorem execPtinit_ends (s : State) : CommandEnds .ptinit s (execPtinit s) := by
  unfold execPtinit
  dsimp only
  split_ifs
  · exact commandEnds_raise _ s _
  · exact commandEnds_succeed ⟨_, _, _, _, _, rfl⟩
  · exact commandEnds_raise _ s _

theorem execPtalloc_ends (s : State) : CommandEnds .ptalloc s (execPtalloc s) := by
  unfold execPtalloc
  split_ifs
  · exact commandEnds_raise _ s _
  · exact commandEnds_raise _ s _
  · rcases s.allocate_cases s.ptArg.toNat with ⟨_, h⟩ | ⟨_, _, h⟩ | ⟨_, _, h⟩ <;> rw [h]
    · exact commandEnds_succeed ⟨_, rfl⟩
    · exact commandEnds_succeed ⟨_, rfl⟩
    · exact commandEnds_raise _ s _

theorem execPttest_ends (s : State) : CommandEnds .pttest s (execPttest s) := by
  unfold execPttest
  cases s.idCheck with
  | some e => exact commandEnds_raise _ s e
  | none => exact commandEnds_succeed ⟨_, rfl⟩

theorem execPtset_ends (s : State) : CommandEnds .ptset s (execPtset s) := by
  unfold execPtset
  cases s.idCheck with
  | some e => exact commandEnds_raise _ s e
  | none =>
    cases h : s.allocateAndSet s.place with
    | error e => exact commandEnds_raise _ s e
    | ok u => exact commandEnds_succeed ⟨u.slots, State.allocateAndSet_slots h⟩

theorem execPttas_ends (s : State) : CommandEnds .pttas s (execPttas s) := by
  unfold execPttas
  cases s.idCheck with
  | some e => exact commandEnds_raise _ s e
  | none =>
    cases h : s.allocateAndSet s.place with
    | error e => exact commandEnds_raise _ s e
    | ok u =>
      exact commandEnds_succeed
        ⟨_, u.slots, congrArg (State.putBool · _) (State.allocateAndSet_slots h)⟩

theorem execPtdump_ends (s : State) : CommandEnds .ptdump s (execPtdump s) := by
  unfold execPtdump
  split_ifs
  · exact commandEnds_raise _ s _
  · exact commandEnds_succeed ⟨_, _, rfl⟩

/-- A failing load keeps what it has assigned and consumed, R185. -/
theorem execPtload_ends (s : State) : CommandEnds .ptload s (execPtload s) := by
  unfold execPtload
  split_ifs
  · exact commandEnds_raise _ s _
  · have hload := s.loaded_load
    cases h : s.load with
    | error p =>
      obtain ⟨l, r, hp⟩ := h ▸ hload
      exact ⟨p.1, _, ⟨_, l, r, hp⟩, p.1.reported_raise p.2, rfl⟩
    | ok p =>
      obtain ⟨l, r, hp⟩ := h ▸ hload
      exact commandEnds_succeed ⟨_, l, r, congrArg (State.putCount · p.2) hp⟩

/-- Every command ends in a next state and has written its own elements only, R20 R203. -/
theorem exec_ends (i : Instr) (s : State) : CommandEnds i s (exec i s) := by
  cases i with
  | modpow => exact execModpow_ends s
  | enckey => exact commandEnds_succeed ⟨_, rfl⟩
  | aescbc => exact execAescbc_ends s
  | dblenc => exact execDblenc_ends s
  | keygen => exact execKeygen_ends s
  | encrypt g => exact execEncrypt_ends g s
  | ptinit => exact execPtinit_ends s
  | ptalloc => exact execPtalloc_ends s
  | pttest => exact execPttest_ends s
  | ptset => exact execPtset_ends s
  | pttas => exact execPttas_ends s
  | ptdump => exact execPtdump_ends s
  | ptload => exact execPtload_ends s

/-- Settles O58: each row of `CommandWrites` leaves the elements of the other rows alone. -/
theorem commandsWriteOnlyTheirOwnRegisters : Obligations.CommandsWriteOnlyTheirOwnRegisters := by
  intro s t i h
  obtain ⟨u, t', hw, ⟨c, e0, e1, e2, e3, e4, rfl⟩, ht⟩ := exec_ends i s
  obtain rfl : u.report c e0 e1 e2 e3 e4 = t := Host.Outcome.next.inj (ht ▸ h)
  cases i
  case aescbc | dblenc =>
    obtain ⟨m, n, hm, rfl⟩ := hw
    simpa using hm
  case encrypt g =>
    obtain ⟨k, d, m, n, v, hm, hg, rfl⟩ := hw
    cases g
    · obtain ⟨rfl, rfl⟩ := hg rfl
      simpa using hm
    · simpa using hm
  case modpow | enckey | ptalloc | ptset | pttest => obtain ⟨v, rfl⟩ := hw; simp
  case keygen | pttas | ptdump => obtain ⟨v, w, rfl⟩ := hw; simp
  case ptload => obtain ⟨v, l, r, rfl⟩ := hw; simp
  case ptinit => obtain ⟨c, b, n, l, r, rfl⟩ := hw; simp

end Sys2Proof.Machine
end

/-! # Proofs of the memory family (20_memory.md)

Which transactions the host port refuses, what a bus error, a read and a store leave unchanged, what
each readable address shows, and the stream ports. -/

section
namespace Sys2Proof.Machine

/-! ### The address map, R51 R52 -/

theorem mapAddr_eq_none {c : Config} {a : Word} (h : a.toNat % 4 ≠ 0 ∨ ¬ Mapped c a.toNat) :
    mapAddr c a = none := by
  have hans := mapAddr_answer c a
  cases hm : mapAddr c a with
  | none => rfl
  | some l =>
    rw [hm] at hans
    obtain ⟨haligned, hmapped, _, _⟩ := hans
    exact absurd hmapped (h.resolve_left (not_not_intro haligned))

/-- An aligned mapped address is the address of a location of the device. -/
theorem mapAddr_eq_some {c : Config} {a : Word} (h4 : a.toNat % 4 = 0) (hm : Mapped c a.toNat) :
    ∃ l, mapAddr c a = some l ∧ a.toNat = l.addr ∧ l.Ok c := by
  have hans := mapAddr_answer c a
  cases h : mapAddr c a with
  | none =>
    rw [h] at hans
    exact absurd hm (Or.resolve_left hans (not_not_intro h4))
  | some l =>
    rw [h] at hans
    obtain ⟨_, _, haddr, hok⟩ := hans
    exact ⟨l, rfl, haddr, hok⟩

theorem Loc.addr_eq_zero {l : Loc} : l.addr = 0 ↔ l = .cmd := by
  cases l <;> simp [Loc.addr]

theorem Writable.mapped {s : State} {n : Nat} (h : Writable s n) : Mapped s.cfg n := by
  unfold Writable at h
  unfold Mapped
  omega

/-! ### Reads, R53 R57 -/

/-- Only `CMD` has no word to read, R22. -/
theorem readLoc_eq_some (s : State) {l : Loc} (h : l ≠ .cmd) : ∃ v, s.readLoc l = some v := by
  cases l
  case cmd => exact absurd rfl h
  all_goals exact ⟨_, rfl⟩

theorem busRead_eq_busError {s : State} {a : Word}
    (h : a.toNat % 4 ≠ 0 ∨ ¬ Mapped s.cfg a.toNat ∨ a.toNat = 0) : busRead s a = .busError := by
  rcases or_assoc.mpr h with hbad | hzero
  · rw [busRead, mapAddr_eq_none hbad]
  · obtain rfl : a = 0 := BitVec.eq_of_toNat_eq hzero
    rfl

theorem busRead_eq_data {s : State} {a : Word}
    (h : ¬ (a.toNat % 4 ≠ 0 ∨ ¬ Mapped s.cfg a.toNat ∨ a.toNat = 0)) :
    ∃ v, busRead s a = .data v := by
  simp only [not_or, not_not] at h
  obtain ⟨haligned, hmapped, hzero⟩ := h
  obtain ⟨l, hl, haddr, _⟩ := mapAddr_eq_some haligned hmapped
  obtain ⟨v, hv⟩ := readLoc_eq_some s (l := l) fun hc =>
    hzero (haddr.trans (Loc.addr_eq_zero.mpr hc))
  exact ⟨v, by simp only [busRead, hl, hv]⟩

/-- The host's record is at no address. -/
theorem busRead_respond (s : State) (r : Response) (a : Word) :
    busRead (s.respond r) a = busRead s a := by
  have hread : ∀ l, (s.respond r).readLoc l = s.readLoc l := fun l => by cases l <;> rfl
  simp only [busRead, State.respond_cfg, hread]

/-! ### Stores, R53 R57 -/

/-- A location at a writable address takes every word: the converse of `writeLoc_eq_none`. -/
theorem writeLoc_eq_some {s : State} {l : Loc} (v : Word) (hl : l.Ok s.cfg)
    (h : Writable s l.addr) : ∃ t, s.writeLoc v l = some t := by
  unfold Writable at h
  cases l
  case ptLength | ptSprefix =>
    have hp : s.ptrdy = false := by simpa [Loc.addr] using h
    exact ⟨_, by simp only [State.writeLoc, hp]; rfl⟩
  case cmd | ilen | ptArgLo | ptArgHi | key | akey | aiv | mpBase | mpExp | mpMod | ibuf =>
    exact ⟨_, rfl⟩
  all_goals
    simp only [Loc.addr, Loc.Ok] at h hl
    have := ibufCap_le s.cfg
    omega

/-- A store leaves the parameters and the host's record alone. -/
theorem writeLoc_cfg_trace {s t : State} {v : Word} {l : Loc} (h : s.writeLoc v l = some t) :
    t.cfg = s.cfg ∧ t.trace = s.trace := by
  obtain ⟨hframe, _⟩ := writeLoc_frame h
  rw [hframe]
  exact ⟨rfl, rfl⟩

/-- A store seen through the port: its own address reads the word, every other address reads as
before, R43 R56. -/
theorem busRead_writeLoc {s t : State} {a v : Word} {l : Loc} (hm : mapAddr s.cfg a = some l)
    (hl : l.Ok s.cfg) (haddr : a.toNat = l.addr) (hc : l ≠ .cmd) (h : s.writeLoc v l = some t) :
    busRead t a = .data v ∧ ∀ b, b ≠ a → busRead t b = busRead s b := by
  obtain ⟨hcfg, _⟩ := writeLoc_cfg_trace h
  refine ⟨by simp only [busRead, hcfg, hm, readLoc_writeLoc_same hl hc h], fun b hb => ?_⟩
  have hans := mapAddr_answer s.cfg b
  cases hmb : mapAddr s.cfg b with
  | none => simp only [busRead, hcfg, hmb]
  | some m =>
    rw [hmb] at hans
    obtain ⟨_, _, hbaddr, hok⟩ := hans
    have hne : m ≠ l := fun hml =>
      hb (BitVec.eq_of_toNat_eq (hbaddr.trans ((congrArg Loc.addr hml).trans haddr.symm)))
    simp only [busRead, hcfg, hmb, readLoc_writeLoc_ne hl hok hne h]

/-- A write to an aligned writable address other than `CMD` is the store of the location there. -/
theorem perform_memWrite_store {s : State} {a : Word} (v : Word) (h4 : a.toNat % 4 = 0)
    (h0 : a.toNat ≠ 0) (hw : Writable s a.toNat) :
    ∃ l t, mapAddr s.cfg a = some l ∧ a.toNat = l.addr ∧ l.Ok s.cfg ∧ l ≠ .cmd ∧
      s.writeLoc v l = some t ∧ perform (.memWrite a v) s = .next (t.respond .accepted) := by
  obtain ⟨l, hl, haddr, hok⟩ := mapAddr_eq_some h4 hw.mapped
  have hc : l ≠ .cmd := fun hc => h0 (haddr.trans (Loc.addr_eq_zero.mpr hc))
  obtain ⟨t, ht⟩ := writeLoc_eq_some v hok (haddr ▸ hw)
  exact ⟨l, t, hl, haddr, hok, hc, ht, busWrite_writeLoc hl hc ht⟩

/-! ### The answers to a write, R53 R62 -/

/-- A command word, legal or not, ends in a next state and answers the host nothing itself. -/
theorem runCommand_next (w : Word) (s : State) :
    ∃ t, runCommand w s = .next t ∧ t.trace = s.trace := by
  cases hd : decode w with
  | error e => exact ⟨s.raise (.illcmd w), by simp only [runCommand, hd], rfl⟩
  | ok i =>
    obtain ⟨_, t, _, _, ht⟩ := exec_ends i s
    obtain ⟨⟨_, _, _, _, _, _, _, _, _, _, _, _, htrace⟩, _⟩ :=
      commandsWriteOnlyTheirOwnRegisters s t i ht
    exact ⟨t, (runCommand_ok hd s).trans ht, htrace⟩

theorem perform_memWrite_busError {s : State} {a : Word} (v : Word)
    (h : a.toNat % 4 ≠ 0 ∨ ¬ Mapped s.cfg a.toNat ∨ ¬ Writable s a.toNat) :
    perform (.memWrite a v) s = .next (s.respond .busError) := by
  rcases or_assoc.mpr h with hbad | hro
  · simp only [perform, busWrite, mapAddr_eq_none hbad]
  · exact perform_memWrite_refused v hro

theorem perform_memWrite_accepted {s : State} {a : Word} (v : Word)
    (h : ¬ (a.toNat % 4 ≠ 0 ∨ ¬ Mapped s.cfg a.toNat ∨ ¬ Writable s a.toNat)) :
    ∃ t, perform (.memWrite a v) s = .next t ∧ t.trace = .accepted :: s.trace := by
  simp only [not_or, not_not] at h
  obtain ⟨haligned, _, hw⟩ := h
  by_cases h0 : a.toNat = 0
  · obtain rfl : a = 0 := BitVec.eq_of_toNat_eq h0
    obtain ⟨t, ht, htrace⟩ := runCommand_next v s
    exact ⟨t.respond .accepted, by rw [perform_memWrite_cmd, ht]; rfl,
      congrArg (Response.accepted :: ·) htrace⟩
  · obtain ⟨l, t, _, _, _, _, ht, hperform⟩ := perform_memWrite_store v haligned h0 hw
    obtain ⟨_, htrace⟩ := writeLoc_cfg_trace ht
    exact ⟨t.respond .accepted, hperform, congrArg (Response.accepted :: ·) htrace⟩

/-- An action answered by a bus error did nothing but record the answer, R54. -/
theorem perform_busError {s t : State} {act : HostAction} (h : perform act s = .next t)
    (htrace : t.trace = .busError :: s.trace) : t = s.respond .busError := by
  cases act with
  | memRead a =>
    obtain rfl : s.respond (busRead s a) = t := Host.Outcome.next.inj h
    have hr : busRead s a = .busError := (List.cons.inj htrace).1
    rw [hr]
  | memWrite a v =>
    by_cases hbad : a.toNat % 4 ≠ 0 ∨ ¬ Mapped s.cfg a.toNat ∨ ¬ Writable s a.toNat
    · exact (Host.Outcome.next.inj ((perform_memWrite_busError v hbad).symm.trans h)).symm
    · obtain ⟨u, hu, hutrace⟩ := perform_memWrite_accepted v hbad
      obtain rfl : u = t := Host.Outcome.next.inj (hu.symm.trans h)
      exact absurd (hutrace.symm.trans htrace) (by simp)
  | srcSupply bytes =>
    obtain rfl : { s with src := bytes } = t := Host.Outcome.next.inj h
    exact absurd htrace.symm (List.cons_ne_self _ _)
  | snkTake =>
    obtain rfl : State.respond { s with snk := [] } (.taken s.snk) = t := Host.Outcome.next.inj h
    exact absurd (List.cons.inj htrace).1 (by simp)
  | reset =>
    obtain rfl : s.resetEvent = t := Host.Outcome.next.inj h
    exact absurd htrace.symm (List.cons_ne_self _ _)

/-! ### The obligations on transactions -/

/-- Settles O14: both directions for reads (`busRead_eq_busError`, `busRead_eq_data`) and for writes
(`perform_memWrite_busError`, `perform_memWrite_accepted`). -/
theorem busErrorsAreExactlyTheForbiddenTransactions :
    Obligations.BusErrorsAreExactlyTheForbiddenTransactions := by
  intro s a v rest
  refine ⟨fun hp => ⟨fun h => ?_, fun h => ?_⟩, fun hp => ⟨fun h => ?_, fun h => ?_⟩⟩
  all_goals rw [step_pending hp]
  · exact ⟨_, rfl, congrArg (· :: s.trace) (busRead_eq_busError (s := s.popAction rest) h)⟩
  · obtain ⟨w, hw⟩ := busRead_eq_data (s := s.popAction rest) h
    exact ⟨_, w, rfl, congrArg (· :: s.trace) hw⟩
  · exact ⟨_, perform_memWrite_busError (s := s.popAction rest) v h, rfl⟩
  · exact perform_memWrite_accepted (s := s.popAction rest) v h

/-- Settles O15: `perform_busError` after the action is taken out of the list. -/
theorem busErrorChangesNothing : Obligations.BusErrorChangesNothing := by
  intro s t act rest hp hstep htrace
  rw [step_pending hp] at hstep
  exact perform_busError (s := s.popAction rest) hstep htrace

/-- Settles O16: a read only puts its answer into the host's record. -/
theorem readingChangesNothing : Obligations.ReadingChangesNothing :=
  fun s a rest hp => ⟨busRead (s.popAction rest) a, step_pending hp⟩

/-- Settles O17: the write is a store (`perform_memWrite_store`), seen through the port by
`busRead_writeLoc` and with the frame of `writeLoc_frame`. -/
theorem writtenWordIsReadBackAndNothingElseChanges :
    Obligations.WrittenWordIsReadBackAndNothingElseChanges := by
  intro s a v h4 h0 hw
  obtain ⟨l, t, hm, haddr, hok, hc, ht, hperform⟩ := perform_memWrite_store v h4 h0 hw
  obtain ⟨hsame, hother⟩ := busRead_writeLoc hm hok haddr hc ht
  obtain ⟨hframe, hmem⟩ := writeLoc_frame ht
  obtain ⟨_, htrace⟩ := writeLoc_cfg_trace ht
  refine ⟨t.respond .accepted, hperform, congrArg (Response.accepted :: ·) htrace, ?_, ?_, ?_, ?_⟩
  · rw [busRead_respond, hsame]
  · exact fun b hb => (busRead_respond ..).trans (hother b hb)
  · exact fun x hx => hmem x (haddr ▸ hx)
  · rw [State.respond_trace, htrace]
    exact congrArg (State.respond · .accepted) hframe

/-! ### What each readable address shows, R51 R55 R56 R58 -/

/-- The low half of a register, R56. -/
theorem wordOf_zero {w : Nat} (x : BitVec w) : wordOf x 0 = BitVec.ofNat 32 x.toNat := by
  rw [wordOf_eq_ofNat, Nat.mul_zero, Nat.pow_zero, Nat.div_one]

/-- Word `k` of an integer register at the port, R56. -/
theorem busRead_wordOf {w : Nat} {s : State} {l : Loc} {x : BitVec w} {k : Nat} (hl : l.Ok s.cfg)
    (hv : s.readLoc l = some (wordOf x k)) :
    busRead s (BitVec.ofNat 32 l.addr) = .data (BitVec.ofNat 32 (x.toNat / 2 ^ (32 * k))) :=
  wordOf_eq_ofNat x k ▸ busRead_addr hl hv

/-- Both halves of a 64-bit register at the port, R56. -/
theorem busRead_halves {s : State} {lo hi : Loc} {x : DWord} (hlo : lo.Ok s.cfg) (hhi : hi.Ok s.cfg)
    (hvlo : s.readLoc lo = some (wordOf x 0)) (hvhi : s.readLoc hi = some (wordOf x 1)) :
    busRead s (BitVec.ofNat 32 lo.addr) = .data (BitVec.ofNat 32 x.toNat) ∧
    busRead s (BitVec.ofNat 32 hi.addr) = .data (BitVec.ofNat 32 (x.toNat / 2 ^ 32)) :=
  ⟨wordOf_zero x ▸ busRead_addr hlo hvlo, busRead_wordOf hhi hvhi⟩

/-- The words of the three key and block registers, and their bytes, R55 R58. -/
theorem busRead_byteRegisters (s : State) {j : Nat} (hj : j < 4) : ∃ k a v,
    busRead s (BitVec.ofNat 32 (0x60 + 4 * j)) = .data k ∧
    busRead s (BitVec.ofNat 32 (0x70 + 4 * j)) = .data a ∧
    busRead s (BitVec.ofNat 32 (0x80 + 4 * j)) = .data v ∧
    ∀ i, i < 4 → byteOf k i = byteOf s.key (4 * j + i) ∧
      byteOf a i = byteOf s.akey (4 * j + i) ∧ byteOf v i = byteOf s.aiv (4 * j + i) :=
  ⟨_, _, _, busRead_addr (l := .key j) hj rfl, busRead_addr (l := .akey j) hj rfl,
    busRead_addr (l := .aiv j) hj rfl,
    fun _ hi => ⟨byteOf_wordOf _ _ _ hi, byteOf_wordOf _ _ _ hi, byteOf_wordOf _ _ _ hi⟩⟩

/-- The bytes of a word made of the buffer bytes from `base + n` up, R55. -/
theorem byteOf_lanes_add (f : Nat → Byte) (base n : Nat) {i : Nat} (hi : i < 4) :
    byteOf (lanes f (base + n)) i = f (base + (n + i)) := by
  rw [byteOf_lanes _ _ _ hi, Nat.add_assoc]

/-- Settles O59: `busRead_addr` at each location, with the words of `busRead_halves` and
`busRead_wordOf` and the bytes of `busRead_byteRegisters` and `byteOf_lanes_add`. -/
theorem readableAddressesShowTheirElements : Obligations.ReadableAddressesShowTheirElements := by
  intro s
  obtain ⟨hresLo, hresHi⟩ := busRead_halves (s := s) (lo := .resultLo) (hi := .resultHi)
    trivial trivial rfl rfl
  obtain ⟨hargLo, hargHi⟩ := busRead_halves (s := s) (lo := .ptArgLo) (hi := .ptArgHi)
    trivial trivial rfl rfl
  obtain ⟨hbitsLo, hbitsHi⟩ := busRead_halves (s := s) (lo := .ptBbitsLo) (hi := .ptBbitsHi)
    trivial trivial rfl rfl
  refine ⟨busRead_addr (l := .err) trivial rfl, hresLo, hresHi,
    busRead_addr (l := .einfo0) trivial rfl, busRead_addr (l := .einfo1) trivial rfl,
    busRead_addr (l := .einfo2) trivial rfl, busRead_addr (l := .einfo3) trivial rfl,
    busRead_addr (l := .einfo4) trivial rfl, busRead_addr (l := .ilen) trivial rfl,
    busRead_addr (l := .olen) trivial rfl, busRead_addr (l := .ptLength) trivial rfl,
    busRead_addr (l := .ptSprefix) trivial rfl, hargLo, hargHi,
    busRead_addr (l := .ptBcount) trivial rfl, busRead_addr (l := .ptBbytes) trivial rfl,
    hbitsLo, hbitsHi, busRead_addr (l := .ptNalloc) trivial rfl,
    fun j hj => busRead_byteRegisters s hj, fun k hk => ?_, fun j hj => ?_, fun j hj => ?_⟩
  · exact ⟨busRead_wordOf (l := .mpBase k) hk rfl, busRead_wordOf (l := .mpExp k) hk rfl,
      busRead_wordOf (l := .mpMod k) hk rfl, busRead_wordOf (l := .mpRes k) hk rfl,
      busRead_wordOf (l := .esk k) hk rfl⟩
  · exact ⟨_, busRead_addr (l := .ibuf j) hj rfl, fun i hi => byteOf_lanes_add _ ibufBase _ hi⟩
  · exact ⟨_, busRead_addr (l := .obuf j) hj rfl, fun i hi => byteOf_lanes_add _ obufBase _ hi⟩

/-! ### The stream ports, R66 R67 -/

theorem perform_srcSupply (s : State) (bytes : List Byte) :
    perform (.srcSupply bytes) s = .next { s with src := bytes } := rfl

theorem perform_snkTake (s : State) :
    perform .snkTake s = .next (State.respond { s with snk := [] } (.taken s.snk)) := rfl

/-- Settles O22: the two actions, after each is taken out of the list. -/
theorem streamPortsSupplyAndTake : Obligations.StreamPortsSupplyAndTake := by
  refine fun s bytes rest => ⟨fun hp => ?_, fun hp => ?_⟩
  · rw [step_pending hp, perform_srcSupply, State.popAction]
  · rw [step_pending hp, perform_snkTake, State.popAction]
    rfl

end Sys2Proof.Machine
end

/-! # Proofs of the encoding family (30_encoding.md)

What decoding answers in the order of R87, that encoding and decoding are inverse to each other, the
rows of the opcode table, and what the illegal words and the pseudo-commands of R89 do. -/

section
namespace Sys2Proof

/-! ### The fields of a command word, R81 -/

/-- The field `op`, as a number. -/
theorem toNat_opField (w : Word) : (w.extractLsb' 0 8).toNat = w.toNat % 256 := by
  rw [BitVec.extractLsb'_toNat, Nat.shiftRight_zero]

/-- Bits 31:9 are 0 exactly when nothing is left above them. -/
theorem reservedField_eq_zero_iff (w : Word) : w.extractLsb' 9 23 = 0 ↔ w.toNat / 512 = 0 := by
  have hw := w.isLt
  rw [← BitVec.toNat_inj, BitVec.extractLsb'_toNat, Nat.shiftRight_eq_div_pow]
  change w.toNat / 512 % 8388608 = 0 ↔ _
  omega

/-- The field `g`, as a number. -/
theorem toNat_gField (w : Word) : (w.getLsbD 8).toNat = w.toNat / 256 % 2 := by
  rw [← BitVec.testBit_toNat, Nat.toNat_testBit]

theorem gField_iff (w : Word) : w.getLsbD 8 = true ↔ w.toNat / 256 % 2 = 1 := by
  rw [← Bool.toNat_eq_one, toNat_gField]

/-! ### Commands, their opcodes and their words, R82 R84 -/

/-- The thirteen opcodes of R84, as numbers. -/
def opcodeValues : List Nat :=
  [0x01, 0x02, 0x10, 0x11, 0x20, 0x21, 0x30, 0x31, 0x32, 0x33, 0x34, 0x35, 0x36]

/-- The fourteen commands of R87: every row of R84, and ENCRYPT with both values of `g`. -/
def allCommands : List Instr :=
  [.modpow, .enckey, .aescbc, .dblenc, .keygen, .encrypt false, .encrypt true, .ptinit, .ptalloc,
    .pttest, .ptset, .pttas, .ptdump, .ptload]

/-- Bit 8 of a command's word, R81. -/
def Instr.generate : Instr → Bool
  | .encrypt g => g
  | _ => false

theorem mem_allCommands (i : Instr) : i ∈ allCommands := by
  cases i
  case encrypt g => cases g <;> decide
  all_goals decide

/-- A command's word is its two fields, R82. -/
theorem toNat_encode (i : Instr) : (encode i).toNat = i.opcode.toNat + 256 * i.generate.toNat := by
  cases i
  case encrypt g => cases g <;> rfl
  all_goals rfl

theorem commandOf_eq_none_iff (op : Byte) (g : Bool) :
    commandOf op g = none ↔ op.toNat ∉ opcodeValues := by
  unfold commandOf opcodeValues
  split <;> simp_all

/-- The command of an opcode has that opcode, and only ENCRYPT takes the bit `g`. -/
theorem commandOf_eq_some {op : Byte} {g : Bool} {i : Instr} (h : commandOf op g = some i) :
    i.opcode.toNat = op.toNat ∧ i.generate = (op == 0x21 && g) := by
  have hbeq : (op == 0x21) = (op.toNat == 0x21) := by
    rw [Bool.eq_iff_iff, beq_iff_eq, beq_iff_eq, ← BitVec.toNat_inj]; rfl
  unfold commandOf at h
  split at h
  all_goals simp only [Option.some.injEq, reduceCtorEq] at h
  all_goals
    rename_i hop
    subst h
    rw [hbeq, hop]
    exact ⟨rfl, rfl⟩

/-! ### What decoding answers, R87 -/

theorem decode_of_reservedBits {w : Word} (h : w.toNat / 512 ≠ 0) :
    decode w = .error .reservedBits :=
  if_pos fun h0 => h ((reservedField_eq_zero_iff w).mp h0)

theorem decode_of_unknownOpcode {w : Word} (h0 : w.toNat / 512 = 0)
    (hop : w.toNat % 256 ∉ opcodeValues) : decode w = .error .unknownOpcode := by
  have hnone : commandOf (w.extractLsb' 0 8) (w.getLsbD 8) = none := by
    rwa [commandOf_eq_none_iff, toNat_opField]
  unfold decode
  simp only [(reservedField_eq_zero_iff w).mpr h0, hnone, ne_eq, not_true_eq_false, if_false]

/-- A word with a known opcode is its command, unless bit 8 is a stray `g`. -/
theorem decode_of_knownOpcode {w : Word} (h0 : w.toNat / 512 = 0)
    (hop : w.toNat % 256 ∈ opcodeValues) : ∃ i : Instr,
      i.opcode.toNat = w.toNat % 256 ∧
      i.generate.toNat = (if w.toNat % 256 = 0x21 then w.toNat / 256 % 2 else 0) ∧
      decode w = if w.toNat % 256 ≠ 0x21 ∧ w.toNat / 256 % 2 = 1 then .error .strayGenerate
        else .ok i := by
  have hsome : commandOf (w.extractLsb' 0 8) (w.getLsbD 8) ≠ none := by
    rwa [ne_eq, commandOf_eq_none_iff, toNat_opField, not_not]
  obtain ⟨i, hi⟩ := Option.ne_none_iff_exists'.mp hsome
  obtain ⟨hopcode, hgen⟩ := commandOf_eq_some hi
  have hop21 : w.extractLsb' 0 8 = 0x21 ↔ w.toNat % 256 = 0x21 := by
    rw [← BitVec.toNat_inj, toNat_opField]; rfl
  refine ⟨i, by rw [hopcode, toNat_opField], ?_, ?_⟩
  · rw [hgen, ← toNat_gField]
    by_cases h : w.toNat % 256 = 0x21
    · rw [if_pos h, hop21.mpr h]; rfl
    · rw [if_neg h, beq_false_of_ne fun he => h (hop21.mp he)]; rfl
  · unfold decode
    simp only [(reservedField_eq_zero_iff w).mpr h0, hi, ne_eq, not_true_eq_false, if_false]
    exact if_congr (and_congr (not_congr hop21) (gField_iff w)) rfl rfl

/-! ### Encoding and decoding are inverse to each other -/

theorem decode_encode (i : Instr) : decode (encode i) = .ok i := by
  cases i
  case encrypt g => cases g <;> rfl
  all_goals rfl

/-- A word that decodes is made of the two fields of its command, and of nothing else. -/
theorem toNat_of_decode {w : Word} {i : Instr} (h : decode w = .ok i) :
    w.toNat = i.opcode.toNat + 256 * i.generate.toNat := by
  by_cases h0 : w.toNat / 512 = 0
  swap
  · rw [decode_of_reservedBits h0] at h; cases h
  by_cases hop : w.toNat % 256 ∈ opcodeValues
  swap
  · rw [decode_of_unknownOpcode h0 hop] at h; cases h
  obtain ⟨j, hopcode, hgen, hdecode⟩ := decode_of_knownOpcode h0 hop
  rw [hdecode] at h
  split_ifs at h with hstray
  obtain rfl : j = i := Except.ok.inj h
  split_ifs at hgen <;> omega

theorem encode_of_decode {w : Word} {i : Instr} (h : decode w = .ok i) : encode i = w :=
  BitVec.eq_of_toNat_eq ((toNat_encode i).trans (toNat_of_decode h).symm)

theorem decode_eq_ok_iff {w : Word} {i : Instr} : decode w = .ok i ↔ encode i = w :=
  ⟨encode_of_decode, fun h => h ▸ decode_encode i⟩

/-- The legal words are the words of the fourteen commands, R87. -/
theorem exists_decode_iff (w : Word) :
    (∃ i, decode w = .ok i) ↔ w ∈ allCommands.map encode := by
  simp only [decode_eq_ok_iff, List.mem_map, mem_allCommands, true_and]

/-- Settles O2. -/
theorem decodeOfEncodeIsTheCommand : Obligations.DecodeOfEncodeIsTheCommand :=
  fun i _ => decode_encode i

/-- Settles O3: the word and the command's word have the same two fields (`toNat_of_decode`). -/
theorem encodeOfDecodeIsTheWord : Obligations.EncodeOfDecodeIsTheWord :=
  fun _ _ => encode_of_decode

/-- Settles O1: the fourteen words are the words of the fourteen commands. -/
theorem legalWordsDecodeToTheirCommands : Obligations.LegalWordsDecodeToTheirCommands :=
  ⟨decode_encode .modpow, decode_encode .enckey, decode_encode .aescbc, decode_encode .dblenc,
    decode_encode .keygen, decode_encode (.encrypt false), decode_encode (.encrypt true),
    decode_encode .ptinit, decode_encode .ptalloc, decode_encode .pttest, decode_encode .ptset,
    decode_encode .pttas, decode_encode .ptdump, decode_encode .ptload⟩

/-- Settles O4: one lemma for each reason to refuse, and a word that none of them refuses decodes to
the command of its opcode, with its bit 8 (`decode_of_knownOpcode`). -/
theorem decodingGoesInTheOrderOfTheRule : Obligations.DecodingGoesInTheOrderOfTheRule := by
  intro w op g opcodes
  refine ⟨decode_of_reservedBits, decode_of_unknownOpcode, fun h0 hop h21 hg => ?_,
    fun h0 hop hg => ?_, exists_decode_iff w⟩
  · obtain ⟨_, _, _, hdecode⟩ := decode_of_knownOpcode h0 hop
    exact hdecode.trans (if_pos ⟨h21, hg⟩)
  · obtain ⟨i, hopcode, hgen, hdecode⟩ := decode_of_knownOpcode h0 hop
    have hok : decode w = .ok i := hdecode.trans (if_neg (by omega))
    have hbit : i.generate.toNat = g := by
      change _ = w.toNat / 256 % 2
      split_ifs at hgen <;> omega
    refine ⟨i, hok, hopcode, fun h hi => ?_⟩
    rw [← Bool.toNat_eq_one, ← hbit, hi]
    rfl

/-! ### The opcode table, R82 R84 -/

/-- A row with the full mask has one word. -/
theorem matches_fullMask (name : String) (p w : Word) :
    OpcodeRow.matches ⟨name, p, 0xFFFFFFFF⟩ w = true ↔ w = p := by
  rw [OpcodeRow.matches, beq_iff_eq, show (0xFFFFFFFF : Word) = BitVec.allOnes 32 from rfl,
    BitVec.and_allOnes]

/-- The row of ENCRYPT leaves bit 8 free and so has two words, R82. -/
theorem matches_encryptMask (name : String) (w : Word) :
    OpcodeRow.matches ⟨name, 0x21, 0xFFFFFEFF⟩ w = true ↔ w = 0x21 ∨ w = 0x121 := by
  rw [OpcodeRow.matches, beq_iff_eq]
  change w &&& 0xFFFFFEFF = 0x21 ↔ _
  refine ⟨fun h => ?_, ?_⟩
  · have hsplit : w = w &&& 0xFFFFFEFF ||| w &&& BitVec.twoPow 32 8 := by
      rw [← BitVec.and_or_distrib_left, show (0xFFFFFEFF ||| BitVec.twoPow 32 8 : Word) =
        BitVec.allOnes 32 from rfl, BitVec.and_allOnes]
    rw [h, BitVec.and_twoPow] at hsplit
    rw [hsplit]
    split_ifs
    exacts [.inr rfl, .inl rfl]
  · rintro (rfl | rfl) <;> decide

/-- Two rows that share a word agree on the bits both fix. -/
theorem patterns_agree_of_matches {p q : OpcodeRow} {w : Word} (hp : p.matches w = true)
    (hq : q.matches w = true) : p.pattern &&& q.mask = q.pattern &&& p.mask := by
  rw [OpcodeRow.matches, beq_iff_eq] at hp hq
  rw [← hp, ← hq, BitVec.and_assoc, BitVec.and_assoc, BitVec.and_comm p.mask]

/-- The words of the rows, row by row, are the words of the commands. -/
theorem exists_row_iff (w : Word) :
    (∃ r ∈ opcodeTable, r.matches w = true) ↔ w ∈ allCommands.map encode := by
  simp only [opcodeTable, List.exists_mem_cons_iff, List.not_mem_nil, false_and, exists_false,
    matches_fullMask, matches_encryptMask, or_assoc]
  simp only [allCommands, List.map, List.mem_cons, List.not_mem_nil]
  rfl

/-- Settles O5: both sides are the words of the fourteen commands; and any two rows differ in a bit
that both fix. -/
theorem legalWordsAreTheTableRows : Obligations.LegalWordsAreTheTableRows := by
  refine ⟨fun w => (exists_decode_iff w).trans (exists_row_iff w).symm, ?_⟩
  have hdiffer : opcodeTable.Pairwise fun p q => p.pattern &&& q.mask ≠ q.pattern &&& p.mask := by
    decide
  exact hdiffer.imp fun hne w ⟨hp, hq⟩ => hne (patterns_agree_of_matches hp hq)

end Sys2Proof

namespace Sys2Proof.Machine

/-! ### Illegal words, R85 -/

theorem runCommand_illegal {w : Word} (h : w ∉ allCommands.map encode) (s : State) :
    runCommand w s = .next (s.raise (.illcmd w)) := by
  rw [← exists_decode_iff] at h
  unfold runCommand
  cases hd : decode w with
  | ok i => exact absurd ⟨i, hd⟩ h
  | error e => rfl

/-- Settles O7: the write to `CMD` is the `raise` of `ILLCMD`, whose information is the word alone,
R202. -/
theorem illegalWordChangesOnlyTheReport : Obligations.IllegalWordChangesOnlyTheReport := by
  intro s w rest hp hw
  rw [step_pending hp, perform_memWrite_cmd, runCommand_illegal hw, State.raise_illcmd]
  rfl

/-! ### Writing a register word by word, R56 R59 -/

/-- A register with its words from 0 up to `n` written one after the other. -/
def setWords {w : Nat} (x : BitVec w) (f : Nat → Word) : Nat → BitVec w
  | 0 => x
  | n + 1 => setWord (setWords x f n) n (f n)

theorem wordOf_setWords {w : Nat} (x : BitVec w) (f : Nat → Word) {n : Nat} (hn : 32 * n ≤ w)
    {k : Nat} (hk : k < n) : wordOf (setWords x f n) k = f k := by
  induction n with
  | zero => omega
  | succ n ih =>
    rw [setWords]
    by_cases hkn : k = n
    · rw [hkn, wordOf_setWord_same _ _ _ (by omega)]
    · rw [wordOf_setWord_ne _ _ _ _ hkn, ih (by omega) (by omega)]

/-- Two registers with the same words are equal. -/
theorem register_ext_words {w : Nat} {x y : BitVec w}
    (h : ∀ k, 32 * k < w → wordOf x k = wordOf y k) : x = y := by
  refine BitVec.eq_of_getLsbD_eq fun i hi => ?_
  have hword := congrArg (fun v : Word => v.getLsbD (i % 32)) (h (i / 32) (by omega))
  simpa [wordOf, BitVec.getLsbD_extractLsb', Nat.mod_lt, Nat.div_add_mod] using hword

/-- Writing every word of a register leaves nothing of what it held. -/
theorem setWords_wordOf {w n : Nat} (x y : BitVec w) (hn : 32 * n = w) :
    setWords x (wordOf y) n = y :=
  register_ext_words fun k hk => wordOf_setWords x (wordOf y) hn.le (by omega)

/-- Four bytes of a sequence are a word of the register that holds the sequence, R55 R58. -/
theorem lanes_getD_eq_wordOf (k : List Byte) {j : Nat} (hj : j < 4) :
    lanes (fun i => k.getD i 0) (4 * j) = wordOf (ofBytes16 k) j :=
  word_ext_bytes fun i hi => by
    rw [byteOf_lanes _ _ _ hi, byteOf_wordOf _ _ _ hi, byteOf_ofBytes16 _ _ (by omega)]

/-! ### The pseudo-commands setkey and ptarg, R89 -/

theorem setkey_eq {k : List Byte} (h : k.length = 16) :
    Script.setkey k =
      [0, 1, 2, 3].map fun j => Script.wr (Loc.key j).addr (wordOf (ofBytes16 k) j) := by
  rw [Script.setkey, Script.wrbytes, h]
  refine List.map_congr_left fun j hj => ?_
  rw [lanes_getD_eq_wordOf k (List.mem_range.mp hj)]
  rfl

theorem run_of_step {s t : State} (h : step s = .next t) (n : Nat) :
    Host.Core.run Sys2Proof.core (n + 1) s = Host.Core.run Sys2Proof.core n t := by
  have hstep : Sys2Proof.core.step s = .next t := h
  simp only [Host.Core.run, hstep]

/-- A host action that stores a word at a writable location, R57. -/
theorem step_store {s t : State} {l : Loc} {v : Word} {rest : List HostAction}
    (hp : s.pending = Script.wr l.addr v :: rest) (hl : l.Ok s.cfg) (hc : l ≠ .cmd)
    (hw : (s.popAction rest).writeLoc v l = some t) : step s = .next (t.respond .accepted) :=
  (step_pending hp).trans (busWrite_writeLoc (mapAddr_addr hl) hc hw)

theorem step_store_key {s : State} {j : Nat} {v : Word} {rest : List HostAction}
    (hp : s.pending = Script.wr (Loc.key j).addr v :: rest) (hj : j < 4) :
    step s = .next { s with
      key := setWord s.key j v, pending := rest, trace := .accepted :: s.trace } :=
  step_store (l := .key j) hp hj nofun rfl

theorem step_store_ptArgLo {s : State} {v : Word} {rest : List HostAction}
    (hp : s.pending = Script.wr Loc.ptArgLo.addr v :: rest) :
    step s = .next { s with
      ptArg := setWord s.ptArg 0 v, pending := rest, trace := .accepted :: s.trace } :=
  step_store (l := .ptArgLo) hp trivial nofun rfl

theorem step_store_ptArgHi {s : State} {v : Word} {rest : List HostAction}
    (hp : s.pending = Script.wr Loc.ptArgHi.addr v :: rest) :
    step s = .next { s with
      ptArg := setWord s.ptArg 1 v, pending := rest, trace := .accepted :: s.trace } :=
  step_store (l := .ptArgHi) hp trivial nofun rfl

/-- The four writes of `KEY`'s words, whatever the words are. -/
theorem run_key_words {s : State} (f : Nat → Word)
    (hp : s.pending = [0, 1, 2, 3].map fun j => Script.wr (Loc.key j).addr (f j)) :
    ∃ r, Host.Core.run Sys2Proof.core 4 s =
      .next { s with key := setWords s.key f 4, pending := [], trace := r } := by
  rw [run_of_step (step_store_key hp (by decide)), run_of_step (step_store_key rfl (by decide)),
    run_of_step (step_store_key rfl (by decide)), run_of_step (step_store_key rfl (by decide))]
  exact ⟨_, rfl⟩

/-- The two writes of `PT_ARG`'s words, whatever the words are. -/
theorem run_ptArg_words {s : State} (f : Nat → Word)
    (hp : s.pending = [Script.wr Loc.ptArgLo.addr (f 0), Script.wr Loc.ptArgHi.addr (f 1)]) :
    ∃ r, Host.Core.run Sys2Proof.core 2 s =
      .next { s with ptArg := setWords s.ptArg f 2, pending := [], trace := r } := by
  rw [run_of_step (step_store_ptArgLo hp), run_of_step (step_store_ptArgHi rfl)]
  exact ⟨_, rfl⟩

/-- Settles O23: the writes store the words of the operand one by one (`run_key_words`,
`run_ptArg_words`), and together they are the whole register (`setWords_wordOf`). -/
theorem setkeyAndPtargPresentTheirOperands : Obligations.SetkeyAndPtargPresentTheirOperands := by
  refine ⟨fun s k hk hp => ?_, fun s v hp => ?_⟩
  · obtain ⟨r, hrun⟩ := run_key_words (wordOf (ofBytes16 k)) (hp.trans (setkey_eq hk))
    have hkey : setWords s.key (wordOf (ofBytes16 k)) 4 = ofBytes16 k := setWords_wordOf _ _ rfl
    exact ⟨_, hrun, (congrArg bytes16 hkey).trans (bytes16_ofBytes16 k hk), rfl⟩
  · obtain ⟨r, hrun⟩ := run_ptArg_words (wordOf v) hp
    have harg : setWords s.ptArg (wordOf v) 2 = v := setWords_wordOf _ _ rfl
    exact ⟨_, hrun, by rw [harg]⟩

/-! ### ENCRYPT and the key it takes, R89 R152 -/

/-- The LEN check passes an input that fits, R135. -/
theorem State.lenCheck_eq_none {s : State} {L : Nat → Nat} (hi : s.ilen.toNat ≤ s.cfg.ibufCap)
    (ho : L s.ilen.toNat ≤ s.cfg.obufCap) : s.lenCheck L = none := by
  rcases s.lenCheck_cases L with ⟨hlong, _⟩ | ⟨_, hlarge, _⟩ | ⟨_, _, hnone⟩
  · exact absurd hlong (by omega)
  · exact absurd hlarge (by omega)
  · exact hnone

/-- ENCRYPT of an input that fits: the two halves of the request under the key, which `g` draws. -/
theorem exec_encrypt_of_fits (g : Bool) {s : State} (hi : s.ilen.toNat ≤ s.cfg.ibufCap)
    (ho : dlen s.ilen.toNat ≤ s.cfg.obufCap) :
    exec (.encrypt g) s =
      .next ((if g then s.drawKey else s).encryptInput s.ilen.toNat).encodeKey.succeed := by
  rw [exec, execEncrypt, State.lenCheck_eq_none hi ho]

/-- The success ending of ENCRYPT overwrites the report an earlier command ended with, R203. -/
theorem State.encrypt_after_succeed (s : State) (n : Nat) :
    (s.succeed.encryptInput n).encodeKey.succeed = (s.encryptInput n).encodeKey.succeed := rfl

/-- Settles O38: with `k` the key that the draws give, all three runs encrypt the same input under
`k`, and the report KEYGEN ended with is overwritten (`State.encrypt_after_succeed`). -/
theorem generatingEncryptIsKeygenThenEncrypt :
    Obligations.GeneratingEncryptIsKeygenThenEncrypt := by
  intro s hi ho
  obtain ⟨k, _, hdraw⟩ := s.drawKey_cases
  refine ⟨s.drawKey.succeed, (s.drawKey.encryptInput s.ilen.toNat).encodeKey.succeed, rfl, ?_,
    exec_encrypt_of_fits true hi ho, ?_⟩
  all_goals rw [hdraw]
  · rw [← State.encrypt_after_succeed]
    exact exec_encrypt_of_fits false (s := State.succeed _) hi ho
  · exact exec_encrypt_of_fits false (s := { s with key := k, draws := s.draws + 16 }) hi ho

end Sys2Proof.Machine
end

/-! # Proofs of the modexp family (40_modexp.md)

The loop invariant of square-and-multiply, the two commands of the unit, and the digits of
`ESKHEX`. -/

section
namespace Sys2Proof.Machine

/-! ### Square-and-multiply, R100 R101 -/

/-- One turn of the loop doubles the exponent reached and adds the bit consumed. -/
theorem squareMultiply_modEq {b m acc k : Nat} (bit : Bool) (h : acc ≡ b ^ k [MOD m]) :
    squareMultiply b m acc bit ≡ b ^ (2 * k + bit.toNat) [MOD m] := by
  have hsquare : acc * acc % m ≡ b ^ (2 * k) [MOD m] := by
    rw [Nat.two_mul, Nat.pow_add]
    exact (Nat.mod_modEq _ _).trans (h.mul h)
  cases bit with
  | false => exact hsquare
  | true => exact (Nat.mod_modEq _ _).trans (hsquare.mul_right b)

/-- The bits of an exponent above 0: those of its half, and below them its parity. -/
theorem bitsUpTo_succ (n : Nat) {t : Nat} (ht : t ≠ 0) :
    bitsUpTo (n + 1) t = (t % 2 == 1) :: bitsUpTo n (t / 2) := if_neg ht

theorem bitsUpTo_zero (n : Nat) : bitsUpTo n 0 = [] := by
  cases n <;> rfl

/-- The loop invariant of R101, by induction on the bits: the bits of `t / 2` are consumed before
the parity of `t`. -/
theorem foldl_bitsUpTo_modEq (b m : Nat) {n t : Nat} (ht : t < 2 ^ n) :
    (bitsUpTo n t).reverse.foldl (squareMultiply b m) 1 ≡ b ^ t [MOD m] := by
  induction n generalizing t with
  | zero =>
    obtain rfl : t = 0 := Nat.lt_one_iff.mp ht
    rfl
  | succ n ih =>
    by_cases h0 : t = 0
    · rw [h0, bitsUpTo_zero]
      rfl
    · have hhalf := ih (Nat.div_lt_of_lt_mul (Nat.pow_succ' ▸ ht))
      have hparity : 2 * (t / 2) + (t % 2 == 1).toNat = t := by
        rcases Nat.mod_two_eq_zero_or_one t with h | h <;> simp [h] <;> omega
      have hturn := squareMultiply_modEq (t % 2 == 1) hhalf
      rw [hparity] at hturn
      rw [bitsUpTo_succ n h0, List.reverse_cons, List.foldl_append]
      exact hturn

theorem modPow_eq (b e m : Nat) : modPow b e m = b ^ e % m :=
  foldl_bitsUpTo_modEq b m Nat.lt_log2_self

theorem modPow_lt (b e : Nat) {m : Nat} (hm : 1 ≤ m) : modPow b e m < m := Nat.mod_lt _ hm

/-- Settles O24, by the loop invariant `foldl_bitsUpTo_modEq`. -/
theorem modPowIsThePowerModuloTheModulus : Obligations.ModPowIsThePowerModuloTheModulus :=
  fun b e _ hm => ⟨modPow_eq b e _, modPow_lt b e hm⟩

/-! ### MODPOW, R103 -/

theorem exec_modpow_of_ne_zero {s : State} (h : s.mpMod ≠ 0) :
    exec .modpow s = .next (State.succeed { s with
      mpRes := BitVec.ofNat 1024 (modPow s.mpBase.toNat s.mpExp.toNat s.mpMod.toNat) }) :=
  congrArg Host.Outcome.next (if_neg h)

theorem exec_modpow_of_eq_zero {s : State} (h : s.mpMod = 0) :
    exec .modpow s = .next (s.raise .modzero) :=
  congrArg Host.Outcome.next (if_pos h)

/-- Settles O25: the two cases of the modulus, the power by `modPow_eq`. -/
theorem modpowWritesThePowerOrReportsModzero :
    Obligations.ModpowWritesThePowerOrReportsModzero := by
  refine fun s => ⟨fun h => ?_, fun h => ?_⟩
  · rw [exec_modpow_of_ne_zero h, modPow_eq, State.succeed_eq]
  · rw [exec_modpow_of_eq_zero h, State.raise_modzero]

/-! ### ENCKEY, R104 R106 -/

theorem exec_enckey (s : State) : exec .enckey s = .next s.encodeKey.succeed := rfl

/-- The key encoding writes `ESK` and nothing else. -/
theorem State.encodeKey_eq (s : State) : s.encodeKey = { s with esk := s.encodeKey.esk } := rfl

/-- Settles O26: `State.encodeKey_esk_toNat` gives the value, R60 the two readings of the key. -/
theorem enckeyWritesTheEncodedKey : Obligations.EnckeyWritesTheEncodedKey := by
  intro s
  have hesk := s.encodeKey_esk_toNat
  refine ⟨s.encodeKey.succeed, exec_enckey s, ?_, beInt_reverse _, ?_, ?_⟩
  · rw [State.succeed_esk, hesk, modPow_eq, beInt_reverse, ePub]
  · rw [State.succeed_esk, hesk]
    exact modPow_lt _ _ (nModulus_pos s.cfg)
  · exact (congrArg State.succeed s.encodeKey_eq).trans (State.succeed_eq _)

/-! ### The digits of ESKHEX, R105 -/

@[simp] theorem length_hex256 (v : Wide) : (hex256 v).length = 256 := by simp [hex256]

theorem getD_hex256 (v : Wide) {i : Nat} (hi : i < 256) : (hex256 v).getD i 0 = hexByte v i := by
  simp [hex256, List.getD_eq_getElem?_getD, hi]

/-- `HEXDIGIT` spelled out, R25. -/
theorem hexDigit_eq {d : Nat} (h : d < 16) : hexDigit d =
    ([0x30, 0x31, 0x32, 0x33, 0x34, 0x35, 0x36, 0x37, 0x38, 0x39, 0x61, 0x62, 0x63, 0x64, 0x65,
      0x66] : List Byte).getD d 0 := by
  interval_cases d <;> rfl

/-- What a reader of hexadecimal digits does with the next digit. -/
def readHexDigit (n : Nat) (h : Byte) : Nat :=
  16 * n + if h.toNat < 0x40 then h.toNat - 0x30 else h.toNat - 0x57

theorem readHexDigit_hexDigit (n : Nat) {d : Nat} (h : d < 16) :
    readHexDigit n (hexDigit d) = 16 * n + d := by
  interval_cases d <;> rfl

/-- The first `k` digits read as the part of the value above the digits still to come. -/
theorem foldl_readHexDigit (v : Wide) {k : Nat} (hk : k ≤ 256) :
    ((List.range k).map (hexByte v)).foldl readHexDigit 0 = v.toNat / 16 ^ (256 - k) := by
  induction k with
  | zero =>
    have hv : v.toNat < 16 ^ 256 := Nat.lt_of_lt_of_eq v.isLt (Nat.pow_mul 2 4 256)
    exact (Nat.div_eq_of_lt hv).symm
  | succ k ih =>
    have hnext : 256 - k = 255 - k + 1 := by omega
    rw [List.range_succ, List.map_append, List.foldl_append, ih (by omega)]
    calc readHexDigit (v.toNat / 16 ^ (256 - k)) (hexByte v k)
      _ = 16 * (v.toNat / 16 ^ (256 - k)) + v.toNat / 16 ^ (255 - k) % 16 :=
        readHexDigit_hexDigit _ (Nat.mod_lt _ (by decide))
      _ = 16 * (v.toNat / 16 ^ (255 - k) / 16) + v.toNat / 16 ^ (255 - k) % 16 := by
        rw [hnext, Nat.pow_succ, Nat.div_div_eq_div_mul]
      _ = v.toNat / 16 ^ (256 - (k + 1)) := by
        rw [Nat.div_add_mod, Nat.add_comm k 1, ← Nat.sub_sub]

/-- Reading `hex256` back loses nothing. -/
theorem foldl_hex256 (v : Wide) : (hex256 v).foldl readHexDigit 0 = v.toNat := by
  rw [hex256, foldl_readHexDigit v (Nat.le_refl 256), Nat.sub_self, Nat.pow_zero, Nat.div_one]

/-- The words of `ESKHEX` and their bytes, R55 R105. -/
theorem busRead_eskhex (s : State) {j : Nat} (hj : j < 64) :
    ∃ w, busRead s (BitVec.ofNat 32 (0x400 + 4 * j)) = .data w ∧
      ∀ i, i < 4 → byteOf w i = (hex256 s.esk).getD (4 * j + i) 0 :=
  ⟨_, busRead_addr (l := .eskhex j) hj rfl, fun i hi => by
    rw [byteOf_lanes _ _ _ hi, getD_hex256 _ (by omega)]⟩

/-- Settles O21: the port by `busRead_eskhex`, the digits by `hexDigit_eq`, the value read back by
`foldl_hex256`. -/
theorem eskhexSpellsEsk : Obligations.EskhexSpellsEsk := by
  refine ⟨fun s j hj => busRead_eskhex s hj, fun v => ⟨length_hex256 v, fun i hi => ?_,
    foldl_hex256 v⟩⟩
  rw [getD_hex256 v hi, hexByte, hexDigit_eq (Nat.mod_lt _ (by decide))]

end Sys2Proof.Machine
end

/-! # Proofs of the symmetric family (41_symmetric.md)

The S-box and AES-128 byte by byte, the lengths of the encodings, the chain of CBC, base64 with its
decoder, and the two commands of the unit. -/

section
namespace Sys2Proof.Machine

/-! ### The field and the S-box, R122 R123 -/

/-- Doubling as R122 writes it on bits: the bit shifted out puts hex 1b in. -/
theorem mul2_eq (a : Byte) :
    mul2 a = if 0x80 ≤ a.toNat then (a <<< 1) ^^^ 0x1B else a <<< 1 := by
  have hshift : BitVec.ofNat 8 (2 * a.toNat) = a <<< 1 := by
    apply BitVec.eq_of_toNat_eq
    rw [BitVec.toNat_ofNat, BitVec.toNat_shiftLeft, Nat.shiftLeft_eq, Nat.mul_comm, Nat.pow_one]
  rw [mul2, xtime, BitVec.ofNat_xor, hshift]
  rfl

/-- The 256 entries of the table, each compared with what R123 computes. -/
theorem sbox_eq_sboxByRule : ∀ a : Byte, sbox a = sboxByRule a := by decide +kernel

/-- The affine map of R123 undone. -/
def undoAffine (b : Byte) : Byte :=
  b.rotateLeft 1 ^^^ b.rotateLeft 3 ^^^ b.rotateLeft 6 ^^^ 0x05

theorem undoAffine_affine : ∀ b : Byte, undoAffine (b ^^^ b.rotateLeft 1 ^^^ b.rotateLeft 2 ^^^
    b.rotateLeft 3 ^^^ b.rotateLeft 4 ^^^ 0x63) = b := by decide +kernel

/-- The inverse out of the table: cheaper to compute than the 254th power. -/
theorem gfInv_eq (a : Byte) : gfInv a = undoAffine (sbox a) := by
  rw [sbox_eq_sboxByRule, sboxByRule]
  exact (undoAffine_affine (gfInv a)).symm

theorem gfMul_undoAffine_sbox : ∀ a : Byte, a ≠ 0 → gfMul a (undoAffine (sbox a)) = 1 := by
  decide +kernel

/-- Settles O28: the table is compared entry by entry, and the inverses are those it holds. -/
theorem sboxTableIsItsConstruction : Obligations.SboxTableIsItsConstruction := by
  intro a
  refine ⟨sbox_eq_sboxByRule a, fun ha => ?_, fun ha => ?_⟩
  · rw [gfInv_eq, gfMul_undoAffine_sbox a ha]
  · rw [gfInv_eq, ha]; rfl

/-! ### AES-128 byte by byte, R124 to R130 -/

/-- Byte `j` of word `i` of the key schedule, R129. -/
def scheduleByte (k : Bytes16) (i j : Nat) : Byte := byteOf ((keyWords k).getD i 0) j

theorem scheduleByte_key (k : Bytes16) {i j : Nat} (hi : i < 4) (hj : j < 4) :
    scheduleByte k i j = byteOf k (4 * i + j) := by
  rw [scheduleByte, keyWords_key k i hi, byteOf_wordOf _ _ _ hj]

theorem scheduleByte_of_mod_ne {k : Bytes16} {i : Nat} (h4 : 4 ≤ i) (hi : i < 44) (hm : i % 4 ≠ 0)
    (j : Nat) : scheduleByte k i j = scheduleByte k (i - 4) j ^^^ scheduleByte k (i - 1) j := by
  rw [scheduleByte, keyWords_next k i h4 hi, if_neg hm, byteOf_xor]
  rfl

/-- Every fourth word goes through the core of the schedule, R129. -/
theorem scheduleByte_of_mod_eq {k : Bytes16} {i j : Nat} (h4 : 4 ≤ i) (hi : i < 44)
    (hm : i % 4 = 0) (hj : j < 4) :
    scheduleByte k i j = scheduleByte k (i - 4) j ^^^
      if j = 0 then sbox (scheduleByte k (i - 1) 1) ^^^ rcon (i / 4)
      else sbox (scheduleByte k (i - 1) ((j + 1) % 4)) := by
  rw [scheduleByte, keyWords_next k i h4 hi, if_pos hm, byteOf_xor, byteOf_scheduleCore _ _ _ hj]
  rfl

theorem byteOf_aesState_zero (k x : Bytes16) {i : Nat} (hi : i < 16) :
    byteOf (aesState k x 0) i = byteOf x i ^^^ scheduleByte k (i / 4) (i % 4) := by
  rw [aesState, byteOf_addRoundKey, byteOf_roundKey _ _ _ hi, Nat.mul_zero, Nat.zero_add]
  rfl

/-- The last round has no MixColumns, R130. -/
theorem byteOf_aes128 (k x : Bytes16) {i : Nat} (hi : i < 16) :
    byteOf (aes128 k x) i = sbox (byteOf (aesState k x 9) (i % 4 + 4 * ((i / 4 + i % 4) % 4))) ^^^
      scheduleByte k (40 + i / 4) (i % 4) := by
  rw [aes128_eq, byteOf_addRoundKey, byteOf_shiftRows _ _ hi, byteOf_subBytes _ _ (by omega),
    byteOf_roundKey _ _ _ hi]
  rfl

/-- Settles O60: the bytes are those of the schedule (`scheduleByte`) and of the states after the
rounds (`aesState`). -/
theorem aes128MeetsItsByteEquations : Obligations.Aes128MeetsItsByteEquations := by
  refine ⟨fun a => ⟨mul2_eq a, rfl⟩, fun k x =>
    ⟨scheduleByte k, fun r => byteOf (aesState k x r), fun _ _ => scheduleByte_key k,
      fun _ _ h4 hi hm _ => scheduleByte_of_mod_ne h4 hi hm _, fun i h4 hi hm => ?schedule,
      fun _ => byteOf_aesState_zero k x, fun r c h1 _ hc => ?round, fun _ => byteOf_aes128 k x⟩⟩
  case schedule =>
    have core := fun j (hj : j < 4) => scheduleByte_of_mod_eq (k := k) h4 hi hm hj
    exact ⟨(core 0 (by decide)).trans (BitVec.xor_assoc ..).symm, core 1 (by decide),
      core 2 (by decide), core 3 (by decide)⟩
  case round =>
    obtain ⟨r, rfl⟩ : ∃ m, r = m + 1 := ⟨r - 1, by omega⟩
    have row := fun q => byteOf_aesState_succ k x r c q hc
    exact ⟨row 0 (by decide), row 1 (by decide), row 2 (by decide), row 3 (by decide)⟩

/-! ### Padding and the lengths, R120 R133 R134 R135 -/

@[simp] theorem length_pad (d : List Byte) : (pad d).length = 16 * (d.length / 16 + 1) := by
  rw [pad, List.length_append, List.length_replicate]
  omega

/-- Settles O27. -/
theorem padFillsUpToABlock : Obligations.PadFillsUpToABlock :=
  fun d => ⟨16 - d.length % 16, by omega, by omega, rfl, rfl, length_pad d⟩

@[simp] theorem length_cbcEncrypt (k v : Bytes16) (p : List Byte) :
    (cbcEncrypt k v p).length = 16 * (p.length / 16) := by
  rw [cbcEncrypt, length_flatMap_bytes16, length_cbcChain, length_toBlocks]

@[simp] theorem length_aesCbcEncrypt (d : List Byte) (k v : Bytes16) :
    (aesCbcEncrypt d k v).length = clen d.length := by
  rw [aesCbcEncrypt, length_cbcEncrypt, length_pad, Nat.mul_div_cancel_left _ (by decide), clen]

/-- Each turn of base64 takes three bytes and gives four characters. -/
@[simp] theorem length_b64 (d : List Byte) : (b64 d).length = blen d.length := by
  induction d using b64.induct with
  | case1 => rfl
  | case2 a => simp [b64, blen]
  | case3 a b => simp [b64, blen]
  | case4 a b c rest ih =>
    simp only [b64, List.length_append, length_b64Quad, ih, List.length_cons, blen]
    omega

@[simp] theorem length_doubleEncrypt (p : List Byte) (k : Bytes16) :
    (doubleEncrypt p k).length = dlen p.length := by
  simp [doubleEncrypt, dlen]

/-- Settles O30. -/
theorem outputLengthsAreTheFormulas : Obligations.OutputLengthsAreTheFormulas :=
  ⟨length_aesCbcEncrypt, length_b64, length_doubleEncrypt⟩

/-! ### The chain of CBC, R132 -/

/-- Block `i` of a sequence of blocks written out as bytes. -/
theorem block_flatMap_bytes16 (l : List Bytes16) {i : Nat} (hi : i < l.length) :
    ((l.flatMap bytes16).drop (16 * i)).take 16 = bytes16 l[i] := by
  induction l generalizing i with
  | nil => exact absurd hi (Nat.not_lt_zero i)
  | cons x xs ih =>
    rw [List.flatMap_cons]
    cases i with
    | zero => exact List.take_left' (length_bytes16 x)
    | succ j =>
      rw [show 16 * (j + 1) = (bytes16 x).length + 16 * j by rw [length_bytes16]; omega,
        List.drop_length_add_append]
      exact ih (Nat.lt_of_succ_lt_succ hi)

/-- Element `i` of the chain: block `i` is xored with the element before it, R132. -/
theorem getElem_cbcChain (k c : Bytes16) (bs : List Bytes16) {i : Nat}
    (hi : i < (cbcChain k c bs).length) :
    (cbcChain k c bs)[i] = aes128 k (bs[i]'(length_cbcChain k bs c ▸ hi) ^^^
      if i = 0 then c else (cbcChain k c bs)[i - 1]) := by
  induction bs generalizing c i with
  | nil => exact absurd hi (Nat.not_lt_zero i)
  | cons b bs ih =>
    cases i with
    | zero => rfl
    | succ j =>
      have hj : j < (cbcChain k (aes128 k (b ^^^ c)) bs).length := Nat.lt_of_succ_lt_succ hi
      simp only [cbcChain, List.getElem_cons_succ]
      rw [ih _ hj]
      cases j <;> rfl

/-- Settles O29: the blocks of the output are the elements of the chain
(`block_flatMap_bytes16`), and those of the input the blocks it goes over. -/
theorem cbcChainsItsBlocks : Obligations.CbcChainsItsBlocks := by
  intro k v p n hlen _
  have hblocks : (toBlocks p).length = n := by
    rw [length_toBlocks, hlen, Nat.mul_div_cancel_left _ (by decide)]
  have hchain : (cbcChain k v (toBlocks p)).length = n := by rw [length_cbcChain, hblocks]
  have hblock : ∀ i (hi : i < n), ((cbcEncrypt k v p).drop (16 * i)).take 16 =
      bytes16 ((cbcChain k v (toBlocks p))[i]'(hchain ▸ hi)) :=
    fun i hi => block_flatMap_bytes16 _ (hchain ▸ hi)
  refine ⟨by rw [length_cbcEncrypt, hlen, Nat.mul_div_cancel_left _ (by decide)], fun i hi => ?_⟩
  have hinput : (toBlocks p)[i]'(hblocks ▸ hi) = ofBytes16 ((p.drop (16 * i)).take 16) := by
    simp only [toBlocks, List.getElem_map, List.getElem_range]
  rw [hblock i hi, getElem_cbcChain, hinput]
  by_cases h0 : i = 0
  · rw [if_pos h0, if_pos h0]
  · rw [if_neg h0, if_neg h0, hblock (i - 1) (by omega), ofBytes16_bytes16]

/-! ### base64, R134 -/

/-- The first four characters, of the first one to three bytes. -/
theorem take_b64 {d : List Byte} (h : d ≠ []) :
    let v := beInt (d.take 3 ++ List.replicate (3 - (d.take 3).length) 0)
    (b64 d).take 4 =
      [b64Char (v / 2 ^ 18 % 64), b64Char (v / 2 ^ 12 % 64),
        if (d.take 3).length = 1 then 0x3d else b64Char (v / 2 ^ 6 % 64),
        if (d.take 3).length < 3 then 0x3d else b64Char (v % 64)] := by
  match d, h with
  | [a], _ => rfl
  | [a, b], _ => rfl
  | a :: b :: c :: rest, _ =>
    have hg : (a :: b :: c :: rest).take 3 = [a, b, c] := rfl
    simp only [hg]
    exact List.take_left' (length_b64Quad _)

/-- The text from the fifth character on is that of the bytes from the fourth on. -/
theorem drop_four_b64 : ∀ d : List Byte, (b64 d).drop 4 = b64 (d.drop 3)
  | [] | [_] | [_, _] => rfl
  | _ :: _ :: _ :: _ => List.drop_left' (length_b64Quad _)

/-- Group `i` starts at byte `3i` and at character `4i`. -/
theorem drop_b64 (d : List Byte) (i : Nat) : (b64 d).drop (4 * i) = b64 (d.drop (3 * i)) := by
  induction i with
  | zero => rfl
  | succ i ih =>
    rw [Nat.mul_succ, ← List.drop_drop, ih, drop_four_b64, List.drop_drop, Nat.mul_succ]

/-- Up to three bytes, filled up with 0 bytes, are a 24-bit number. -/
theorem beInt_filled_lt : ∀ d : List Byte,
    beInt (d.take 3 ++ List.replicate (3 - (d.take 3).length) 0) < 2 ^ 24
  | [] => beInt_three_lt 0 0 0
  | [a] => beInt_three_lt a 0 0
  | [a, b] => beInt_three_lt a b 0
  | a :: b :: c :: _ => beInt_three_lt a b c

theorem b64Char_mem {n : Nat} (h : n < 64) : b64Char n ∈ base64Alphabet := by
  rw [b64Char_eq n h, List.getD_eq_getElem _ _ (by exact h)]
  exact List.getElem_mem _

theorem mem_b64Quad {v : Nat} {c : Byte} (h : c ∈ b64Quad v) : c ∈ base64Alphabet := by
  simp only [b64Quad, List.mem_cons, List.not_mem_nil, or_false] at h
  rcases h with rfl | rfl | rfl | rfl <;> exact b64Char_mem (Nat.mod_lt _ (by decide))

theorem mem_b64 {d : List Byte} {c : Byte} (h : c ∈ b64 d) : c ∈ base64Alphabet ∨ c = 0x3d := by
  induction d using b64.induct with
  | case1 => cases h
  | case2 a =>
    rcases List.mem_append.mp h with h | h
    · exact .inl (mem_b64Quad (List.mem_of_mem_take h))
    · exact .inr (by simpa using h)
  | case3 a b =>
    rcases List.mem_append.mp h with h | h
    · exact .inl (mem_b64Quad (List.mem_of_mem_take h))
    · exact .inr (List.mem_singleton.mp h)
  | case4 a b c rest ih =>
    rcases List.mem_append.mp h with h | h
    · exact .inl (mem_b64Quad h)
    · exact ih h

/-- The index of a character in the alphabet, 0 for `=`. -/
def b64Index (c : Byte) : Nat := base64Alphabet.idxOf c % 64

theorem b64Index_b64Char {n : Nat} (h : n < 64) : b64Index (b64Char n) = n := by
  interval_cases n <;> rfl

theorem b64Index_pad : b64Index 0x3d = 0 := rfl

/-- The decoder of base64: each four characters give three bytes, less those `=` stands for. -/
def unb64 : List Byte → List Byte
  | c0 :: c1 :: c2 :: c3 :: rest =>
    (beBytes 3 (b64Index c0 * 2 ^ 18 + b64Index c1 * 2 ^ 12 + b64Index c2 * 2 ^ 6 +
      b64Index c3)).take (if c2 = 0x3d then 1 else if c3 = 0x3d then 2 else 3) ++ unb64 rest
  | _ => []

theorem b64Char_ne_pad {n : Nat} (h : n < 64) : b64Char n ≠ 0x3d := by
  interval_cases n <;> decide

/-- Reading a sequence as a number and writing the number out again, R7. -/
theorem leBytes_leInt (s : List Byte) : leBytes s.length (leInt s) = s := by
  induction s with
  | nil => rfl
  | cons b bs ih =>
    have hhead : BitVec.ofNat 8 (b.toNat + 256 * leInt bs) = b := by
      apply BitVec.eq_of_toNat_eq
      rw [BitVec.toNat_ofNat, Nat.add_mul_mod_self_left, Nat.mod_eq_of_lt b.isLt]
    have htail : (b.toNat + 256 * leInt bs) / 256 = leInt bs := by have := b.isLt; omega
    rw [List.length_cons, leBytes, leInt, hhead, htail, ih]

theorem beBytes_beInt {s : List Byte} {k : Nat} (hk : s.length = k) : beBytes k (beInt s) = s := by
  have h := leBytes_leInt s.reverse
  rw [← beInt_reverse, List.reverse_reverse, List.length_reverse, hk] at h
  rw [beBytes, h, List.reverse_reverse]

theorem beBytes_beInt_three (a b c : Byte) : beBytes 3 (beInt [a, b, c]) = [a, b, c] :=
  beBytes_beInt rfl

/-- Decoding four characters that carry the four indices of a 24-bit number. -/
theorem unb64_group {v : Nat} (hv : v < 2 ^ 24) {c2 c3 : Byte} (h2 : b64Index c2 = v / 2 ^ 6 % 64)
    (h3 : b64Index c3 = v % 64) (rest : List Byte) :
    unb64 (b64Char (v / 2 ^ 18 % 64) :: b64Char (v / 2 ^ 12 % 64) :: c2 :: c3 :: rest) =
      (beBytes 3 v).take (if c2 = 0x3d then 1 else if c3 = 0x3d then 2 else 3) ++ unb64 rest := by
  have hsum : v / 2 ^ 18 % 64 * 2 ^ 18 + v / 2 ^ 12 % 64 * 2 ^ 12 + v / 2 ^ 6 % 64 * 2 ^ 6 + v % 64
      = v := by omega
  rw [unb64, h2, h3, b64Index_b64Char (Nat.mod_lt _ (by decide)),
    b64Index_b64Char (Nat.mod_lt _ (by decide)), hsum]

/-- The decoder undoes base64. The index 0 it gives `=` is that of the bits filled in. -/
theorem unb64_b64 (d : List Byte) : unb64 (b64 d) = d := by
  have hindex : ∀ n, b64Index (b64Char (n % 64)) = n % 64 :=
    fun n => b64Index_b64Char (Nat.mod_lt n (by decide))
  have hne : ∀ n, b64Char (n % 64) ≠ 0x3d := fun n => b64Char_ne_pad (Nat.mod_lt n (by decide))
  induction d using b64.induct with
  | case1 => rfl
  | case2 a =>
    have hfill : beInt [a, 0, 0] = a.toNat * 65536 := by
      change ((0 * 256 + a.toNat) * 256 + 0) * 256 + 0 = _
      omega
    refine (unb64_group (beInt_three_lt a 0 0) (c2 := 0x3d) (c3 := 0x3d) ?_ ?_ []).trans ?_
    · rw [hfill, b64Index_pad]; omega
    · rw [hfill, b64Index_pad]; omega
    · rw [beBytes_beInt_three]; rfl
  | case3 a b =>
    have hfill : beInt [a, b, 0] = a.toNat * 65536 + b.toNat * 256 := by
      change ((0 * 256 + a.toNat) * 256 + b.toNat) * 256 + 0 = _
      omega
    refine (unb64_group (beInt_three_lt a b 0) (c3 := 0x3d) (hindex _) ?_ []).trans ?_
    · rw [hfill, b64Index_pad]; omega
    · rw [beBytes_beInt_three, if_neg (hne _)]; rfl
  | case4 a b c rest ih =>
    refine (unb64_group (beInt_three_lt a b c) (hindex _) (hindex _) (b64 rest)).trans ?_
    rw [beBytes_beInt_three, if_neg (hne _), if_neg (hne _), ih]
    rfl

/-- Settles O31: group `i` is the first group from byte `3i` on (`drop_b64`, `take_b64`), and the
decoder makes base64 injective (`unb64_b64`). -/
theorem base64IsInjectiveAndInItsAlphabet : Obligations.Base64IsInjectiveAndInItsAlphabet := by
  refine ⟨fun d i hi => ?_, length_b64,
    fun _ _ h => Function.LeftInverse.injective unb64_b64 h, fun _ _ => mem_b64⟩
  have hrest : d.drop (3 * i) ≠ [] := List.drop_eq_nil_iff.not.mpr (Nat.not_le.mpr hi)
  have hv := beInt_filled_lt (d.drop (3 * i))
  rw [drop_b64, take_b64 hrest, b64Char_eq _ (Nat.mod_lt _ (by decide)),
    b64Char_eq _ (Nat.mod_lt _ (by decide)), b64Char_eq _ (Nat.mod_lt _ (by decide)),
    b64Char_eq _ (Nat.mod_lt _ (by decide)), Nat.mod_eq_of_lt (a := _ / 2 ^ 18) (by omega)]

/-! ### The commands, R135 R136 R138 -/

/-- What a command that reports LEN or ends in `u` does, R135: the input's capacity first. -/
theorem State.lenCheck_ends (s : State) (L : Nat → Nat) (u : State) :
    let n := s.ilen.toNat
    let t := (s.lenCheck L).elim u s.raise
    (s.cfg.ibufCap < n → t = s.lenReport 0) ∧
    (n ≤ s.cfg.ibufCap → s.cfg.obufCap < L n → t = s.lenReport (BitVec.ofNat 32 (L n))) ∧
    (n ≤ s.cfg.ibufCap → L n ≤ s.cfg.obufCap → t = u) := by
  have hraise : ∀ r, s.raise (.len s.ilen.toNat r) = s.lenReport (BitVec.ofNat 32 r) := fun r => by
    rw [State.raise_len, BitVec.ofNat_toNat, BitVec.setWidth_eq]
    rfl
  rcases s.lenCheck_cases L with ⟨hlong, hcheck⟩ | ⟨hfits, hlarge, hcheck⟩ | ⟨hfits, hroom, hcheck⟩
  all_goals rw [hcheck]
  · exact ⟨fun _ => hraise 0, fun h => absurd h (by omega), fun h => absurd h (by omega)⟩
  · exact ⟨fun h => absurd h (by omega), fun _ _ => hraise _, fun _ h => absurd h (by omega)⟩
  · exact ⟨fun h => absurd h (by omega), fun _ h => absurd h (by omega), fun _ _ => rfl⟩

theorem exec_aescbc (s : State) : exec .aescbc s = .next ((s.lenCheck clen).elim
    (s.putOutput (aesCbcEncrypt (s.input s.ilen.toNat) s.akey s.aiv) (clen s.ilen.toNat)).succeed
    s.raise) := by
  rw [exec, execAescbc]
  cases s.lenCheck clen <;> rfl

theorem exec_dblenc (s : State) : exec .dblenc s = .next ((s.lenCheck dlen).elim
    (s.encryptInput s.ilen.toNat).succeed s.raise) := by
  rw [exec, execDblenc]
  cases s.lenCheck dlen <;> rfl

/-- Storing an output that fits: `OLEN` tells its length, the bytes from `OBUF[0]` on are the
output, and nothing else changes, R31. -/
theorem State.putOutput_stores (s : State) {out : List Byte} {n : Nat} (hlen : out.length = n)
    (hn : n ≤ s.cfg.obufCap) :
    let t := (s.putOutput out n).succeed
    t = State.ok { s with mem := t.mem, olen := BitVec.ofNat 32 n } ∧
    t.olen.toNat = n ∧
    (∀ i, i < n → t.mem.read (obufBase + i) = out[i]?) ∧
    ∀ a, ¬ (obufBase ≤ a ∧ a < obufBase + n) →
      t.mem.read a = s.mem.read a ∧ t.bufByte a = s.bufByte a := by
  intro t
  have hread : ∀ a, t.mem.read a =
      if obufBase ≤ a ∧ a < obufBase + n then out[a - obufBase]? else s.mem.read a :=
    fun a => hlen ▸ s.read_putOutput out n a
  refine ⟨rfl, ?_, fun i hi => ?_, fun a ha => ?_⟩
  · have := obufCap_le s.cfg
    exact Nat.mod_eq_of_lt (by omega)
  · rw [hread, if_pos (by omega), Nat.add_sub_cancel_left]
  · have hframe : t.mem.read a = s.mem.read a := by rw [hread, if_neg ha]
    exact ⟨hframe, State.bufByte_congr hframe rfl⟩

/-- The output of DBLENC has the length that `OLEN` tells, R137. -/
theorem length_doubleEncrypt_input (s : State) (n : Nat) :
    (doubleEncrypt (s.input n) s.key).length = dlen n := by
  rw [length_doubleEncrypt, State.length_input]

/-- Settles O32: the LEN check (`State.lenCheck_ends`), and the output stored
(`State.putOutput_stores`). -/
theorem aescbcEncryptsOrReportsLen : Obligations.AescbcEncryptsOrReportsLen := by
  intro s
  obtain ⟨hlong, hlarge, hfits⟩ := s.lenCheck_ends clen
    (s.putOutput (aesCbcEncrypt (s.input s.ilen.toNat) s.akey s.aiv) (clen s.ilen.toNat)).succeed
  rw [exec_aescbc]
  refine ⟨fun hi => congrArg _ (hlong hi), fun hi ho => congrArg _ (hlarge hi ho), fun hi ho =>
    ⟨_, congrArg _ (hfits hi ho), s.putOutput_stores ?_ ho⟩⟩
  rw [length_aesCbcEncrypt, State.length_input]

/-- Settles O33: the same two parts as for AESCBC, with the lengths of R137. -/
theorem dblencEncryptsOrReportsLen : Obligations.DblencEncryptsOrReportsLen := by
  intro s
  obtain ⟨hlong, hlarge, hfits⟩ := s.lenCheck_ends dlen (s.encryptInput s.ilen.toNat).succeed
  rw [exec_dblenc]
  exact ⟨fun hi => congrArg _ (hlong hi), fun hi ho => congrArg _ (hlarge hi ho), fun hi ho =>
    ⟨_, congrArg _ (hfits hi ho), s.putOutput_stores (length_doubleEncrypt_input s _) ho⟩⟩

/-- DBLENC that reports no error had an input that fits. -/
theorem exec_dblenc_fits {s t : State} (h : exec .dblenc s = .next t) (herr : t.err = 0) :
    s.ilen.toNat ≤ s.cfg.ibufCap ∧ dlen s.ilen.toNat ≤ s.cfg.obufCap := by
  rw [exec_dblenc] at h
  cases h
  have hraise : ∀ e, (s.raise e).err ≠ 0 := fun e => e.code_bounds.1
  rcases s.lenCheck_cases dlen with ⟨_, hcheck⟩ | ⟨_, _, hcheck⟩ | ⟨hi, ho, _⟩
  · rw [hcheck] at herr; exact absurd herr (hraise _)
  · rw [hcheck] at herr; exact absurd herr (hraise _)
  · exact ⟨hi, ho⟩

/-- DBLENC of an input that fits ends with the double encryption stored. -/
theorem exec_dblenc_of_fits {s t : State} (h : exec .dblenc s = .next t)
    (hi : s.ilen.toNat ≤ s.cfg.ibufCap) (ho : dlen s.ilen.toNat ≤ s.cfg.obufCap) :
    t = (s.encryptInput s.ilen.toNat).succeed := by
  rw [exec_dblenc, State.lenCheck_eq_none hi ho] at h
  cases h
  rfl

/-- Settles O34: both devices store the encryption of the same input under the same key
(`State.input_congr`). -/
theorem dblencDependsOnlyOnInputAndKey : Obligations.DblencDependsOnlyOnInputAndKey := by
  intro s t s' t' hilen hkey hibuf hobuf hbytes hs ht herr
  obtain ⟨hi, ho⟩ := exec_dblenc_fits hs herr
  have hti : t.ilen.toNat ≤ t.cfg.ibufCap := by rwa [← hilen, ← hibuf]
  have hto : dlen t.ilen.toNat ≤ t.cfg.obufCap := by rwa [← hilen, ← hobuf]
  have hout : doubleEncrypt (t.input t.ilen.toNat) t.key =
      doubleEncrypt (s.input s.ilen.toNat) s.key := by
    rw [← hilen, ← hkey, State.input_congr hbytes]
  obtain ⟨_, hslen, hsread, _⟩ := s.putOutput_stores (length_doubleEncrypt_input s _) ho
  obtain ⟨_, htlen, htread, _⟩ := t.putOutput_stores (length_doubleEncrypt_input t _) hto
  rw [exec_dblenc_of_fits hs hi ho, exec_dblenc_of_fits ht hti hto]
  refine ⟨rfl, ?_, fun i hlt => ?_⟩
  · exact congrArg (fun n : Word => BitVec.ofNat 32 (dlen n.toNat)) hilen.symm
  · have hn : i < dlen s.ilen.toNat := hslen ▸ hlt
    exact (htread i (hilen ▸ hn)).trans (hout ▸ (hsread i hn).symm)

end Sys2Proof.Machine
end

/-! # Proofs of the request family (42_request.md)

Which key a request is made under, and KEYGEN and ENCRYPT, whose output and key encoding are those
of DBLENC and ENCKEY. -/

section
namespace Sys2Proof.Machine

/-! ### KEYGEN, R150 R151 -/

/-- The symbols of `ALNUM` are the three ranges of digits and letters, R150. -/
theorem isAlnum_iff (b : Byte) : isAlnum b = true ↔
    (0x30 ≤ b.toNat ∧ b.toNat ≤ 0x39) ∨ (0x41 ≤ b.toNat ∧ b.toNat ≤ 0x5a) ∨
      (0x61 ≤ b.toNat ∧ b.toNat ≤ 0x7a) := by
  simp only [isAlnum, Bool.or_eq_true, Bool.and_eq_true, decide_eq_true_eq, or_assoc]

theorem exec_keygen (s : State) : exec .keygen s = .next s.drawKey.succeed := rfl

/-- Settles O35: `State.drawKey_cases` says what a draw puts where, and the ending only reports. -/
theorem keygenDrawsAnAlphanumericKey : Obligations.KeygenDrawsAnAlphanumericKey := by
  intro s
  obtain ⟨k, halnum, hdraw⟩ := s.drawKey_cases
  refine ⟨_, exec_keygen s, ?_⟩
  rw [hdraw]
  exact ⟨fun i hi => (isAlnum_iff _).mp (halnum i hi), State.succeed_eq _⟩

/-! ### ENCRYPT, R152 -/

/-- The key a request is made under: `KEY` as it stands, or sixteen drawn symbols of `ALNUM`. Either
way only `KEY` and the count of draws can differ afterwards. -/
theorem State.requestKey_cases (s : State) (g : Bool) :
    ∃ k d, (if g then s.drawKey else s) = { s with key := k, draws := d } ∧
      (g = false → k = s.key ∧ d = s.draws) ∧
      (g = true → ∀ i, i < 16 → isAlnum (byteOf k i) = true) := by
  cases g with
  | false => exact ⟨s.key, s.draws, rfl, fun _ => ⟨rfl, rfl⟩, nofun⟩
  | true =>
    obtain ⟨k, halnum, hdraw⟩ := s.drawKey_cases
    exact ⟨k, s.draws + 16, hdraw, nofun, fun _ => halnum⟩

theorem exec_encrypt (g : Bool) (s : State) : exec (.encrypt g) s = .next ((s.lenCheck dlen).elim
    ((if g then s.drawKey else s).encryptInput s.ilen.toNat).encodeKey.succeed s.raise) := by
  rw [exec, execEncrypt]
  cases s.lenCheck dlen <;> rfl

/-- The value `ESK` holds after the key encoding, R104 R106. -/
theorem State.encodeKey_esk_eq_pow (s : State) :
    s.encodeKey.esk.toNat = beInt (bytes16 s.key).reverse ^ 65537 % s.cfg.nModulus := by
  rw [s.encodeKey_esk_toNat, modPow_eq, beInt_reverse, ePub]

/-- Settles O36: the LEN check comes first (`State.lenCheck_ends`); behind it the key is taken
(`State.requestKey_cases`), and the output stored under that key (`State.putOutput_stores`) is left
alone by the key's encoding. -/
theorem encryptWritesBothHalvesOrReportsLen : Obligations.EncryptWritesBothHalvesOrReportsLen := by
  intro s g
  obtain ⟨k, d, htake, hkept, hdrawn⟩ := s.requestKey_cases g
  obtain ⟨hlong, hlarge, hfits⟩ := s.lenCheck_ends dlen
    (State.encryptInput { s with key := k, draws := d } s.ilen.toNat).encodeKey.succeed
  rw [exec_encrypt, htake]
  refine ⟨fun hi => congrArg _ (hlong hi), fun hi ho => congrArg _ (hlarge hi ho), fun hi ho => ?_⟩
  obtain ⟨_, holen, hread, hframe⟩ := State.putOutput_stores { s with key := k, draws := d }
    (length_doubleEncrypt_input _ _) ho
  exact ⟨_, congrArg _ (hfits hi ho), hkept, hdrawn, hread, hframe, holen,
    State.encodeKey_esk_eq_pow _, State.succeed_eq _⟩

/-- The key encoding and its ending overwrite the report an earlier command ended with, R203. -/
theorem State.encodeKey_after_succeed (s : State) :
    s.succeed.encodeKey.succeed = s.encodeKey.succeed := rfl

/-- Settles O37: both ways store the output and then encode the key; the report DBLENC ends with is
overwritten (`State.encodeKey_after_succeed`). -/
theorem encryptIsDblencThenEnckey : Obligations.EncryptIsDblencThenEnckey := by
  intro s hi ho
  have hdblenc : exec .dblenc s = .next (s.encryptInput s.ilen.toNat).succeed := by
    rw [exec_dblenc, State.lenCheck_eq_none hi ho]
    rfl
  refine ⟨_, _, hdblenc, exec_enckey _, ?_⟩
  rw [State.encodeKey_after_succeed]
  exact exec_encrypt_of_fits false hi ho

end Sys2Proof.Machine
end

/-! # Proofs of the presence family (43_presence.md)

What the table commands answer: the error each one meets first, and behind it the state it ends in.
PTSET and PTTAS meet the same errors and leave the same block store (`State.setError`,
`State.marked`), so what they do to the bits is said once. -/

section
namespace Sys2Proof.Machine

/-! ### Writing the same place twice, R167 -/

theorem assocPut_put_same {α : Type} (l : List (Nat × α)) (a : Nat) (x y : α) :
    assocPut (assocPut l a x) a y = assocPut l a y := by
  induction l with
  | nil => simp [assocPut]
  | cons p r ih =>
    obtain ⟨k, z⟩ := p
    rcases Nat.lt_trichotomy a k with h | rfl | h
    · simp [assocPut, h]
    · simp [assocPut]
    · simp [assocPut, Nat.not_lt_of_gt h, Nat.ne_of_gt h, ih]

theorem State.setSlot_setSlot (s : State) (blk : Nat) (b c : Block) :
    (s.setSlot blk b).setSlot blk c = s.setSlot blk c :=
  congrArg (fun l => { s with slots := l }) (assocPut_put_same s.slots blk b c)

theorem Block.write_write_same (b : Block) (i : Nat) (v : Byte) :
    (b.write i v).write i v = b.write i v := by
  unfold Block.write
  split
  · exact List.filter_eq_self.mpr fun p hp => (List.mem_filter.mp hp).2
  · exact assocPut_put_same b i v v

/-- `setbit` of R162 in a buffer. -/
def Block.mark (b : Block) (p : BitPlace) : Block :=
  b.write p.byteIdx (b.read p.byteIdx ||| p.mask)

theorem Block.mark_mark (b : Block) (p : BitPlace) : (b.mark p).mark p = b.mark p := by
  have hread : (b.mark p).read p.byteIdx = b.read p.byteIdx ||| p.mask := by
    rw [Block.mark, Block.read_write, if_pos rfl]
  rw [Block.mark, hread, BitVec.or_assoc, BitVec.or_self]
  exact b.write_write_same _ _

/-! ### Allocation and setting a bit, R163 R167 -/

/-- The error allocating a block meets, R163. -/
def State.allocError (s : State) (blk : Nat) : Option CmdError :=
  match s.allocate blk with
  | .error e => some e
  | .ok _ => none

/-- The state with a block allocated, R163. -/
def State.withBlock (s : State) (blk : Nat) : State :=
  if s.allocated blk then s else s.setSlot blk []

/-- The state with a block allocated and a bit of it set, R167. -/
def State.marked (s : State) (p : BitPlace) : State :=
  s.setSlot p.blk ((s.bufferOf p.blk).mark p)

theorem State.withBlock_of_allocated {s : State} {blk : Nat} (h : s.slot blk ≠ none) :
    s.withBlock blk = s := if_pos ((s.allocated_iff blk).mpr h)

theorem State.withBlock_of_unallocated {s : State} {blk : Nat} (h : s.slot blk = none) :
    s.withBlock blk = s.setSlot blk [] :=
  if_neg ((s.allocated_iff blk).not.mpr (not_not_intro h))

theorem State.allocError_of_fits {s : State} {blk : Nat} (h : s.slot blk ≠ none ∨ s.HasRoom) :
    s.allocError blk = none := by
  rcases s.allocate_cases blk with ⟨_, ha⟩ | ⟨_, _, ha⟩ | ⟨hs, hr, _⟩
  · rw [State.allocError, ha]
  · rw [State.allocError, ha]
  · exact absurd h (not_or.mpr ⟨not_not_intro hs, hr⟩)

theorem State.allocError_of_full {s : State} {blk : Nat} (hs : s.slot blk = none)
    (hr : ¬ s.HasRoom) : s.allocError blk = some (.nomem blk) := by
  rcases s.allocate_cases blk with ⟨h, _⟩ | ⟨_, h, _⟩ | ⟨_, _, ha⟩
  · exact absurd hs h
  · exact absurd h hr
  · rw [State.allocError, ha]

theorem State.allocate_eq (s : State) (blk : Nat) :
    s.allocate blk = (s.allocError blk).elim (.ok (s.withBlock blk)) .error := by
  rcases s.allocate_cases blk with ⟨hs, ha⟩ | ⟨hs, hr, ha⟩ | ⟨hs, hr, ha⟩
  · rw [State.allocError_of_fits (.inl hs), State.withBlock_of_allocated hs, ha]; rfl
  · rw [State.allocError_of_fits (.inr hr), State.withBlock_of_unallocated hs, ha]; rfl
  · rw [State.allocError_of_full hs hr, ha]; rfl

/-- Setting a bit of a block that has just been allocated. -/
theorem State.setBit_withBlock (s : State) (p : BitPlace) :
    (s.withBlock p.blk).setBit p = s.marked p := by
  cases hs : s.slot p.blk with
  | none =>
    have hnew : (s.setSlot p.blk []).slot p.blk = some [] := by rw [State.slot_setSlot, if_pos rfl]
    have hbuf : s.bufferOf p.blk = [] := by rw [State.bufferOf, hs]; rfl
    rw [State.withBlock_of_unallocated hs, State.marked, hbuf]
    simp only [State.setBit, hnew]
    exact s.setSlot_setSlot ..
  | some b =>
    have hbuf : s.bufferOf p.blk = b := by rw [State.bufferOf, hs]; rfl
    rw [State.withBlock_of_allocated (by rw [hs]; nofun), State.marked, hbuf]
    simp only [State.setBit, hs]
    rfl

theorem State.allocateAndSet_eq (s : State) (p : BitPlace) :
    s.allocateAndSet p = (s.allocError p.blk).elim (.ok (s.marked p)) .error := by
  rw [State.allocateAndSet, s.allocate_eq]
  cases s.allocError p.blk with
  | some e => rfl
  | none => exact congrArg Except.ok (s.setBit_withBlock p)

theorem State.slot_marked (s : State) (p : BitPlace) (c : Nat) :
    (s.marked p).slot c = if c = p.blk then some ((s.bufferOf p.blk).mark p) else s.slot c :=
  s.slot_setSlot ..

/-- A second setting of the same bit finds it set, R167. -/
theorem State.marked_marked (s : State) (p : BitPlace) : (s.marked p).marked p = s.marked p := by
  have hbuf : (s.marked p).bufferOf p.blk = (s.bufferOf p.blk).mark p := by
    rw [State.bufferOf, s.slot_marked, if_pos rfl]; rfl
  rw [State.marked, hbuf, Block.mark_mark]
  exact s.setSlot_setSlot ..

/-! ### The place of an id, R162 -/

theorem seven_sub_lt_eight (n : Nat) : 7 - n % 8 < 8 := by omega

/-- The places of two ids differ: `div` and `mod` are jointly injective. -/
theorem eq_of_same_place {n a b : Nat} (hblk : a / n = b / n) (hbyte : a % n / 8 = b % n / 8)
    (hbit : 7 - a % n % 8 = 7 - b % n % 8) : a = b := by
  have hmod : a % n = b % n := by omega
  rw [← Nat.div_add_mod a n, hblk, hmod, Nat.div_add_mod]

theorem locate_mask_toNat (n a : Nat) : (locate n a).mask.toNat = 2 ^ (7 - a % n % 8) := by
  have hlt : 2 ^ (7 - a % n % 8) < 2 ^ 8 :=
    Nat.pow_lt_pow_right (by decide) (seven_sub_lt_eight _)
  exact (BitVec.toNat_ofNat ..).trans (Nat.mod_eq_of_lt hlt)

theorem locate_injective {n a b : Nat} (h : locate n a = locate n b) : a = b := by
  have hmask : 2 ^ (7 - a % n % 8) = 2 ^ (7 - b % n % 8) := by
    rw [← locate_mask_toNat, h, locate_mask_toNat]
  exact eq_of_same_place (congrArg BitPlace.blk h) (congrArg BitPlace.byteIdx h)
    (Nat.pow_right_injective (Nat.le_refl 2) hmask)

/-- Settles O47: `locate_injective` and `locate_mask_toNat`; an id in range has a block size that
is not 0, so its bit index lies below it. -/
theorem differentIdsHaveDifferentBits : Obligations.DifferentIdsHaveDifferentBits := by
  intro bcount bbits a b ha _
  have hpos : 0 < bbits := Nat.pos_of_mul_pos_left (Nat.zero_lt_of_lt ha)
  have hbit : a % bbits < bbits := Nat.mod_lt a hpos
  refine ⟨locate_injective, Nat.div_lt_of_lt_mul (Nat.mul_comm .. ▸ ha), ?_, locate_mask_toNat ..⟩
  show a % bbits / 8 < (bbits + 7) / 8
  omega

/-! ### The bits of the store, R164 R167 -/

theorem State.bitAt_eq_bufferOf (s : State) (c j k : Nat) :
    s.bitAt c j k = ((s.bufferOf c).read j).getLsbD k := by
  unfold State.bitAt State.bufferOf
  cases s.slot c <;> simp

/-- A block that is only allocated holds no bit, R165. -/
theorem State.bitAt_withBlock (s : State) (blk c j k : Nat) :
    (s.withBlock blk).bitAt c j k = s.bitAt c j k := by
  cases hs : s.slot blk with
  | some b => rw [State.withBlock_of_allocated (by rw [hs]; nofun)]
  | none =>
    have hbuf : (s.setSlot blk []).bufferOf c = s.bufferOf c := by
      rw [State.bufferOf, State.bufferOf, State.slot_setSlot]
      split
      · next hc => rw [hc, hs]; rfl
      · rfl
    rw [State.withBlock_of_unallocated hs, State.bitAt_eq_bufferOf, State.bitAt_eq_bufferOf, hbuf]

/-- Setting the bit of `PT_ARG` sets that bit and no other. -/
theorem State.bitAt_marked (s : State) (c j k : Nat) (hk : k < 8) :
    (s.marked s.place).bitAt c j k = (s.bitAt c j k || decide (c = s.ptArg.toNat / s.ptBbits.toNat ∧
      j = s.ptArg.toNat % s.ptBbits.toNat / 8 ∧ k = 7 - s.ptArg.toNat % s.ptBbits.toNat % 8)) :=
  State.bitAt_of_set (seven_sub_lt_eight _) ((s.slot_marked ..).trans (if_pos rfl))
    (fun c hc => (s.slot_marked s.place c).trans (if_neg hc)) c j k hk

/-- Among the ids, setting the bit of `PT_ARG` sets that of `PT_ARG` and no other, R170. -/
theorem State.idBit_marked (s : State) (a : Nat) :
    (s.marked s.place).idBit a = (s.idBit a || decide (a = s.ptArg.toNat)) := by
  refine (s.bitAt_marked _ _ _ (seven_sub_lt_eight _)).trans (congrArg _ (decide_eq_decide.mpr ?_))
  exact ⟨fun ⟨hblk, hbyte, hbit⟩ => eq_of_same_place hblk hbyte hbit, fun h => h ▸ ⟨rfl, rfl, rfl⟩⟩

/-- What setting the bit of `PT_ARG` does to the slots and to the bits, R167. -/
theorem State.marked_effect (s : State) :
    let id := s.ptArg.toNat
    let blk := id / s.ptBbits.toNat
    let t := s.marked s.place
    t.slot blk ≠ none ∧ t.idBit id = true ∧
    (∀ c i k, k < 8 →
      (c, i, k) ≠ (blk, id % s.ptBbits.toNat / 8, 7 - id % s.ptBbits.toNat % 8) →
      t.bitAt c i k = s.bitAt c i k) ∧
    ∀ c, c ≠ blk → t.slot c = s.slot c := by
  refine ⟨?_, ?_, fun c i k hk hne => ?_, fun c hc => ?_⟩
  · exact ((s.slot_marked s.place _).trans (if_pos rfl)).symm ▸ Option.some_ne_none _
  · rw [s.idBit_marked, decide_eq_true rfl, Bool.or_true]
  · rw [s.bitAt_marked c i k hk, decide_eq_false, Bool.or_false]
    rintro ⟨rfl, rfl, rfl⟩
    exact hne rfl
  · exact (s.slot_marked s.place c).trans (if_neg hc)

/-! ### What the commands answer -/

/-- The error PTALLOC meets first, R165. -/
def State.ptallocError (s : State) : Option CmdError :=
  if !s.ptrdy then some .state
  else if s.ptBcount.toNat ≤ s.ptArg.toNat then some .range
  else s.allocError s.ptArg.toNat

/-- The error PTSET and PTTAS meet first, R167 R168. -/
def State.setError (s : State) : Option CmdError := s.idCheck.or (s.allocError s.place.blk)

theorem exec_ptalloc (s : State) : exec .ptalloc s = .next (s.ptallocError.elim
    (s.withBlock s.ptArg.toNat).succeed s.raise) := by
  rw [exec, execPtalloc, State.ptallocError, s.allocate_eq]
  split_ifs
  · rfl
  · rfl
  · cases s.allocError s.ptArg.toNat <;> rfl

theorem exec_pttest (s : State) : exec .pttest s = .next (s.idCheck.elim
    (s.putBool (s.idBit s.ptArg.toNat)).succeed s.raise) := by
  rw [exec, execPttest, s.present_place]
  cases s.idCheck <;> rfl

theorem exec_ptset (s : State) : exec .ptset s = .next (s.setError.elim
    (s.marked s.place).succeed s.raise) := by
  rw [exec, execPtset, State.setError, s.allocateAndSet_eq]
  cases s.idCheck with
  | some e => rfl
  | none => cases s.allocError s.place.blk <;> rfl

theorem exec_pttas (s : State) : exec .pttas s = .next (s.setError.elim
    ((s.marked s.place).putBool (s.idBit s.ptArg.toNat)).succeed s.raise) := by
  rw [exec, execPttas, State.setError, s.allocateAndSet_eq, s.present_place]
  cases s.idCheck with
  | some e => rfl
  | none => cases s.allocError s.place.blk <;> rfl

/-- A command that ends with no error code has met no error. -/
theorem eq_none_of_ends_ok {s u : State} {e : Option CmdError}
    (h : (e.elim u s.raise).err = 0) : e = none := by
  cases e with
  | none => rfl
  | some e => exact absurd h e.code_bounds.1

theorem State.raise_state_of_no_table {s : State} (h : s.ptrdy = false) :
    s.raise .state = s.report 4 0 0 0 0 0 := by
  rw [State.raise_state, h]; rfl

/-- What the checks of an id command pass on, R205. -/
theorem State.idCheck_ends (s u : State) :
    let t := s.idCheck.elim u s.raise
    (s.ptrdy = false → t = s.report 4 0 0 0 0 0) ∧
    (s.ptrdy = true → s.ptBcount.toNat * s.ptBbits.toNat ≤ s.ptArg.toNat → t = s.rangeReport) ∧
    (s.ptrdy = true → s.ptArg.toNat < s.ptBcount.toNat * s.ptBbits.toNat → t = u) := by
  rcases s.idCheck_cases with ⟨hp, hcheck⟩ | ⟨hp, hid, hcheck⟩ | ⟨hp, hid, hcheck⟩
  all_goals rw [hcheck]
  · exact ⟨State.raise_state_of_no_table, by simp [hp], by simp [hp]⟩
  · exact ⟨by simp [hp], fun _ _ => s.raise_range, fun _ h => absurd h (by omega)⟩
  · exact ⟨by simp [hp], fun _ h => absurd h (by omega), fun _ _ => rfl⟩

theorem State.idCheck_eq_none_iff (s : State) : s.idCheck = none ↔
    s.ptrdy = true ∧ s.ptArg.toNat < s.ptBcount.toNat * s.ptBbits.toNat := by
  rcases s.idCheck_cases with ⟨hp, hcheck⟩ | ⟨hp, hid, hcheck⟩ | ⟨hp, hid, hcheck⟩
  · simp [hp, hcheck]
  · simp [hcheck, hid]
  · simp [hp, hcheck, hid]

theorem State.setError_elim (s u : State) : s.setError.elim u s.raise =
    s.idCheck.elim ((s.allocError s.place.blk).elim u s.raise) s.raise := by
  rw [State.setError]
  cases s.idCheck <;> rfl

/-- What a command that sets the bit of `PT_ARG` and ends in `u` does, R167 R168. -/
theorem State.setError_ends (s u : State) :
    let id := s.ptArg.toNat
    let blk := id / s.ptBbits.toNat
    let t := s.setError.elim u s.raise
    (s.ptrdy = false → t = s.report 4 0 0 0 0 0) ∧
    (s.ptrdy = true → s.ptBcount.toNat * s.ptBbits.toNat ≤ id → t = s.rangeReport) ∧
    (s.ptrdy = true → id < s.ptBcount.toNat * s.ptBbits.toNat → s.slot blk = none → ¬ s.HasRoom →
      t = s.report 8 0 (BitVec.ofNat 32 blk) 0 0 0) ∧
    (s.ptrdy = true → id < s.ptBcount.toNat * s.ptBbits.toNat → (s.slot blk ≠ none ∨ s.HasRoom) →
      t = u) := by
  intro id blk t
  obtain ⟨hstate, hrange, hpass⟩ := s.idCheck_ends ((s.allocError blk).elim u s.raise)
  have ht : t = s.idCheck.elim ((s.allocError blk).elim u s.raise) s.raise := s.setError_elim u
  refine ⟨fun hp => ht.trans (hstate hp), fun hp hid => ht.trans (hrange hp hid),
    fun hp hid hs hr => ?_, fun hp hid hfit => ?_⟩
  · rw [ht, hpass hp hid, State.allocError_of_full hs hr]; rfl
  · rw [ht, hpass hp hid, State.allocError_of_fits hfit]; rfl

theorem State.table_and_range_of_setError_eq_none {s : State} (h : s.setError = none) :
    s.ptrdy = true ∧ s.ptArg.toNat < s.ptBcount.toNat * s.ptBbits.toNat :=
  s.idCheck_eq_none_iff.mp (Option.or_eq_none_iff.mp h).1

/-! ### PTINIT, R161 -/

/-- The derived values of a legal shape fit their registers, R160. -/
theorem shape_values_fit {L S : Nat} (hS : S ≤ 4) (hLS : L - S ≤ 10) :
    blockCount S < 2 ^ 32 ∧ blockBits L S < 2 ^ 64 ∧ blockByteSize L S < 2 ^ 32 := by
  have hcount : 10 ^ S ≤ 10 ^ 4 := Nat.pow_le_pow_right (by decide) hS
  have hbits : 10 ^ (L - S) ≤ 10 ^ 10 := Nat.pow_le_pow_right (by decide) hLS
  unfold blockCount blockBits blockByteSize
  omega

theorem legalShape_iff (L S : Nat) : legalShape L S = true ↔ S ≤ 4 ∧ S ≤ L ∧ L - S ≤ 10 :=
  decide_eq_true_iff

/-- The state with an empty table of the shape in `PT_LENGTH` and `PT_SPREFIX`, R161. -/
def State.withTable (s : State) : State :=
  let L := s.ptLength.toNat
  let S := s.ptSprefix.toNat
  { s with
    ptBcount := BitVec.ofNat 32 (blockCount S)
    ptBbits := BitVec.ofNat 64 (blockBits L S)
    ptBbytes := BitVec.ofNat 32 (blockByteSize L S)
    slots := []
    ptrdy := true }

theorem exec_ptinit_of_table {s : State} (hp : s.ptrdy = true) :
    exec .ptinit s = .next (s.raise .state) := by
  rw [exec, execPtinit]
  simp only [hp, if_true]

theorem exec_ptinit_of_no_table {s : State} (hp : s.ptrdy = false) : exec .ptinit s = .next
    (if legalShape s.ptLength.toNat s.ptSprefix.toNat then s.withTable.succeed
      else s.raise .shape) := by
  rw [exec, execPtinit]
  simp only [hp, Bool.false_eq_true, if_false]
  rfl

/-- With a table the shape's two registers take no store, R35. -/
theorem not_writable_shape {s : State} (hp : s.ptrdy = true) {a : Nat} (ha : a = 0x30 ∨ a = 0x34) :
    ¬ Writable s a := by
  rcases ha with rfl | rfl
  · simp [Writable, hp]
  · simp [Writable, hp]

theorem writable_shape {s : State} (hp : s.ptrdy = false) {a : Nat} (ha : a = 0x30 ∨ a = 0x34) :
    Writable s a := .inr (.inr (.inl ⟨ha, hp⟩))

/-- Settles O40: the registers hold the derived values (`shape_values_fit`), and the table's flag
locks the two parameters (`not_writable_shape`). -/
theorem ptinitBuildsAnEmptyTableOrReports : Obligations.PtinitBuildsAnEmptyTableOrReports := by
  intro s L S
  refine ⟨fun hp => ?_, fun hp hshape => ⟨?_, ?_, ?_⟩, fun hp hS hSL hLS => ?_⟩
  · rw [exec_ptinit_of_table hp, State.raise_state, hp]; rfl
  · rw [exec_ptinit_of_no_table hp, if_neg ((legalShape_iff L S).not.mpr hshape), State.raise_shape]
  · exact writable_shape hp (.inl rfl)
  · exact writable_shape hp (.inr rfl)
  · obtain ⟨hcount, hbits, hbytes⟩ := shape_values_fit hS hLS
    refine ⟨s.withTable.succeed, ?_, ?_, ?_, ?_, fun _ => rfl, rfl, rfl, rfl, fun a v ha => ?_⟩
    · rw [exec_ptinit_of_no_table hp, if_pos ((legalShape_iff L S).mpr ⟨hS, hSL, hLS⟩)]
    · exact Nat.mod_eq_of_lt hcount
    · exact Nat.mod_eq_of_lt hbits
    · exact Nat.mod_eq_of_lt hbytes
    · refine perform_memWrite_refused v (not_writable_shape rfl ?_)
      exact ha.imp (congrArg BitVec.toNat) (congrArg BitVec.toNat)

/-! ### PTALLOC and PTTEST, R165 R166 -/

theorem State.ptallocError_of_inRange {s : State} (hp : s.ptrdy = true)
    (hblk : s.ptArg.toNat < s.ptBcount.toNat) : s.ptallocError = s.allocError s.ptArg.toNat := by
  rw [State.ptallocError, if_neg (by simp [hp]), if_neg (Nat.not_le.mpr hblk)]

/-- Settles O41: behind the two checks, `State.allocError` and `State.withBlock` tell the three
cases of R163 apart. -/
theorem ptallocAllocatesOneBlockOrReports : Obligations.PtallocAllocatesOneBlockOrReports := by
  intro s blk
  rw [exec_ptalloc]
  refine ⟨fun hp => ?_, fun hp hblk => ?_, fun hp hblk hs => ?_, fun hp hblk hs hr => ?_,
    fun hp hblk hs hr => ⟨(s.setSlot blk []).succeed, [], ?_, ?_, Block.read_nil, fun c hc => ?_,
      length_assocPut_new [] hs, rfl⟩⟩
  · rw [State.ptallocError, if_pos (by simp [hp]), ← State.raise_state_of_no_table hp]; rfl
  · rw [State.ptallocError, if_neg (by simp [hp]), if_pos hblk]; rfl
  · rw [State.ptallocError_of_inRange hp hblk, State.allocError_of_fits (.inl hs),
      State.withBlock_of_allocated hs]
    rfl
  · rw [State.ptallocError_of_inRange hp hblk, State.allocError_of_full hs hr]; rfl
  · rw [State.ptallocError_of_inRange hp hblk, State.allocError_of_fits (.inr hr),
      State.withBlock_of_unallocated hs]
    rfl
  · exact assocGet_put_same ..
  · exact assocGet_put_ne _ _ hc

/-- Settles O42: the checks of an id command, and the bit at the id's place (`exec_pttest`). -/
theorem pttestReadsTheBitOrReports : Obligations.PttestReadsTheBitOrReports := by
  intro s
  obtain ⟨hstate, hrange, hpass⟩ := s.idCheck_ends (s.putBool (s.idBit s.ptArg.toNat)).succeed
  rw [exec_pttest]
  exact ⟨fun hp => congrArg _ (hstate hp), fun hp hid => congrArg _ (hrange hp hid),
    fun hp hid => congrArg _ (hpass hp hid)⟩

/-! ### PTSET and PTTAS, R167 R168 -/

/-- Settles O43: the errors (`State.setError_ends`), and the bit set (`State.marked_effect`). -/
theorem ptsetSetsOneBitOrReports : Obligations.PtsetSetsOneBitOrReports := by
  intro s
  obtain ⟨hstate, hrange, hnomem, hpass⟩ := s.setError_ends (s.marked s.place).succeed
  obtain ⟨hslot, hbit, hbits, hslots⟩ := s.marked_effect
  rw [exec_ptset]
  exact ⟨fun hp => congrArg _ (hstate hp), fun hp hid => congrArg _ (hrange hp hid),
    fun hp hid hs hr => congrArg _ (hnomem hp hid hs hr), fun hp hid hfit =>
      ⟨_, congrArg _ (hpass hp hid hfit), hslot, hbit, hbits, hslots, rfl⟩⟩

/-- Settles O44: as PTSET, and the prior bit in `RESULT` (`exec_pttas`). -/
theorem pttasTestsAndSetsOrReports : Obligations.PttasTestsAndSetsOrReports := by
  intro s
  obtain ⟨hstate, hrange, hnomem, hpass⟩ :=
    s.setError_ends ((s.marked s.place).putBool (s.idBit s.ptArg.toNat)).succeed
  obtain ⟨hslot, hbit, hbits, hslots⟩ := s.marked_effect
  rw [exec_pttas]
  exact ⟨fun hp => congrArg _ (hstate hp), fun hp hid => congrArg _ (hrange hp hid),
    fun hp hid hs hr => congrArg _ (hnomem hp hid hs hr), fun hp hid hfit =>
      ⟨_, congrArg _ (hpass hp hid hfit), hslot, hbit, hbits, hslots, rfl⟩⟩

/-- Settles O45: PTTAS and PTSET meet the same errors, and PTTEST no others. -/
theorem pttasIsPttestAndPtset : Obligations.PttasIsPttestAndPtset := by
  intro s t u v ht hu hv herr
  rw [exec_pttas] at ht
  cases ht
  have hnone := eq_none_of_ends_ok herr
  have hcheck := (Option.or_eq_none_iff.mp hnone).1
  rw [exec_ptset, hnone] at hu
  rw [exec_pttest, hcheck] at hv
  cases hu
  cases hv
  rw [hnone]
  exact ⟨rfl, rfl, rfl, rfl⟩

/-- Settles O46: after a PTSET the block is allocated, so the second meets no error, and it sets a
bit that is set (`State.marked_marked`). -/
theorem ptsetIsIdempotent : Obligations.PtsetIsIdempotent := by
  intro s t _ ht herr
  rw [exec_ptset] at ht
  cases ht
  have hnone := eq_none_of_ends_ok herr
  obtain ⟨hp, hid⟩ := State.table_and_range_of_setError_eq_none hnone
  obtain ⟨hslot, _⟩ := s.marked_effect
  obtain ⟨_, _, _, hpass⟩ := (s.marked s.place).succeed.setError_ends
    ((s.marked s.place).marked s.place).succeed
  rw [hnone]
  exact (exec_ptset _).trans (congrArg _ ((hpass hp hid (.inl hslot)).trans
    (congrArg State.succeed (s.marked_marked s.place))))

/-- PTSET and PTTAS meet the same errors and else end alike but for `RESULT`, R168. -/
theorem exec_set {i : Instr} (hi : i = .ptset ∨ i = .pttas) (s : State) :
    ∃ r, exec i s = .next (s.setError.elim
      (State.ok { s.marked s.place with result := r }) s.raise) := by
  rcases hi with rfl | rfl
  · exact ⟨s.result, exec_ptset s⟩
  · exact ⟨_, exec_pttas s⟩

/-- What PTSET and PTTAS leave when they succeed. -/
theorem exec_set_ok {s t : State} {i : Instr} (hi : i = .ptset ∨ i = .pttas)
    (h : exec i s = .next t) (herr : t.err = 0) :
    s.setError = none ∧ ∃ r, t = State.ok { s.marked s.place with result := r } := by
  obtain ⟨r, hexec⟩ := exec_set hi s
  cases hexec.symm.trans h
  have hnone := eq_none_of_ends_ok herr
  exact ⟨hnone, r, by rw [hnone]; rfl⟩

theorem exec_pttest_of_inRange {s : State} (hp : s.ptrdy = true)
    (hid : s.ptArg.toNat < s.ptBcount.toNat * s.ptBbits.toNat) :
    exec .pttest s = .next (s.putBool (s.idBit s.ptArg.toNat)).succeed := by
  rw [exec_pttest, s.idCheck_eq_none_iff.mpr ⟨hp, hid⟩]; rfl

/-- Settles O48: PTTEST reads the bits of the store, and of the ids' bits only that of `PT_ARG` has
been set (`State.idBit_marked`). -/
theorem setThenTestSeesExactlyThatId : Obligations.SetThenTestSeesExactlyThatId := by
  intro s t i b hi ht herr hb
  obtain ⟨hnone, r, rfl⟩ := exec_set_ok hi ht herr
  obtain ⟨hp, _⟩ := State.table_and_range_of_setError_eq_none hnone
  have hbit := s.idBit_marked b.toNat
  refine ⟨_, _, exec_pttest_of_inRange hp hb, exec_pttest_of_inRange hp hb, rfl, rfl,
    fun heq => ?_, fun hne => ?_⟩
  · rw [decide_eq_true (congrArg BitVec.toNat heq), Bool.or_true] at hbit
    exact if_pos hbit
  · rw [decide_eq_false (BitVec.toNat_ne_iff_ne.mpr hne), Bool.or_false] at hbit
    exact congrArg (fun x : Bool => if x then (1 : DWord) else 0) hbit

/-! ### Slots and bits only grow, R164 R169 -/

/-- `t` has the table of `s` with more blocks allocated and more bits set, and of the bits set none
is a tail bit. -/
structure State.Grown (s t : State) : Prop where
  bbits : t.ptBbits = s.ptBbits
  slots : ∀ c, s.slot c ≠ none → t.slot c ≠ none
  bits : ∀ c j k, s.bitAt c j k = true → t.bitAt c j k = true
  fresh : ∀ c j k, k < 8 → t.bitAt c j k = true →
    s.bitAt c j k = true ∨ 8 * j + (7 - k) < s.ptBbits.toNat

/-- A bit of a byte has a position below 8. -/
theorem State.lt_eight_of_bitAt {s : State} {c j k : Nat} (h : s.bitAt c j k = true) : k < 8 := by
  rw [State.bitAt_eq_bufferOf] at h
  exact BitVec.lt_of_getLsbD h

theorem State.grown_raise (s : State) (e : CmdError) : s.Grown (s.raise e) :=
  ⟨rfl, fun _ h => h, fun _ _ _ h => h, fun _ _ _ _ h => .inl h⟩

theorem State.grown_withBlock (s : State) (blk : Nat) : s.Grown (s.withBlock blk) where
  bbits := by unfold State.withBlock; split <;> rfl
  slots c h := by
    by_cases hs : s.slot blk = none
    · rw [State.withBlock_of_unallocated hs, State.slot_setSlot]
      split
      · exact Option.some_ne_none _
      · exact h
    · rwa [State.withBlock_of_allocated hs]
  bits c j k h := by rwa [s.bitAt_withBlock]
  fresh c j k _ h := .inl (by rwa [s.bitAt_withBlock] at h)

/-- The bit of an id in range lies below `PT_BBITS`, R169. -/
theorem State.grown_marked {s : State}
    (hid : s.ptArg.toNat < s.ptBcount.toNat * s.ptBbits.toNat) : s.Grown (s.marked s.place) where
  bbits := rfl
  slots c h := by
    rw [s.slot_marked]
    split
    · exact Option.some_ne_none _
    · exact h
  bits c j k h := by rw [s.bitAt_marked c j k (State.lt_eight_of_bitAt h), h, Bool.true_or]
  fresh c j k hk h := by
    rw [s.bitAt_marked c j k hk, Bool.or_eq_true, decide_eq_true_iff] at h
    refine h.imp_right fun ⟨_, hbyte, hbit⟩ => ?_
    have hpos : 0 < s.ptBbits.toNat := Nat.pos_of_mul_pos_left (Nat.zero_lt_of_lt hid)
    have hlt := Nat.mod_lt s.ptArg.toNat hpos
    omega

/-- Growth looks at the slots and the size of a block alone. -/
theorem State.Grown.congr {s t u : State} (h : s.Grown t) (hbbits : u.ptBbits = t.ptBbits)
    (hslots : u.slots = t.slots) : s.Grown u := by
  have hslot := State.slot_congr hslots
  have hbit : ∀ c j k, u.bitAt c j k = t.bitAt c j k := fun c => State.bitAt_congr (hslot c)
  exact ⟨hbbits.trans h.bbits, fun c hc => hslot c ▸ h.slots c hc,
    fun c j k hs => (hbit c j k).trans (h.bits c j k hs),
    fun c j k hk hu => h.fresh c j k hk (hbit c j k ▸ hu)⟩

theorem exec_ptalloc_grown {s t : State} (h : exec .ptalloc s = .next t) : s.Grown t := by
  rw [exec_ptalloc] at h
  cases h
  cases s.ptallocError with
  | some e => exact s.grown_raise e
  | none => exact (s.grown_withBlock s.ptArg.toNat).congr rfl rfl

theorem exec_set_grown {s t : State} {i : Instr} (hi : i = .ptset ∨ i = .pttas)
    (h : exec i s = .next t) : s.Grown t := by
  obtain ⟨r, hexec⟩ := exec_set hi s
  cases hexec.symm.trans h
  cases hnone : s.setError with
  | some e => exact s.grown_raise e
  | none =>
    obtain ⟨_, hid⟩ := State.table_and_range_of_setError_eq_none hnone
    exact (State.grown_marked hid).congr rfl rfl

/-- The three commands that allocate let the store grow, with an error or without. -/
theorem exec_grown {s t : State} {i : Instr} (hi : i ∈ [Instr.ptalloc, .ptset, .pttas])
    (h : exec i s = .next t) : s.Grown t := by
  rcases List.mem_cons.mp hi with rfl | hset
  · exact exec_ptalloc_grown h
  · exact exec_set_grown (by simpa using hset) h

/-- PTTEST and PTDUMP write no slot (`exec_ends`). -/
theorem exec_keeps_slots {s t : State} {i : Instr} (hi : i ∈ [Instr.pttest, .ptdump])
    (h : exec i s = .next t) : t.slots = s.slots := by
  obtain ⟨u, t', hw, ⟨_, _, _, _, _, _, rfl⟩, ht⟩ := exec_ends i s
  cases ht.symm.trans h
  simp only [List.mem_cons, List.not_mem_nil, or_false] at hi
  rcases hi with rfl | rfl
  · obtain ⟨_, rfl⟩ := hw; rfl
  · obtain ⟨_, _, rfl⟩ := hw; rfl

/-- Settles O49: the store grows (`exec_grown`), or is not written (`exec_keeps_slots`). -/
theorem slotsAndBitsAreOneWay : Obligations.SlotsAndBitsAreOneWay := by
  intro s t i h
  exact ⟨fun hi => ⟨(exec_grown hi h).slots, (exec_grown hi h).bits⟩,
    fun hi => exec_keeps_slots hi h⟩

/-- Settles O50: a bit that was not set before lies below `PT_BBITS` (`State.Grown.fresh`). -/
theorem tailBitsAreNeverSet : Obligations.TailBitsAreNeverSet := by
  intro s t i hi hclear h c j k hk htail
  have hgrown := exec_grown hi h
  rw [hgrown.bbits] at htail
  by_contra hset
  rcases hgrown.fresh c j k hk (Bool.eq_true_of_not_eq_false hset) with hold | hbelow
  · exact absurd (hclear c j k hk htail) (by simp [hold])
  · omega

end Sys2Proof.Machine
end

/-! # Proofs of the binary image family (44_presence_serial.md)

The records a table is dumped as (`State.records`), the indices it has allocated (`State.keys`), and
where PTLOAD stands after the records it could assign (`State.load_after`). -/

section
namespace Sys2Proof.Machine

/-! ### The shape and the header, R160 R181 -/

theorem State.Inv.ptBcount_le {s : State} (hinv : s.Inv) (hp : s.ptrdy = true) :
    s.ptBcount.toNat ≤ 10 ^ 4 := by
  have hshape := hinv.shape
  rw [State.ShapeOk, if_pos hp] at hshape
  obtain ⟨hS, _, _, hcount, _, _⟩ := hshape
  exact hcount ▸ Nat.pow_le_pow_right (by decide) hS

theorem imageHeader_eq (bcount bbytes : Nat) :
    imageHeader bcount bbytes = headerBytes bcount bbytes := by
  simp [imageHeader, headerBytes, beBytes, leBytes, Nat.div_div_eq_div_mul]

/-! ### The allocated indices, R37 R38 -/

/-- The indices of the allocated slots. -/
def State.keys (s : State) : Finset Nat := (s.slots.map Prod.fst).toFinset

theorem State.mem_keys {s : State} (hwf : assocWf s.slots) (i : Nat) :
    i ∈ s.keys ↔ s.allocated i = true := by
  rw [State.allocated, Option.isSome_iff_exists, State.keys, List.mem_toFinset]
  constructor
  · intro h
    obtain ⟨⟨_, b⟩, hmem, rfl⟩ := List.mem_map.mp h
    exact ⟨b, assocGet_of_mem hwf hmem⟩
  · rintro ⟨b, hb⟩
    exact List.mem_map.mpr ⟨_, mem_of_assocGet hb, rfl⟩

/-- `PT_NALLOC` counts the allocated slots, R37. -/
theorem State.card_keys {s : State} (hwf : assocWf s.slots) : s.keys.card = s.nalloc := by
  have hnodup : (s.slots.map Prod.fst).Nodup :=
    List.pairwise_map.mpr (hwf.imp Nat.ne_of_lt)
  rw [State.keys, List.toFinset_card_of_nodup hnodup, List.length_map, State.nalloc]

theorem State.Inv.wf {s : State} (hinv : s.Inv) : assocWf s.slots := hinv.store.1.1

theorem State.Inv.slot_wf {s : State} (hinv : s.Inv) {i : Nat} {b : Block} (h : s.slot i = some b) :
    i < s.ptBcount.toNat ∧ Block.wf s.ptBbytes.toNat b :=
  hinv.store.1.2 _ (mem_of_assocGet h)

theorem State.Inv.slot_of_le {s : State} (hinv : s.Inv) {i : Nat} (h : s.ptBcount.toNat ≤ i) :
    s.slot i = none :=
  Option.eq_none_iff_forall_not_mem.mpr fun _ hb => absurd (hinv.slot_wf hb).1 (Nat.not_lt.mpr h)

theorem State.Inv.lt_of_mem_keys {s : State} (hinv : s.Inv) {i : Nat} (h : i ∈ s.keys) :
    i < s.ptBcount.toNat := by
  obtain ⟨b, hb⟩ := Option.isSome_iff_exists.mp ((State.mem_keys hinv.wf i).mp h)
  exact (hinv.slot_wf hb).1

/-! ### The records of a table, R182 -/

/-- What a dump says of each block in order. -/
def State.records (s : State) : List Record :=
  (List.range s.ptBcount.toNat).map fun i => (s.slot i).map fun b => b.toBytes s.ptBbytes.toNat

@[simp] theorem State.length_records (s : State) : s.records.length = s.ptBcount.toNat := by
  simp [State.records]

theorem State.getD_records (s : State) {i : Nat} (hi : i < s.ptBcount.toNat) :
    s.records.getD i none = (s.slot i).map fun b => b.toBytes s.ptBbytes.toNat := by
  simp [State.records, List.getD_eq_getElem?_getD, hi]

theorem State.length_of_mem_records {s : State} {d : List Byte} (h : some d ∈ s.records) :
    d.length = s.ptBbytes.toNat := by
  obtain ⟨i, _, hi⟩ := List.mem_map.mp h
  obtain ⟨b, _, rfl⟩ := Option.map_eq_some_iff.mp hi
  exact b.length_toBytes _

theorem State.Inv.mem_keys_of_record {s : State} (hinv : s.Inv) {i : Nat}
    (h : s.records.getD i none ≠ none) : i ∈ s.keys := by
  by_cases hi : i < s.ptBcount.toNat
  · rw [s.getD_records hi, ne_eq, Option.map_eq_none_iff] at h
    exact (State.mem_keys hinv.wf i).mpr ((s.allocated_iff i).mpr h)
  · exact absurd (List.getD_eq_default _ _ (by simpa using hi)) h

theorem mem_of_getD_eq_some {rs : List Record} {i : Nat} {d : List Byte}
    (h : rs.getD i none = some d) : some d ∈ rs := by
  rw [List.getD_eq_getElem?_getD, Option.getD_eq_iff] at h
  rcases h with h | ⟨_, h⟩
  · exact List.mem_of_getElem? h
  · cases h

theorem contentBytes_none (n : Nat) (rs : List Record) :
    contentBytes n (none :: rs) = contentBytes n rs := rfl

theorem contentBytes_some (n : Nat) (d : List Byte) (rs : List Record) :
    contentBytes n (some d :: rs) = contentBytes n rs + n := Nat.succ_mul _ _

theorem length_flatMap_bytes {n : Nat} : ∀ {rs : List Record},
    (∀ d, some d ∈ rs → d.length = n) →
    (rs.flatMap Record.bytes).length = rs.length + contentBytes n rs
  | [], _ => by simp [contentBytes]
  | none :: rs, h => by
    have ih := length_flatMap_bytes fun d hd => h d (List.mem_cons_of_mem _ hd)
    simp only [List.flatMap_cons, List.length_append, ih, Record.bytes, contentBytes_none,
      List.length_cons, List.length_nil]
    omega
  | some d :: rs, h => by
    have ih := length_flatMap_bytes fun d hd => h d (List.mem_cons_of_mem _ hd)
    simp only [List.flatMap_cons, List.length_append, ih, Record.bytes, contentBytes_some,
      List.length_cons, h d List.mem_cons_self]
    omega

theorem contentBytes_le (n : Nat) (rs : List Record) : contentBytes n rs ≤ rs.length * n :=
  Nat.mul_le_mul_right n (List.length_filter_le _ _)

/-- The content count of a shape's records does not wrap in `RESULT`, R34. -/
theorem State.Inv.contentBytes_lt {s : State} (hinv : s.Inv) (hp : s.ptrdy = true)
    {rs : List Record} (hlen : rs.length = s.ptBcount.toNat) :
    contentBytes s.ptBbytes.toNat rs < 2 ^ 64 := by
  have hcount := hinv.ptBcount_le hp
  have hbytes := s.ptBbytes.isLt
  calc contentBytes s.ptBbytes.toNat rs
      ≤ rs.length * s.ptBbytes.toNat := contentBytes_le _ _
    _ ≤ 10 ^ 4 * 2 ^ 32 := Nat.mul_le_mul (hlen ▸ hcount) hbytes.le
    _ < 2 ^ 64 := by decide

theorem State.contentBytes_records (s : State) :
    contentBytes s.ptBbytes.toNat s.records = s.imageContent := by
  simp only [contentBytes, State.imageContent, State.records, List.filter_map, List.length_map]
  congr 3
  funext i
  simp [State.allocated]

theorem State.image_eq (s : State) : s.image =
    headerBytes s.ptBcount.toNat s.ptBbytes.toNat ++ s.records.flatMap Record.bytes := by
  rw [State.image, imageHeader_eq, State.records, List.flatMap_map]
  congr 2
  funext i
  cases s.slot i <;> rfl

/-- The image depends on the slots and the shape only. -/
theorem State.image_congr {s t : State} (hslots : t.slots = s.slots)
    (hcount : t.ptBcount = s.ptBcount) (hbytes : t.ptBbytes = s.ptBbytes) :
    t.image = s.image ∧ t.imageContent = s.imageContent := by
  rw [State.image_eq, State.image_eq, ← State.contentBytes_records, ← State.contentBytes_records]
  simp only [State.records, State.slot, hslots, hcount, hbytes, and_self]

/-- The content count of an image, by the number of allocated blocks, R183 R188. -/
theorem State.Inv.imageContent_eq {s : State} (hinv : s.Inv) :
    s.imageContent = s.nalloc * s.ptBbytes.toNat := by
  have hkeys : ((List.range s.ptBcount.toNat).filter s.allocated).toFinset = s.keys := by
    ext i
    simp only [List.mem_toFinset, List.mem_filter, List.mem_range, State.mem_keys hinv.wf,
      and_iff_right_iff_imp]
    exact fun h => hinv.lt_of_mem_keys ((State.mem_keys hinv.wf i).mpr h)
  rw [State.imageContent, ← State.card_keys hinv.wf, ← hkeys,
    List.toFinset_card_of_nodup (List.nodup_range.filter _)]

/-! ### PTDUMP, R183 -/

theorem exec_ptdump_of_no_table {s : State} (hp : s.ptrdy = false) :
    exec .ptdump s = .next (s.report 4 0 0 0 0 0) := by
  rw [exec, execPtdump, if_pos (by simp [hp]), State.raise_state_of_no_table hp]

theorem exec_ptdump_of_table {s : State} (hp : s.ptrdy = true) :
    exec .ptdump s = .next (State.ok { s with
      snk := s.snk ++ s.image, result := BitVec.ofNat 64 s.imageContent }) := by
  rw [exec, execPtdump, if_neg (by simp [hp])]
  rfl

/-- Settles O51: the records are those of `State.records`. -/
theorem ptdumpAppendsTheImageOrReports : Obligations.PtdumpAppendsTheImageOrReports := by
  refine fun s => ⟨exec_ptdump_of_no_table, fun hp => ⟨s.records, rfl, ?_⟩⟩
  rw [List.append_assoc, ← s.image_eq, s.contentBytes_records]
  exact exec_ptdump_of_table hp

/-- Settles O52: the allocated indices below `PT_BCOUNT` are all of them
(`State.Inv.imageContent_eq`). -/
theorem imageLengthCountsTheAllocatedBlocks : Obligations.ImageLengthCountsTheAllocatedBlocks := by
  intro s hinv hp
  have hcontent : contentBytes s.ptBbytes.toNat s.records = s.nalloc * s.ptBbytes.toNat :=
    s.contentBytes_records.trans hinv.imageContent_eq
  refine ⟨_, exec_ptdump_of_table hp, ?_, ?_⟩
  · simp only [State.ok_snk, s.image_eq, List.length_append, header_len,
      length_flatMap_bytes fun _ => State.length_of_mem_records, State.length_records, hcontent]
    omega
  · rw [State.ok_result, hinv.imageContent_eq]
    exact Nat.mod_eq_of_lt (hcontent ▸ hinv.contentBytes_lt hp s.length_records)

/-! ### How PTLOAD ends, R184 R185 -/

theorem exec_ptload_error {s t : State} {e : CmdError} (hp : s.ptrdy = true)
    (h : s.load = .error (t, e)) : exec .ptload s = .next (t.raise e) := by
  rw [exec, execPtload, if_neg (by simp [hp]), h]

theorem exec_ptload_ok {s t : State} {count : Nat} (hp : s.ptrdy = true)
    (h : s.load = .ok (t, count)) : exec .ptload s = .next (t.putCount count).succeed := by
  rw [exec, execPtload, if_neg (by simp [hp]), h]

theorem State.load_of_cut_header {s : State} (h : s.src.length < 6) :
    s.load = .error (s.withSrc [], .serTrunc 0xFFFFFFFF 6 s.src.length 0) := by
  rw [State.load, State.srcRead_eq, List.take_of_length_le h.le, List.drop_of_length_le h.le]
  exact if_pos h

theorem State.load_of_other_shape {s : State} (h6 : 6 ≤ s.src.length)
    (h : beInt (s.src.take 2) ≠ s.ptBcount.toNat ∨
      beInt ((s.src.drop 2).take 4) ≠ s.ptBbytes.toNat) :
    s.load = .error (s.withSrc (s.src.drop 6),
      .serShape (beInt (s.src.take 2)) (beInt ((s.src.drop 2).take 4))) := by
  have hcount : (s.src.take 6).take 2 = s.src.take 2 := by simp [List.take_take]
  have hbytes : (s.src.take 6).drop 2 = (s.src.drop 2).take 4 := by rw [List.drop_take]
  simp only [State.load, State.srcRead_eq, hcount, hbytes, if_pos h]
  exact if_neg (by simp [h6])

/-- Settles O53: the load ends in the header, before the first record. -/
theorem ptloadRefusesABadHeader : Obligations.PtloadRefusesABadHeader := by
  refine fun s => ⟨fun hp => ?_, fun hp hlen => ?_, fun hp hlen hshape => ?_⟩
  · rw [exec, execPtload, if_pos (by simp [hp]), State.raise_state_of_no_table hp]
  · exact exec_ptload_error hp (State.load_of_cut_header hlen)
  · exact exec_ptload_error hp (State.load_of_other_shape hlen hshape)

/-! ### The record PTLOAD stops at, R185 R187 -/

theorem State.loadRecord_end (s : State) (i : Nat) :
    (s.withSrc []).loadRecord i = .error (s.withSrc [], .serTrunc i 1 0 1) := rfl

theorem State.loadRecord_badflag (s : State) (i : Nat) {f : Byte} (rest : List Byte) (h0 : f ≠ 0)
    (h1 : f ≠ 1) :
    (s.withSrc (f :: rest)).loadRecord i = .error (s.withSrc rest, .serBadflag i f) := by
  simp only [State.loadRecord, State.srcRead_eq, State.withSrc_src, State.withSrc_withSrc,
    List.take_succ_cons, List.take_zero, List.drop_succ_cons, List.drop_zero]
  rw [if_neg h0, if_neg h1]

theorem State.loadRecord_cut {s : State} (i : Nat) {d : List Byte}
    (hd : d.length < s.ptBbytes.toNat) :
    (s.withSrc (1 :: d)).loadRecord i =
      .error (s.withSrc [], .serTrunc i s.ptBbytes.toNat d.length 2) := by
  simp [State.loadRecord, State.srcRead_eq, hd, List.take_of_length_le hd.le,
    List.drop_of_length_le hd.le]

theorem State.loadRecord_full {s : State} {i : Nat} {d : List Byte} (rest : List Byte)
    (hd : d.length = s.ptBbytes.toNat) (hs : s.slot i = none) (hr : ¬ s.HasRoom) :
    (s.withSrc (1 :: (d ++ rest))).loadRecord i = .error (s.withSrc rest, .nomem i) := by
  have hfull : (s.withSrc rest).roomForBlock = false :=
    Bool.eq_false_iff.mpr fun h => hr ((s.withSrc rest).roomForBlock_iff.mp h)
  simp [State.loadRecord, State.srcRead_eq, List.take_left' hd, List.drop_left' hd, hd,
    State.allocated, hs, hfull]

/-! ### PTLOAD after the records it could assign, R184 -/

/-- Assigning records changes the slots only. -/
theorem State.assignRecords_frame {s t : State} {i : Nat} {rs : List Record}
    (h : s.assignRecords i rs = some t) : t = { s with slots := t.slots } :=
  (State.assignRecords_slots rs i s t h).1

/-- Where a load stands once it has assigned `rs`. -/
theorem State.load_after {s t : State} {rs : List Record} {tail : List Byte} (hinv : s.Inv)
    (hp : s.ptrdy = true) (hlen : rs.length ≤ s.ptBcount.toNat)
    (hd : ∀ d, some d ∈ rs → d.length = s.ptBbytes.toNat) (h : s.assignRecords 0 rs = some t)
    (hsrc : s.src =
      headerBytes s.ptBcount.toNat s.ptBbytes.toNat ++ rs.flatMap Record.bytes ++ tail) :
    s.load = State.loadRecords (s.ptBcount.toNat - rs.length) rs.length
      (contentBytes s.ptBbytes.toNat rs) (t.withSrc tail) := by
  have hcount : s.ptBcount.toNat < 65536 := Nat.lt_of_le_of_lt (hinv.ptBcount_le hp) (by decide)
  rw [State.load_header (hsrc.trans (List.append_assoc ..)) hcount,
    State.loadRecords_assign rs _ 0 0 s t tail hlen hd h, Nat.zero_add, Nat.zero_add]

/-- A load whose records are all there succeeds. -/
theorem exec_ptload_of_all {s t : State} {rs : List Record} {tail : List Byte} (hinv : s.Inv)
    (hp : s.ptrdy = true) (hlen : rs.length = s.ptBcount.toNat)
    (hd : ∀ d, some d ∈ rs → d.length = s.ptBbytes.toNat) (h : s.assignRecords 0 rs = some t)
    (hsrc : s.src =
      headerBytes s.ptBcount.toNat s.ptBbytes.toNat ++ rs.flatMap Record.bytes ++ tail) :
    exec .ptload s = .next (State.ok { t with
      src := tail, result := BitVec.ofNat 64 (contentBytes s.ptBbytes.toNat rs) }) := by
  refine exec_ptload_ok (t := t.withSrc tail) hp ?_
  rw [State.load_after hinv hp hlen.le hd h hsrc, hlen, Nat.sub_self, State.loadRecords]

/-- The loop ends at the first record it cannot assign. -/
theorem State.loadRecords_of_error {n i c : Nat} {s : State} {e : State × CmdError} (hn : 0 < n)
    (h : s.loadRecord i = .error e) : State.loadRecords n i c s = .error e := by
  obtain ⟨n, rfl⟩ := Nat.exists_eq_succ_of_ne_zero hn.ne'
  rw [State.loadRecords, h]

/-- Settles O54: the load stands behind `rs` (`State.load_after`), and either the loop is at its end
or its next record gives the error (`State.loadRecords_of_error`). -/
theorem ptloadAssignsRecordsUpToTheFirstFailure :
    Obligations.PtloadAssignsRecordsUpToTheFirstFailure := by
  intro s t rs tail hinv hp hlen hd hassign hsrc blk
  obtain ⟨hframe, hslot⟩ := State.assignRecords_slots rs 0 s t hassign
  have hbytes : t.ptBbytes = s.ptBbytes := by rw [hframe]
  have hload := State.load_after hinv hp hlen hd hassign hsrc
  refine ⟨fun j => ⟨fun hj => ?_, fun hj => ?_⟩, hframe,
    fun hall => exec_ptload_of_all hinv hp hall hd hassign hsrc, fun hmore => ?_⟩
  · rw [hslot, if_pos ⟨j.zero_le, by omega⟩, Nat.sub_zero]
  · rw [hslot, if_neg (by omega)]
  · have hstop {u : State} {e : CmdError}
        (h : (t.withSrc tail).loadRecord rs.length = .error (u, e)) :
        exec .ptload s = .next (u.raise e) :=
      exec_ptload_error hp (hload.trans (State.loadRecords_of_error (Nat.sub_pos_of_lt hmore) h))
    refine ⟨?_, ?_, ?_, ?_⟩
    · rintro rfl
      exact hstop (t.loadRecord_end _)
    · rintro f rest rfl h0 h1
      exact hstop (t.loadRecord_badflag _ rest h0 h1)
    · rintro d rfl hshort
      have hexpected : BitVec.ofNat 32 t.ptBbytes.toNat = s.ptBbytes := by
        rw [BitVec.ofNat_toNat, BitVec.setWidth_eq, hbytes]
      rw [hstop (State.loadRecord_cut _ (hbytes ▸ hshort)), State.raise_serTrunc, hexpected]
      rfl
    · rintro d rest rfl hwhole hnone hfull
      exact hstop (State.loadRecord_full rest (hwhole.trans (congrArg _ hbytes.symm)) hnone hfull)

/-! ### When every record can be assigned, R163 R184 -/

/-- A state whose allocated indices lie in a set the limit holds has room for one more of it. -/
theorem State.roomForBlock_of_keys {s : State} {U : Finset Nat} {i : Nat} (hwf : assocWf s.slots)
    (hlimit : ∀ m, s.cfg.ptMaxAlloc = some m → U.card ≤ m) (hsub : s.keys ⊆ U) (hi : i ∈ U)
    (hnew : s.allocated i = false) : s.roomForBlock = true := by
  have hmem : i ∉ s.keys := by simp [State.mem_keys hwf, hnew]
  have hssub : s.keys ⊂ U := (Finset.ssubset_iff_of_subset hsub).mpr ⟨i, hi, hmem⟩
  have hlt : s.nalloc < U.card := State.card_keys hwf ▸ Finset.card_lt_card hssub
  exact s.roomForBlock_iff.mpr fun m hm => hlt.trans_le (hlimit m hm)

theorem State.keys_setSlot {s : State} (hwf : assocWf s.slots) (i : Nat) (b : Block) :
    (s.setSlot i b).keys ⊆ insert i s.keys := by
  intro j hj
  rw [State.mem_keys (assocWf_put hwf i b), State.allocated, State.slot_setSlot] at hj
  rw [Finset.mem_insert, State.mem_keys hwf, State.allocated]
  split at hj
  · exact .inl ‹_›
  · exact .inr hj

theorem State.keys_clearSlot (s : State) (i : Nat) : (s.clearSlot i).keys ⊆ s.keys := by
  intro j hj
  obtain ⟨p, hmem, rfl⟩ := List.mem_map.mp (List.mem_toFinset.mp hj)
  exact List.mem_toFinset.mpr (List.mem_map.mpr ⟨p, mem_assocErase hmem, rfl⟩)

/-- Records can all be assigned when the limit holds a set of indices that has every allocated block
and every record with flag 1: no state on the way has more blocks than that. -/
theorem State.assignRecords_of_limit {U : Finset Nat} {m : Option Nat}
    (hlimit : ∀ k, m = some k → U.card ≤ k) :
    ∀ (rs : List Record) (i : Nat) (s : State), s.cfg.ptMaxAlloc = m → assocWf s.slots →
      s.keys ⊆ U → (∀ j, rs.getD j none ≠ none → i + j ∈ U) →
      ∃ t, s.assignRecords i rs = some t ∧ assocWf t.slots
  | [], _, s, _, hwf, _, _ => ⟨s, rfl, hwf⟩
  | none :: rs, i, s, hm, hwf, hsub, hrs => by
    refine State.assignRecords_of_limit hlimit rs (i + 1) (s.clearSlot i) hm (assocWf_erase hwf i)
      ((s.keys_clearSlot i).trans hsub) fun j hj => ?_
    rw [Nat.add_right_comm]
    exact hrs (j + 1) hj
  | some d :: rs, i, s, hm, hwf, hsub, hrs => by
    have hi : i ∈ U := hrs 0 nofun
    have hroom : (s.allocated i || s.roomForBlock) = true := by
      cases hnew : s.allocated i with
      | true => rfl
      | false => exact State.roomForBlock_of_keys hwf (hm ▸ hlimit) hsub hi hnew
    rw [State.assignRecords, if_pos hroom]
    refine State.assignRecords_of_limit hlimit rs (i + 1) _ hm (assocWf_put hwf i _)
      ((State.keys_setSlot hwf i _).trans (Finset.insert_subset hi hsub)) fun j hj => ?_
    rw [Nat.add_right_comm]
    exact hrs (j + 1) hj

/-- The slots after every record of the shape was assigned. -/
theorem State.Inv.slot_assignRecords {s t : State} {rs : List Record} (hinv : s.Inv)
    (hlen : rs.length = s.ptBcount.toNat) (h : s.assignRecords 0 rs = some t) (j : Nat) :
    t.slot j = (rs.getD j none).map Block.ofBytes := by
  rw [(State.assignRecords_slots rs 0 s t h).2]
  by_cases hj : j < rs.length
  · rw [if_pos ⟨j.zero_le, by omega⟩, Nat.sub_zero]
  · rw [if_neg (by omega), hinv.slot_of_le (by omega), List.getD_eq_default _ _ (by omega)]
    rfl

/-- Settles O55: the indices below `PT_BCOUNT` are the set the limit holds
(`State.assignRecords_of_limit`). -/
theorem ptloadOfAWholeImageAssignsEverySlot : Obligations.PtloadOfAWholeImageAssignsEverySlot := by
  intro s rs tail hinv hp hlen hd hlimit hsrc
  obtain ⟨t, hassign, _⟩ := State.assignRecords_of_limit (U := Finset.range s.ptBcount.toNat)
    (by simpa using hlimit) rs 0 s rfl hinv.wf
    (fun i hi => Finset.mem_range.mpr (hinv.lt_of_mem_keys hi)) (fun j hj => by
      rw [Nat.zero_add, Finset.mem_range, ← hlen]
      by_contra hout
      exact hj (List.getD_eq_default _ _ (Nat.not_lt.mp hout)))
  refine ⟨_, exec_ptload_of_all hinv hp hlen hd hassign hsrc, fun j => ?_, ?_, rfl, ?_⟩
  · change (t.slot j).map (fun b => b.toBytes s.ptBbytes.toNat) = rs.getD j none
    rw [hinv.slot_assignRecords hlen hassign]
    cases hj : rs.getD j none with
    | none => rfl
    | some d => exact congrArg some (hd d (mem_of_getD_eq_some hj) ▸ Block.toBytes_ofBytes d)
  · exact Nat.mod_eq_of_lt (hinv.contentBytes_lt hp hlen)
  · rw [State.assignRecords_frame hassign]
    rfl

/-! ### The round trip, R186 -/

/-- Loading a table's records gives its slots, whatever the loading table held. -/
theorem State.Inv.slots_of_records {s s' t : State} (hinv : s.Inv) (hinv' : s'.Inv)
    (hcount : s'.ptBcount = s.ptBcount) (h : s'.assignRecords 0 s.records = some t)
    (hwf : assocWf t.slots) : t.slots = s.slots := by
  refine assoc_ext hwf hinv.wf fun j => ?_
  have hslot : t.slot j = (s.records.getD j none).map Block.ofBytes :=
    hinv'.slot_assignRecords (by rw [s.length_records, hcount]) h j
  refine hslot.trans ?_
  by_cases hj : j < s.ptBcount.toNat
  · rw [s.getD_records hj]
    change _ = s.slot j
    cases hb : s.slot j with
    | none => rfl
    | some b => exact congrArg some (Block.ofBytes_toBytes (hinv.slot_wf hb).2)
  · rw [List.getD_eq_default _ _ (by simpa using hj)]
    exact (hinv.slot_of_le (Nat.not_lt.mp hj)).symm

/-- Settles O56: the blocks of both tables are the set the limit holds
(`State.assignRecords_of_limit`), and PTDUMP sees the shape and the slots only. -/
theorem dumpThenLoadReproducesTheTable : Obligations.DumpThenLoadReproducesTheTable := by
  intro s s' t image hinv hinv' hp hp' hcount hbytes hlimit hdump hsnk hsrc
  obtain rfl := Host.Outcome.next.inj ((exec_ptdump_of_table hp).symm.trans hdump)
  obtain rfl : s.image = image := List.append_cancel_left hsnk
  have hcard : (s.keys ∪ s'.keys).card ≤ s.nalloc + s'.nalloc :=
    State.card_keys hinv.wf ▸ State.card_keys hinv'.wf ▸ Finset.card_union_le _ _
  obtain ⟨v, hassign, hwf⟩ := State.assignRecords_of_limit
    (fun m hm => hcard.trans (hlimit m hm)) s.records 0 s' rfl hinv'.wf Finset.subset_union_right
    fun j hj => Finset.mem_union_left _ ((Nat.zero_add j).symm ▸ hinv.mem_keys_of_record hj)
  have hload := exec_ptload_of_all (tail := []) hinv' hp' (by rw [s.length_records, hcount])
    (by rw [hbytes]; exact fun _ => State.length_of_mem_records) hassign
    (by rw [hsrc, hcount, hbytes, List.append_nil, s.image_eq])
  have hslots : v.slots = s.slots := hinv.slots_of_records hinv' hcount hassign hwf
  rw [State.assignRecords_frame hassign, hslots] at hload
  have hresult : contentBytes s'.ptBbytes.toNat s.records = s.imageContent := by
    rw [hbytes, s.contentBytes_records]
  rw [hresult] at hload
  obtain ⟨himage, hcontent⟩ := State.image_congr (s := s) (t := State.ok { s' with
    slots := s.slots, src := [], result := BitVec.ofNat 64 s.imageContent }) rfl hcount hbytes
  exact ⟨_, _, hload, rfl, exec_ptdump_of_table hp', congrArg (s'.snk ++ ·) himage,
    congrArg (BitVec.ofNat 64) hcontent⟩

end Sys2Proof.Machine
end

/-! # Proofs of the exceptions family (60_exceptions.md)

Where a command takes its error: before any other write, or, for PTLOAD only, after some records of
the image. The table commands look for a table before they look at an operand. -/

section
namespace Sys2Proof.Machine

/-! ### The first check of a table command, R205 -/

/-- Settles O39: the first clause of what each of the six commands does. -/
theorem tableCommandsNeedATable : Obligations.TableCommandsNeedATable := by
  intro s i hi hp
  obtain ⟨hptalloc, -⟩ := ptallocAllocatesOneBlockOrReports s
  obtain ⟨hpttest, -⟩ := pttestReadsTheBitOrReports s
  obtain ⟨hptset, -⟩ := ptsetSetsOneBitOrReports s
  obtain ⟨hpttas, -⟩ := pttasTestsAndSetsOrReports s
  obtain ⟨hptload, -⟩ := ptloadRefusesABadHeader s
  cases i
  case ptalloc => exact hptalloc hp
  case pttest => exact hpttest hp
  case ptset => exact hptset hp
  case pttas => exact hpttas hp
  case ptdump => exact exec_ptdump_of_no_table hp
  case ptload => exact hptload hp
  all_goals simp at hi

theorem exec_of_no_table {s : State} {i : Instr}
    (hi : i ∈ [Instr.ptalloc, .pttest, .ptset, .pttas, .ptdump, .ptload]) (hp : s.ptrdy = false) :
    exec i s = .next (s.raise .state) := by
  rw [State.raise_state_of_no_table hp]
  exact tableCommandsNeedATable s i hi hp

/-! ### Where an error is taken, R204 -/

/-- Every command but PTLOAD makes its checks before it writes: an error is raised in the state the
command was issued in. -/
theorem exec_checks_before_writing {i : Instr} (hi : i ≠ .ptload) (s : State) :
    ∃ (e : Option CmdError) (u : State), exec i s = .next (e.elim u.succeed s.raise) := by
  cases i with
  | modpow =>
    by_cases hmod : s.mpMod = 0
    · exact ⟨some .modzero, s, exec_modpow_of_eq_zero hmod⟩
    · exact ⟨none, _, exec_modpow_of_ne_zero hmod⟩
  | enckey => exact ⟨none, _, exec_enckey s⟩
  | aescbc => exact ⟨_, _, exec_aescbc s⟩
  | dblenc => exact ⟨_, _, exec_dblenc s⟩
  | keygen => exact ⟨none, _, exec_keygen s⟩
  | encrypt g => exact ⟨_, _, exec_encrypt g s⟩
  | ptinit =>
    cases hp : s.ptrdy with
    | true => exact ⟨some .state, s, exec_ptinit_of_table hp⟩
    | false =>
      rw [exec_ptinit_of_no_table hp]
      split_ifs
      · exact ⟨none, _, rfl⟩
      · exact ⟨some .shape, s, rfl⟩
  | ptalloc => exact ⟨_, _, exec_ptalloc s⟩
  | pttest => exact ⟨_, _, exec_pttest s⟩
  | ptset => exact ⟨_, _, exec_ptset s⟩
  | pttas => exact ⟨_, _, exec_pttas s⟩
  | ptdump =>
    cases hp : s.ptrdy with
    | false => exact ⟨some .state, s, exec_of_no_table (by simp) hp⟩
    | true => exact ⟨none, _, exec_ptdump_of_table hp⟩
  | ptload => exact absurd rfl hi

/-- PTLOAD raises its error in a state in which only the slots and `SRC` can differ, R185. -/
theorem exec_ptload_cases (s : State) :
    (∃ u e, s.Loaded u ∧ exec .ptload s = .next (u.raise e)) ∨
      ∃ u : State, exec .ptload s = .next u.succeed := by
  cases hp : s.ptrdy with
  | false => exact .inl ⟨s, .state, ⟨_, _, rfl⟩, exec_of_no_table (by simp) hp⟩
  | true =>
    have hloaded := s.loaded_load
    cases hload : s.load with
    | error p =>
      rw [hload] at hloaded
      exact .inl ⟨p.1, p.2, hloaded, exec_ptload_error hp hload⟩
    | ok p => exact .inr ⟨_, exec_ptload_ok hp hload⟩

/-- Settles O57: a command that ends with an error code did not succeed, so it ends in the report
of the state it raised the error in. -/
theorem errorsArePrecise : Obligations.ErrorsArePrecise := by
  refine fun s t i h herr => ⟨fun hi => ?_, fun hi => ?_⟩
  · obtain ⟨e, u, hends⟩ := exec_checks_before_writing hi s
    obtain rfl := Host.Outcome.next.inj (hends.symm.trans h)
    cases e with
    | none => exact absurd u.succeed_err herr
    | some e => rfl
  · subst hi
    rcases exec_ptload_cases s with ⟨u, e, ⟨l, r, rfl⟩, hends⟩ | ⟨u, hends⟩
    · obtain rfl := Host.Outcome.next.inj (hends.symm.trans h)
      rfl
    · obtain rfl := Host.Outcome.next.inj (hends.symm.trans h)
      exact absurd u.succeed_err herr

end Sys2Proof.Machine
end

/-! # Proofs of the reset and hazards family (70_reset_and_hazards.md)

Every host action completes, and every one but the reset event keeps a table that exists and its
shape. -/

section
namespace Sys2Proof.Machine

/-! ### Every action completes, R234 -/

/-- Every host action ends in a next state: the only one that runs a command is a write, which
is refused by the port or accepted. -/
theorem perform_next (act : HostAction) (s : State) : ∃ t, perform act s = .next t := by
  cases act with
  | memRead a => exact ⟨_, rfl⟩
  | memWrite a v =>
    by_cases hbad : a.toNat % 4 ≠ 0 ∨ ¬ Mapped s.cfg a.toNat ∨ ¬ Writable s a.toNat
    · exact ⟨_, perform_memWrite_busError v hbad⟩
    · obtain ⟨t, ht, _⟩ := perform_memWrite_accepted v hbad
      exact ⟨t, ht⟩
  | srcSupply bytes => exact ⟨_, perform_srcSupply s bytes⟩
  | snkTake => exact ⟨_, perform_snkTake s⟩
  | reset => exact ⟨_, rfl⟩

/-- Without a pending host action the device idles, log 1. -/
theorem step_idle {s : State} (h : s.pending = []) : step s = .next s := by
  simp only [step, stepHost, h]

/-- Settles O8: a step idles or performs the oldest pending action. -/
theorem everyStepCompletes : Obligations.EveryStepCompletes := by
  refine ⟨fun s => ?_, fun s => step_idle⟩
  cases hp : s.pending with
  | nil => exact ⟨s, step_idle hp⟩
  | cons act rest =>
    obtain ⟨t, ht⟩ := perform_next act (s.popAction rest)
    exact ⟨t, (step_pending hp).trans ht⟩

/-! ### What keeps a table and its shape, R35 R230 -/

/-- Whether a table exists, and the registers of its shape. -/
def State.tableRegs (s : State) : Bool × Word × Word × Word × DWord × Word :=
  (s.ptrdy, s.ptLength, s.ptSprefix, s.ptBcount, s.ptBbits, s.ptBbytes)

theorem State.tableRegs_eq_iff {s t : State} : t.tableRegs = s.tableRegs ↔
    t.ptrdy = s.ptrdy ∧ t.ptLength = s.ptLength ∧ t.ptSprefix = s.ptSprefix ∧
      t.ptBcount = s.ptBcount ∧ t.ptBbits = s.ptBbits ∧ t.ptBbytes = s.ptBbytes := by
  simp only [State.tableRegs, Prod.mk.injEq]

@[simp] theorem State.tableRegs_respond (s : State) (r : Response) :
    (s.respond r).tableRegs = s.tableRegs := rfl

@[simp] theorem State.tableRegs_raise (s : State) (e : CmdError) :
    (s.raise e).tableRegs = s.tableRegs := rfl

/-- PTINIT alone writes these registers, and it is refused when a table exists, R161. -/
theorem exec_keeps_tableRegs {s t : State} {i : Instr} (hready : s.ptrdy = true)
    (h : exec i s = .next t) : t.tableRegs = s.tableRegs := by
  by_cases hi : i = .ptinit
  · subst hi
    obtain rfl := Host.Outcome.next.inj ((exec_ptinit_of_table hready).symm.trans h)
    exact s.tableRegs_raise .state
  · obtain ⟨⟨_, _, _, _, _, _, hlength, hsprefix, _⟩, _, _, _, _, _, _, hother, _⟩ :=
      commandsWriteOnlyTheirOwnRegisters s t i h
    obtain ⟨hptrdy, hbcount, hbbits, hbbytes⟩ := hother hi
    exact State.tableRegs_eq_iff.mpr ⟨hptrdy, hlength, hsprefix, hbcount, hbbits, hbbytes⟩

theorem runCommand_keeps_tableRegs {s t : State} {w : Word} (hready : s.ptrdy = true)
    (h : runCommand w s = .next t) : t.tableRegs = s.tableRegs := by
  cases hd : decode w with
  | ok i => exact exec_keeps_tableRegs hready ((runCommand_ok hd s).symm.trans h)
  | error e =>
    simp only [runCommand, hd, Host.Outcome.next.injEq] at h
    exact h ▸ s.tableRegs_raise _

/-- A store reaches none of these registers: the two the host may write before PTINIT are locked
once a table exists, R35. -/
theorem writeLoc_keeps_tableRegs {s t : State} {l : Loc} {v : Word} (hready : s.ptrdy = true)
    (hl : l.Ok s.cfg) (h : s.writeLoc v l = some t) : t.tableRegs = s.tableRegs := by
  have hlocked : l ≠ .ptLength ∧ l ≠ .ptSprefix := by
    constructor <;> rintro rfl <;> simp [State.writeLoc, hready] at h
  obtain ⟨hneLength, hneSprefix⟩ := hlocked
  have hlength : t.ptLength = s.ptLength :=
    Option.some.inj (readLoc_writeLoc_ne hl (m := .ptLength) trivial hneLength.symm h)
  have hsprefix : t.ptSprefix = s.ptSprefix :=
    Option.some.inj (readLoc_writeLoc_ne hl (m := .ptSprefix) trivial hneSprefix.symm h)
  obtain ⟨hframe, _⟩ := writeLoc_frame h
  rw [hframe, hlength, hsprefix]
  rfl

theorem perform_memWrite_keeps_tableRegs {s t : State} {a v : Word} (hready : s.ptrdy = true)
    (h : perform (.memWrite a v) s = .next t) : t.tableRegs = s.tableRegs := by
  by_cases hbad : a.toNat % 4 ≠ 0 ∨ ¬ Mapped s.cfg a.toNat ∨ ¬ Writable s a.toNat
  · obtain rfl := Host.Outcome.next.inj ((perform_memWrite_busError v hbad).symm.trans h)
    exact s.tableRegs_respond _
  · simp only [not_or, not_not] at hbad
    obtain ⟨haligned, _, hw⟩ := hbad
    by_cases h0 : a.toNat = 0
    · obtain rfl : a = 0 := BitVec.eq_of_toNat_eq h0
      obtain ⟨u, hu, _⟩ := runCommand_next v s
      rw [perform_memWrite_cmd, hu] at h
      obtain rfl : u.respond .accepted = t := Host.Outcome.next.inj h
      exact (u.tableRegs_respond _).trans (runCommand_keeps_tableRegs hready hu)
    · obtain ⟨l, u, _, _, hok, _, hu, hperform⟩ := perform_memWrite_store v haligned h0 hw
      obtain rfl := Host.Outcome.next.inj (hperform.symm.trans h)
      exact (u.tableRegs_respond _).trans (writeLoc_keeps_tableRegs hready hok hu)

/-- No host action but the reset event ends a table or changes its shape. -/
theorem perform_keeps_tableRegs {s t : State} {act : HostAction} (hready : s.ptrdy = true)
    (hact : act ≠ .reset) (h : perform act s = .next t) : t.tableRegs = s.tableRegs := by
  cases act with
  | memRead a => obtain rfl := Host.Outcome.next.inj h; exact s.tableRegs_respond _
  | memWrite a v => exact perform_memWrite_keeps_tableRegs hready h
  | srcSupply bytes => obtain rfl := Host.Outcome.next.inj h; rfl
  | snkTake => obtain rfl := Host.Outcome.next.inj h; rfl
  | reset => exact absurd rfl hact

/-- Settles O13: the step idles, or it performs an action other than the reset event. -/
theorem onlyResetEndsATableOrChangesItsShape :
    Obligations.OnlyResetEndsATableOrChangesItsShape := by
  intro s t hready hreset hstep
  have hkept : t.tableRegs = s.tableRegs := by
    cases hp : s.pending with
    | nil =>
      obtain rfl := Host.Outcome.next.inj ((step_idle hp).symm.trans hstep)
      rfl
    | cons act rest =>
      have hact : act ≠ .reset := fun hact => hreset rest (hact ▸ hp)
      rw [step_pending hp] at hstep
      exact perform_keeps_tableRegs (s := s.popAction rest) hready hact hstep
  obtain ⟨hptrdy, hshape⟩ := State.tableRegs_eq_iff.mp hkept
  exact ⟨hptrdy.trans hready, hshape⟩

end Sys2Proof.Machine
end

/-! # Proofs of the whole machine (10_state.md, 43_presence.md, 60_exceptions.md)

The invariant is kept by every named update of the state under that update's own side condition, so
by every command, every host action and every step. -/

section
namespace Sys2Proof.Machine

/-! ### The endings of a command, R203 -/

theorem State.Inv.raise {s : State} (hinv : s.Inv) (e : CmdError) : (s.raise e).Inv :=
  { hinv with report := ⟨e.code_bounds.2, fun h => absurd h e.code_bounds.1⟩ }

theorem State.Inv.succeed {s : State} (hinv : s.Inv) : s.succeed.Inv :=
  { hinv with report := ⟨Nat.zero_le 8, fun _ => ⟨rfl, rfl, rfl, rfl, rfl⟩⟩ }

/-- A command that meets the error `e`, or ends in `u` when there is none. -/
theorem State.Inv.ends {s u : State} {e : Option CmdError} (hinv : s.Inv)
    (hu : e = none → u.Inv) : (e.elim u.succeed s.raise).Inv := by
  cases e with
  | none => exact (hu rfl).succeed
  | some e => exact hinv.raise e

/-! ### Updates of elements the invariant does not look at -/

theorem State.Inv.respond {s : State} (hinv : s.Inv) (r : Response) : (s.respond r).Inv :=
  { hinv with }

theorem State.Inv.withSrc {s : State} (hinv : s.Inv) (r : List Byte) : (s.withSrc r).Inv :=
  { hinv with }

theorem State.Inv.snkWrite {s : State} (hinv : s.Inv) (q : List Byte) : (s.snkWrite q).Inv :=
  { hinv with }

theorem State.Inv.drawKey {s : State} (hinv : s.Inv) : s.drawKey.Inv := by
  obtain ⟨k, _, hdraw⟩ := s.drawKey_cases
  rw [hdraw]
  exact { hinv with }

/-! ### The buffers, R30 R31 -/

/-- A written byte stays written, whatever is written after it. -/
theorem Memory.isSome_read_writeBytes {m : Memory} {x : Nat} (h : (m.read x).isSome = true)
    (a : Nat) (out : List Byte) : ((m.writeBytes a out).read x).isSome = true := by
  rw [Memory.read_writeBytes]
  split
  · next hx => rw [List.getElem?_eq_getElem (by omega)]; rfl
  · exact h

/-- Bytes may be written anywhere in the two buffers. -/
theorem State.Inv.writeBytes {s : State} (hinv : s.Inv) {a : Nat} {out : List Byte}
    (hin : ∀ x, a ≤ x → x < a + out.length → inBuffers s.cfg x) :
    State.Inv { s with mem := s.mem.writeBytes a out } := by
  obtain ⟨hwf, haddr⟩ := hinv.mem
  obtain ⟨hfits, hwritten⟩ := hinv.output
  exact { hinv with
    mem := ⟨Memory.wf_writeBytes hwf a out, fun p hp => (Memory.mem_writeBytes hp).elim
      (fun ⟨hlo, hhi⟩ => hin p.1 hlo hhi) (haddr p)⟩
    output := ⟨hfits, fun i hi => Memory.isSome_read_writeBytes (hwritten i hi) a out⟩ }

/-- An output that fits `OBUF` is listed there and written up to its length, R31. -/
theorem State.Inv.putOutput {s : State} (hinv : s.Inv) {out : List Byte} {n : Nat}
    (hlen : out.length = n) (hn : n ≤ s.cfg.obufCap) : (s.putOutput out n).Inv := by
  obtain ⟨_, holen, hread, _⟩ := s.putOutput_stores hlen hn
  have hbuf := hinv.writeBytes (a := obufBase) (out := out) fun x hlo hhi => .inr ⟨hlo, by omega⟩
  exact { hbuf with
    output := ⟨holen.trans_le hn, fun i hi => by
      have hi : i < n := holen ▸ hi
      have hbyte : (s.putOutput out n).mem.read (obufBase + i) = out[i]? := hread i hi
      rw [hbyte, List.getElem?_eq_getElem (hlen ▸ hi)]
      rfl⟩ }

theorem State.Inv.encryptInput {s : State} (hinv : s.Inv) {n : Nat}
    (hn : dlen n ≤ s.cfg.obufCap) : (s.encryptInput n).Inv :=
  hinv.putOutput (length_doubleEncrypt_input s n) hn

/-- A command that passes its LEN check has room for its output, R135. -/
theorem State.le_obufCap_of_lenCheck {s : State} {L : Nat → Nat} (h : s.lenCheck L = none) :
    L s.ilen.toNat ≤ s.cfg.obufCap := by
  rcases s.lenCheck_cases L with ⟨_, hcheck⟩ | ⟨_, _, hcheck⟩ | ⟨_, hroom, _⟩
  · cases hcheck.symm.trans h
  · cases hcheck.symm.trans h
  · exact hroom

/-! ### `ESK` and `RESULT`, R25 R34 -/

theorem State.Inv.encodeKey {s : State} (hinv : s.Inv) : s.encodeKey.Inv := by
  obtain ⟨hresult, _⟩ := hinv.values
  have hesk : s.encodeKey.esk.toNat < s.cfg.nModulus := by
    rw [s.encodeKey_esk_toNat]
    exact modPow_lt _ _ (nModulus_pos s.cfg)
  exact { hinv with values := ⟨hresult, hesk⟩ }

theorem State.Inv.putCount {s : State} (hinv : s.Inv) {n : Nat} (hn : n ≤ 12500000000000) :
    (s.putCount n).Inv := by
  obtain ⟨_, hesk⟩ := hinv.values
  have hresult : (BitVec.ofNat 64 n).toNat ≤ n := (BitVec.toNat_ofNat ..).trans_le (Nat.mod_le ..)
  exact { hinv with values := ⟨hresult.trans hn, hesk⟩ }

theorem State.Inv.putBool {s : State} (hinv : s.Inv) (b : Bool) : (s.putBool b).Inv := by
  cases b with
  | false => exact hinv.putCount (n := 0) (by decide)
  | true => exact hinv.putCount (n := 1) (by decide)

/-! ### The shape, R160 R161 -/

/-- The registers of a table's shape. -/
theorem State.Inv.shape_of_table {s : State} (hinv : s.Inv) (hp : s.ptrdy = true) :
    s.ptSprefix.toNat ≤ 4 ∧ s.ptSprefix.toNat ≤ s.ptLength.toNat ∧
      s.ptLength.toNat - s.ptSprefix.toNat ≤ 10 ∧
      s.ptBcount.toNat = 10 ^ s.ptSprefix.toNat ∧
      s.ptBbits.toNat = 10 ^ (s.ptLength.toNat - s.ptSprefix.toNat) ∧
      s.ptBbytes.toNat = (10 ^ (s.ptLength.toNat - s.ptSprefix.toNat) + 7) / 8 := by
  have hshape := hinv.shape
  rwa [State.ShapeOk, if_pos hp] at hshape

/-- A block has bytes for all of its bits, R160. -/
theorem State.Inv.ptBbytes_eq {s : State} (hinv : s.Inv) (hp : s.ptrdy = true) :
    s.ptBbytes.toNat = (s.ptBbits.toNat + 7) / 8 := by
  obtain ⟨_, _, _, _, hbits, hbytes⟩ := hinv.shape_of_table hp
  rw [hbytes, hbits]

/-- The largest table holds 10000 blocks of 1250000000 bytes, R34. -/
theorem State.Inv.content_le {s : State} (hinv : s.Inv) :
    s.ptBcount.toNat * s.ptBbytes.toNat ≤ 12500000000000 := by
  cases hp : s.ptrdy with
  | false =>
    have hshape := hinv.shape
    rw [State.ShapeOk, if_neg (by simp [hp])] at hshape
    obtain ⟨hcount, _, _⟩ := hshape
    simp [hcount]
  | true =>
    obtain ⟨_, _, hLS, _, _, hbytes⟩ := hinv.shape_of_table hp
    have hbits : 10 ^ (s.ptLength.toNat - s.ptSprefix.toNat) ≤ 10 ^ 10 :=
      Nat.pow_le_pow_right (by decide) hLS
    calc s.ptBcount.toNat * s.ptBbytes.toNat
        ≤ 10 ^ 4 * 1250000000 := Nat.mul_le_mul (hinv.ptBcount_le hp) (by omega)
      _ = 12500000000000 := rfl

/-- A table of a legal shape, with no block in it, R161. -/
theorem State.Inv.withTable {s : State} (hinv : s.Inv)
    (hlegal : legalShape s.ptLength.toNat s.ptSprefix.toNat = true) : s.withTable.Inv := by
  obtain ⟨hS, hSL, hLS⟩ := (legalShape_iff _ _).mp hlegal
  obtain ⟨hcount, hbits, hbytes⟩ := shape_values_fit hS hLS
  exact { hinv with
    shape := ⟨hS, hSL, hLS, Nat.mod_eq_of_lt hcount, Nat.mod_eq_of_lt hbits,
      Nat.mod_eq_of_lt hbytes⟩
    store := ⟨⟨List.Pairwise.nil, fun _ h => absurd h List.not_mem_nil⟩, fun m _ => Nat.zero_le m⟩ }

/-! ### The block store, R38 R163 -/

/-- Within the limit, a slot may be assigned that is allocated or has room. -/
theorem State.Inv.nalloc_setSlot_le {s : State} (hinv : s.Inv) {blk m : Nat} (b : Block)
    (hroom : s.slot blk ≠ none ∨ s.HasRoom) (hm : s.cfg.ptMaxAlloc = some m) :
    (s.setSlot blk b).nalloc ≤ m := by
  obtain ⟨_, hlimit⟩ := hinv.store
  cases hs : s.slot blk with
  | some c =>
    have hold : (s.setSlot blk b).nalloc = s.nalloc :=
      length_assocPut_old hinv.wf b (Option.isSome_iff_exists.mpr ⟨c, hs⟩)
    exact hold.trans_le (hlimit m hm)
  | none =>
    have hnew : (s.setSlot blk b).nalloc = s.nalloc + 1 := length_assocPut_new b hs
    exact hnew.trans_le (hroom.resolve_left (not_not_intro hs) m hm)

theorem State.Inv.setSlot {s : State} (hinv : s.Inv) {blk : Nat} {b : Block}
    (hblk : blk < s.ptBcount.toNat) (hb : Block.wf s.ptBbytes.toNat b)
    (hroom : s.slot blk ≠ none ∨ s.HasRoom) : (s.setSlot blk b).Inv := by
  obtain ⟨⟨hwf, hslots⟩, _⟩ := hinv.store
  refine { hinv with
    store := ⟨⟨assocWf_put hwf blk b, fun p hp => ?_⟩, fun m => hinv.nalloc_setSlot_le b hroom⟩ }
  rcases mem_assocPut hp with rfl | hold
  · exact ⟨hblk, hb⟩
  · exact hslots p hold

theorem State.Inv.clearSlot {s : State} (hinv : s.Inv) (blk : Nat) : (s.clearSlot blk).Inv := by
  obtain ⟨⟨hwf, hslots⟩, hlimit⟩ := hinv.store
  exact { hinv with
    store := ⟨⟨assocWf_erase hwf blk, fun p hp => hslots p (mem_assocErase hp)⟩, fun m hm =>
      (length_assocErase_le s.slots blk).trans (hlimit m hm)⟩ }

theorem State.fits_of_allocError {s : State} {blk : Nat} (h : s.allocError blk = none) :
    s.slot blk ≠ none ∨ s.HasRoom := by
  by_contra hfull
  obtain ⟨hs, hr⟩ := not_or.mp hfull
  rw [State.allocError_of_full (not_not.mp hs) hr] at h
  cases h

theorem State.Inv.withBlock {s : State} (hinv : s.Inv) {blk : Nat} (hblk : blk < s.ptBcount.toNat)
    (h : s.allocError blk = none) : (s.withBlock blk).Inv := by
  by_cases hs : s.slot blk = none
  · rw [State.withBlock_of_unallocated hs]
    exact hinv.setSlot hblk (Block.wf_nil _) (State.fits_of_allocError h)
  · rwa [State.withBlock_of_allocated hs]

theorem State.Inv.bufferOf_wf {s : State} (hinv : s.Inv) (blk : Nat) :
    Block.wf s.ptBbytes.toNat (s.bufferOf blk) := by
  cases hs : s.slot blk with
  | none => rw [State.bufferOf, hs]; exact Block.wf_nil _
  | some b => rw [State.bufferOf, hs]; exact (hinv.slot_wf hs).2

/-- The place of an id in range lies in the table and in its block, R162 R170. -/
theorem State.Inv.place_in_table {s : State} (hinv : s.Inv) (hp : s.ptrdy = true)
    (hid : s.ptArg.toNat < s.ptBcount.toNat * s.ptBbits.toNat) :
    s.place.blk < s.ptBcount.toNat ∧ s.place.byteIdx < s.ptBbytes.toNat := by
  obtain ⟨_, hblk, hbyte, _⟩ := differentIdsHaveDifferentBits _ _ _ _ hid hid
  exact ⟨hblk, hinv.ptBbytes_eq hp ▸ hbyte⟩

/-- Setting the bit of `PT_ARG` after the checks of PTSET and PTTAS, R167. -/
theorem State.Inv.marked_place {s : State} (hinv : s.Inv) (h : s.setError = none) :
    (s.marked s.place).Inv := by
  obtain ⟨_, halloc⟩ := Option.or_eq_none_iff.mp h
  obtain ⟨hp, hid⟩ := State.table_and_range_of_setError_eq_none h
  obtain ⟨hblk, hbyte⟩ := hinv.place_in_table hp hid
  exact hinv.setSlot hblk (Block.wf_write (hinv.bufferOf_wf _) hbyte _)
    (State.fits_of_allocError halloc)

/-- PTALLOC passes its checks with a block of the table that can be allocated, R165. -/
theorem State.ptallocError_eq_none {s : State} (h : s.ptallocError = none) :
    s.ptArg.toNat < s.ptBcount.toNat ∧ s.allocError s.ptArg.toNat = none := by
  unfold State.ptallocError at h
  split_ifs at h with hp hblk
  exact ⟨Nat.not_le.mp hblk, h⟩

/-! ### Loading an image, R184 R185 -/

/-- Reading a record keeps the invariant, whether the record is assigned or ends the load. -/
theorem State.Inv.loadRecord {s : State} (hinv : s.Inv) {i : Nat} (hi : i < s.ptBcount.toNat) :
    (loadEnd (s.loadRecord i)).Inv := by
  rcases s.loadRecord_cases i with ⟨_, h⟩ | ⟨rest, _, h⟩ | ⟨_, _, _, h⟩ | ⟨_, rest, _, _, _, _, h⟩ |
    ⟨d, rest, _, hd, hroom, h⟩ | ⟨_, rest, _, _, _, h⟩
  all_goals rw [h]
  · exact hinv
  · exact (hinv.clearSlot i).withSrc rest
  · exact hinv.withSrc []
  · exact hinv.withSrc rest
  · exact (hinv.setSlot hi (hd ▸ Block.wf_ofBytes d) hroom).withSrc rest
  · exact hinv.withSrc rest

/-- What a record leaves of the shape, and how many content bytes it adds. -/
theorem State.loadRecord_ok {s t : State} {i c : Nat} (h : s.loadRecord i = .ok (t, c)) :
    t.ptBcount = s.ptBcount ∧ t.ptBbytes = s.ptBbytes ∧ c ≤ s.ptBbytes.toNat := by
  rcases s.loadRecord_cases i with ⟨_, h'⟩ | ⟨_, _, h'⟩ | ⟨_, _, _, h'⟩ | ⟨_, _, _, _, _, _, h'⟩ |
    ⟨_, _, _, _, _, h'⟩ | ⟨_, _, _, _, _, h'⟩
  all_goals cases h'.symm.trans h
  · exact ⟨rfl, rfl, Nat.zero_le _⟩
  · exact ⟨rfl, rfl, Nat.le_refl _⟩

theorem State.Inv.loadRecords (n : Nat) : ∀ {s : State} {i : Nat} (c : Nat), s.Inv →
    i + n ≤ s.ptBcount.toNat → (loadEnd (State.loadRecords n i c s)).Inv := by
  induction n with
  | zero => exact fun _ hinv _ => hinv
  | succ n ih =>
    intro s i c hinv hn
    have hrec := hinv.loadRecord (i := i) (by omega)
    rw [State.loadRecords]
    cases h : s.loadRecord i with
    | error e => rwa [h] at hrec
    | ok p =>
      rw [h] at hrec
      obtain ⟨hcount, _, _⟩ := State.loadRecord_ok h
      exact ih (c + p.2) hrec (by rw [hcount]; omega)

/-- Each record counts at most one block of content bytes. -/
theorem State.loadRecords_count_le (n : Nat) : ∀ {s t : State} {i c count : Nat},
    State.loadRecords n i c s = .ok (t, count) → count ≤ c + n * s.ptBbytes.toNat := by
  induction n with
  | zero =>
    intro s t i c count h
    cases h
    omega
  | succ n ih =>
    intro s t i c count h
    rw [State.loadRecords] at h
    cases hrec : s.loadRecord i with
    | error e => rw [hrec] at h; cases h
    | ok p =>
      rw [hrec] at h
      obtain ⟨_, hbytes, hc⟩ := State.loadRecord_ok hrec
      have hrest := ih h
      rw [hbytes] at hrest
      rw [Nat.succ_mul]
      omega

/-- The header only takes bytes from `SRC`; then the records are read from index 0. -/
theorem State.load_cases (s : State) :
    (∃ r e, s.load = .error (s.withSrc r, e)) ∨
      ∃ r, s.load = State.loadRecords s.ptBcount.toNat 0 0 (s.withSrc r) := by
  unfold State.load
  rw [State.srcRead_eq]
  dsimp only
  split_ifs
  · exact .inl ⟨_, _, rfl⟩
  · exact .inl ⟨_, _, rfl⟩
  · exact .inr ⟨_, rfl⟩

theorem State.Inv.load {s : State} (hinv : s.Inv) : (loadEnd s.load).Inv := by
  rcases s.load_cases with ⟨r, e, h⟩ | ⟨r, h⟩
  · rw [h]; exact hinv.withSrc r
  · rw [h]; exact State.Inv.loadRecords _ 0 (hinv.withSrc r) (Nat.zero_add _).le

theorem State.load_count_le {s t : State} {count : Nat} (h : s.load = .ok (t, count)) :
    count ≤ s.ptBcount.toNat * s.ptBbytes.toNat := by
  rcases s.load_cases with ⟨r, e, hl⟩ | ⟨r, hl⟩
  · cases hl.symm.trans h
  · simpa using State.loadRecords_count_le _ (hl.symm.trans h)

/-! ### The commands -/

theorem exec_ptinit_keeps_inv {s t : State} (hinv : s.Inv) (h : exec .ptinit s = .next t) :
    t.Inv := by
  cases hp : s.ptrdy with
  | true =>
    obtain rfl := Host.Outcome.next.inj ((exec_ptinit_of_table hp).symm.trans h)
    exact hinv.raise .state
  | false =>
    obtain rfl := Host.Outcome.next.inj ((exec_ptinit_of_no_table hp).symm.trans h)
    split
    · next hlegal => exact (hinv.withTable hlegal).succeed
    · exact hinv.raise .shape

theorem exec_ptdump_keeps_inv {s t : State} (hinv : s.Inv) (h : exec .ptdump s = .next t) :
    t.Inv := by
  cases hp : s.ptrdy with
  | false =>
    obtain rfl := Host.Outcome.next.inj ((exec_of_no_table (by simp) hp).symm.trans h)
    exact hinv.raise .state
  | true =>
    obtain rfl := Host.Outcome.next.inj ((exec_ptdump_of_table hp).symm.trans h)
    have hcount : s.imageContent ≤ 12500000000000 := by
      refine Nat.le_trans ?_ hinv.content_le
      rw [← s.contentBytes_records, ← s.length_records]
      exact contentBytes_le _ _
    exact ((hinv.snkWrite s.image).putCount hcount).succeed

theorem exec_ptload_keeps_inv {s t : State} (hinv : s.Inv) (h : exec .ptload s = .next t) :
    t.Inv := by
  cases hp : s.ptrdy with
  | false =>
    obtain rfl := Host.Outcome.next.inj ((exec_of_no_table (by simp) hp).symm.trans h)
    exact hinv.raise .state
  | true =>
    have hloaded := hinv.load
    cases hload : s.load with
    | error p =>
      rw [hload] at hloaded
      obtain rfl := Host.Outcome.next.inj ((exec_ptload_error hp hload).symm.trans h)
      exact hloaded.raise p.2
    | ok p =>
      rw [hload] at hloaded
      obtain rfl := Host.Outcome.next.inj ((exec_ptload_ok hp hload).symm.trans h)
      exact (hloaded.putCount ((State.load_count_le hload).trans hinv.content_le)).succeed

theorem exec_modpow_keeps_inv {s t : State} (hinv : s.Inv) (h : exec .modpow s = .next t) :
    t.Inv := by
  by_cases hmod : s.mpMod = 0
  · obtain rfl := Host.Outcome.next.inj ((exec_modpow_of_eq_zero hmod).symm.trans h)
    exact hinv.raise .modzero
  · obtain rfl := Host.Outcome.next.inj ((exec_modpow_of_ne_zero hmod).symm.trans h)
    exact State.Inv.succeed { hinv with }

theorem exec_encrypt_keeps_inv {s t : State} {g : Bool} (hinv : s.Inv)
    (h : exec (.encrypt g) s = .next t) : t.Inv := by
  obtain ⟨k, d, htake, _⟩ := s.requestKey_cases g
  rw [exec_encrypt, htake] at h
  obtain rfl := Host.Outcome.next.inj h
  have hkey : State.Inv { s with key := k, draws := d } := { hinv with }
  exact hinv.ends fun hlen => (hkey.encryptInput (State.le_obufCap_of_lenCheck hlen)).encodeKey

/-- Every command keeps the invariant: the checks it makes are the side conditions of the updates
that follow them. -/
theorem exec_keeps_inv {s t : State} {i : Instr} (hinv : s.Inv) (h : exec i s = .next t) :
    t.Inv := by
  cases i with
  | modpow => exact exec_modpow_keeps_inv hinv h
  | enckey =>
    obtain rfl := Host.Outcome.next.inj ((exec_enckey s).symm.trans h)
    exact hinv.encodeKey.succeed
  | aescbc =>
    obtain rfl := Host.Outcome.next.inj ((exec_aescbc s).symm.trans h)
    exact hinv.ends fun hlen => hinv.putOutput
      (by rw [length_aesCbcEncrypt, State.length_input]) (State.le_obufCap_of_lenCheck hlen)
  | dblenc =>
    obtain rfl := Host.Outcome.next.inj ((exec_dblenc s).symm.trans h)
    exact hinv.ends fun hlen => hinv.encryptInput (State.le_obufCap_of_lenCheck hlen)
  | keygen =>
    obtain rfl := Host.Outcome.next.inj ((exec_keygen s).symm.trans h)
    exact hinv.drawKey.succeed
  | encrypt g => exact exec_encrypt_keeps_inv hinv h
  | ptinit => exact exec_ptinit_keeps_inv hinv h
  | ptalloc =>
    obtain rfl := Host.Outcome.next.inj ((exec_ptalloc s).symm.trans h)
    refine hinv.ends fun hnone => ?_
    obtain ⟨hblk, halloc⟩ := State.ptallocError_eq_none hnone
    exact hinv.withBlock hblk halloc
  | pttest =>
    obtain rfl := Host.Outcome.next.inj ((exec_pttest s).symm.trans h)
    exact hinv.ends fun _ => hinv.putBool _
  | ptset =>
    obtain rfl := Host.Outcome.next.inj ((exec_ptset s).symm.trans h)
    exact hinv.ends hinv.marked_place
  | pttas =>
    obtain rfl := Host.Outcome.next.inj ((exec_pttas s).symm.trans h)
    exact hinv.ends fun hnone => (hinv.marked_place hnone).putBool _
  | ptdump => exact exec_ptdump_keeps_inv hinv h
  | ptload => exact exec_ptload_keeps_inv hinv h

/-! ### The host actions and the step -/

theorem runCommand_keeps_inv {s t : State} {w : Word} (hinv : s.Inv)
    (h : runCommand w s = .next t) : t.Inv := by
  cases hd : decode w with
  | ok i => exact exec_keeps_inv hinv ((runCommand_ok hd s).symm.trans h)
  | error e =>
    simp only [runCommand, hd, Host.Outcome.next.injEq] at h
    exact h ▸ hinv.raise _

/-- A store writes whole words of `IBUF`, the shape's parameters only while there is no table, or a
register the invariant does not look at, R35 R51. -/
theorem writeLoc_keeps_inv {s t : State} {l : Loc} {v : Word} (hinv : s.Inv) (hl : l.Ok s.cfg)
    (h : s.writeLoc v l = some t) : t.Inv := by
  cases l
  case ibuf j =>
    obtain rfl := Option.some.inj h
    refine hinv.writeBytes fun x hlo hhi => .inl ?_
    have hcap := cap_mod s.cfg
    simp only [Loc.Ok, length_laneBytes] at hl hhi
    omega
  case ptLength | ptSprefix =>
    obtain ⟨hp, hstore⟩ := Option.ite_none_left_eq_some.mp h
    obtain rfl := Option.some.inj hstore
    have hshape := hinv.shape
    rw [State.ShapeOk, if_neg hp] at hshape
    exact { hinv with shape := by rwa [State.ShapeOk, if_neg hp] }
  case cmd | ilen | ptArgLo | ptArgHi | key | akey | aiv | mpBase | mpExp | mpMod =>
    obtain rfl := Option.some.inj h
    exact { hinv with }
  all_goals exact absurd h (Option.some_ne_none t).symm

theorem perform_memWrite_keeps_inv {s t : State} {a v : Word} (hinv : s.Inv)
    (h : perform (.memWrite a v) s = .next t) : t.Inv := by
  by_cases hbad : a.toNat % 4 ≠ 0 ∨ ¬ Mapped s.cfg a.toNat ∨ ¬ Writable s a.toNat
  · obtain rfl := Host.Outcome.next.inj ((perform_memWrite_busError v hbad).symm.trans h)
    exact hinv.respond _
  · simp only [not_or, not_not] at hbad
    obtain ⟨haligned, _, hw⟩ := hbad
    by_cases h0 : a.toNat = 0
    · obtain rfl : a = 0 := BitVec.eq_of_toNat_eq h0
      obtain ⟨u, hu, _⟩ := runCommand_next v s
      rw [perform_memWrite_cmd, hu] at h
      obtain rfl : u.respond .accepted = t := Host.Outcome.next.inj h
      exact (runCommand_keeps_inv hinv hu).respond _
    · obtain ⟨l, u, _, _, hok, _, hu, hperform⟩ := perform_memWrite_store v haligned h0 hw
      obtain rfl := Host.Outcome.next.inj (hperform.symm.trans h)
      exact (writeLoc_keeps_inv hinv hok hu).respond _

theorem perform_keeps_inv {s t : State} {act : HostAction} (hinv : s.Inv)
    (h : perform act s = .next t) : t.Inv := by
  cases act with
  | memRead a => obtain rfl := Host.Outcome.next.inj h; exact hinv.respond _
  | memWrite a v => exact perform_memWrite_keeps_inv hinv h
  | srcSupply bytes => obtain rfl := Host.Outcome.next.inj h; exact hinv.withSrc bytes
  | snkTake => obtain rfl := Host.Outcome.next.inj h; exact { hinv with }
  | reset => obtain rfl := Host.Outcome.next.inj h; exact State.atReset_inv _ _ _ _ _

/-- Settles O9: the step idles, or performs the oldest pending action (`perform_keeps_inv`). -/
theorem everyStepKeepsTheInvariant : Obligations.EveryStepKeepsTheInvariant := by
  intro s t hinv hstep
  cases hp : s.pending with
  | nil =>
    obtain rfl := Host.Outcome.next.inj ((step_idle hp).symm.trans hstep)
    exact hinv
  | cons act rest =>
    rw [step_pending hp] at hstep
    exact perform_keeps_inv (s := s.popAction rest) { hinv with } hstep

end Sys2Proof.Machine
end
